-- ==== Sys2Proof/Word.lean ====
section
/-! DEFINITION. The widths of the GF256 engine (00_scope.md R8, R9): words of XLEN = 32 bits, field elements and
pool entries of 8 bits, register numbers 0 to 15. -/

namespace Sys2Proof

/-- A 32-bit word: a general register, a scratchpad word, a control register, a command (R8, R18). -/
abbrev Word := BitVec 32

/-- A byte: a field element (R17), an entropy byte (R190), a pool entry (R35). -/
abbrev Byte := BitVec 8

/-- The number of a general register, g0 to g15 (R20). -/
abbrev RegNum := Fin 16

end Sys2Proof
end

