-- ==== Sys2Proof/Config.lean ====
section
/-! DEFINITION. What an implementation fixes (00_scope.md R8), the free values of the entropy source (44_csprng.md
R190), and the one number of the model's own. -/

namespace Sys2Proof

/-- SPM_WORDS, the number of 32-bit words of the scratchpad: R8's default. DESIGN CHOICE, unsafe for a block built
with another size (log entry 2). -/
def Config.spmWords : Nat := 4096

/-- What the entropy source delivers as the byte number `n` it is asked for, once the bytes supplied beforehand are
used up. It has no body: R190 "places no law on the values", so nothing can be proved of one of them. DESIGN CHOICE,
safe (log entry 5). -/
opaque Config.entropyByte : Nat → Byte

/-- How many candidates a resampling command draws within one step of the model before the step ends with the command
still in progress. R309 gives the loops no bound, so the command goes on in the next step. What the
host can observe depends on this number in one way only: where a reset can cut the command, and so how many bytes it has
drawn by then. DESIGN CHOICE, safe but for that (log entries 6, 7). -/
def Config.candidatesPerStep : Nat := 65536

end Sys2Proof
end

