-- ==== Sys2Proof/Machine/State.lean ====
section
/-! DEFINITION. What the block holds (10_state.md R20 to R39), what its environment hands it (the host's accesses, the
entropy source's bytes), the reset state (R43, 70_reset_and_hazards.md R300), and the reasons the model stops. -/

namespace Sys2Proof.Machine

/-- One word of the scratchpad at its word index (R39, R61). -/
abbrev SpmCell := Nat × Word

/-- The scratchpad: the words that are not 0, by rising word index. A word that is not listed reads as its reset
value 0 (R39). -/
abbrev Spm := List SpmCell

/-- The width of a host access (20_memory.md R63). -/
inductive Width where
  | byte | half | word
deriving DecidableEq, Repr

/-- What the host does to the block (00_scope.md R13, R40, R300): an access to the register window at a byte offset, or
the assertion of the `rst` input. -/
inductive BusEvent where
  | read (width : Width) (offset : Nat)
  | write (width : Width) (offset : Nat) (value : Word)
  | reset
deriving DecidableEq, Repr

/-- What a resampling loop tries to draw (44_csprng.md R195, R196). -/
inductive Sampler where
  /-- `NextNonZero()`: bytes that are not 0 (R195). -/
  | nonZero
  /-- `NextInt(max)`: integers below `max` (R196). -/
  | below (max : Nat)
deriving DecidableEq, Repr

/-- Where a resampling command writes its result when its loop ends. -/
inductive Sink where
  /-- The one value held, zero-extended, to `g[rd]` (R201, R203). -/
  | reg (rd : RegNum)
  /-- `lead`, then the values held, in ascending order, one a word from `base` (R205, R220, R221). -/
  | mem (base : Nat) (lead : List Byte)
deriving DecidableEq, Repr

/-- A resampling command in progress (70_reset_and_hazards.md R309): it draws with `sampler` until it holds `goal`
distinct values, then writes them. `held` is ascending without repeats. -/
structure Pending where
  sampler : Sampler
  goal : Nat
  held : List Byte
  sink : Sink
deriving DecidableEq, Repr

/-- The state of the block, and of its environment as far as it decides what the block does next. -/
structure State where
  /-- g0 to g15 (R20). -/
  g : Vector Word 16
  /-- CMDCNT, accepted commands modulo 2^32 (R25). -/
  cmdcnt : Word
  /-- STATUS.FAULT (R26). -/
  faultFlag : Bool
  /-- STATUS.DROP (R26). -/
  dropFlag : Bool
  /-- INIT, of which STATUS.INIT is a copy (R37). -/
  initFlag : Bool
  /-- CTRL.FIE (R27). -/
  fie : Bool
  /-- FCAUSE, of which bits 31:5 always read 0 (R28). -/
  fcause : BitVec 5
  /-- FCMD (R29). -/
  fcmd : Word
  /-- FIDX (R30). -/
  fidx : Word
  /-- FGRP (R31). -/
  fgrp : Word
  /-- FSEQ (R32). -/
  fseq : Word
  /-- POOL[0] to POOL[255] (R35): 256 bytes, which every operation keeps. -/
  pool : List Byte
  /-- CUR (R36). -/
  cur : BitVec 8
  /-- SPM (R39). -/
  spm : Spm
  /-- The command in progress, if there is one (R309). -/
  pending : Option Pending
  /-- The host's accesses that the block has not taken yet, oldest first (R74; log entry 3). -/
  bus : List BusEvent
  /-- The data that the last access returned, `none` where it was not a read (R290; log entry 4). -/
  readData : Option Word
  /-- The bytes the entropy source has been told to deliver next, oldest first (R99 `.ENTROPY`; log entry 5). -/
  entropy : List Byte
  /-- How many bytes the entropy source has delivered (R81; log entry 5). -/
  drawn : Nat
deriving DecidableEq, Repr

/-- The state after reset: R43, R300. The last five fields but `pending` are the environment's, at values of the
model's choice (log entries 3, 4, 5); no command is in progress, "the block is idle" (R301). -/
def State.reset : State where
  g := Vector.replicate 16 0
  cmdcnt := 0
  faultFlag := false
  dropFlag := false
  initFlag := false
  fie := false
  fcause := 0
  fcmd := 0
  fidx := 0
  fgrp := 0
  fseq := 0
  pool := List.replicate 256 0
  cur := 0
  spm := []
  pending := none
  bus := []
  readData := none
  entropy := []
  drawn := 0

/-- Why the machine stops with a fault: nothing stops it. A fault of the block is an event that its registers record
(60_exceptions.md R260, R267), a next state; its causes are `Cause` in Machine/Ops.lean. Safe: the type is empty, so
no step can answer a fault. -/
inductive Fault
deriving DecidableEq, Repr

/-- Why the model has no meaning for a step. -/
inductive Refusal where
  /-- `exec`, for a command that has no meaning in this model; no arm is left that answers it. Safe. -/
  | notModelled (mnemonic : String)
  /-- `access` in Machine/Port.lean, for a host access narrower than 32 bits: R63 "has no meaning in this spec: a model
  gives it no step" (93_implementation_defined.md U6, `refuse`). Safe for what the model says of a step; unsafe only
  for a claim about a host that makes one (log entry 9). -/
  | narrowAccess
  /-- `access` in Machine/Port.lean, for a host access at an offset that is no multiple of 4: as above (R63, U6). -/
  | misalignedAccess
deriving DecidableEq, Repr

/-- What one step or one command answers. -/
abbrev Outcome := Host.Outcome State Fault Refusal

end Sys2Proof.Machine
end

