-- ==== Sys2Proof/Machine/Operands.lean ====
section
/-! DEFINITION. The readings of a 32-bit operand (00_scope.md R9, R11, R12; 41_field_arithmetic.md R140; 20_memory.md
R66): signed, as a field element, as an address, as a range. -/

namespace Sys2Proof.Machine

/-- `sint(v)`, the two's-complement reading (R11). -/
abbrev sint (v : Word) : Int := v.toInt

/-- `sext_32` of an immediate (R9, R93): for a value of 16 signed bits, its 32-bit two's complement. -/
def sextImm (imm : Int) : Word := BitVec.ofInt 32 imm

/-- `IsElem(v)`: bits 31:8 are 0 (R140). -/
def isElem (v : Word) : Bool := decide (v.toNat < 256)

/-- `a[7:0]` of R150. -/
def lowByte (v : Word) : Byte := v.setWidth 8

/-- `zext_32(v)` of a byte (R9). -/
def zextByte (b : Byte) : Word := b.setWidth 32

/-- `RangeOK(base, n)`: base + n ≤ SPM_WORDS in unbounded integers (R12). -/
def rangeOk (base : Word) (n : Nat) : Bool := decide (base.toNat + n ≤ Config.spmWords)

/-- The word address of LDW and STW, `(g[ra] + sext_32(imm16)) mod 2^32` (R66). -/
def wordAddr (base : Word) (imm : Int) : Word := base + sextImm imm

/-- An index or a number as a fault register holds it, 32 bits (R30, R31). -/
def indexWord (n : Nat) : Word := BitVec.ofNat 32 n

end Sys2Proof.Machine
end

