-- ==== Sys2Proof/Machine/Field.lean ====
section
/-! DEFINITION. The field GF(2^8) of 41_field_arithmetic.md and the functions over it: XTime, GFMul, GFInv, GFDiv
(R142 to R145), Horner (42_polynomial_eval.md R170), Lagrange0 (43_lagrange.md R180). -/

namespace Sys2Proof.Machine

/-- `XTime(a)`: multiplication by x, with the x^8 term replaced by x^4 + x^3 + x + 1 = 0x1B (R142, R7). -/
def xtime (a : Byte) : Byte := (a <<< 1) ^^^ (if a.getLsbD 7 then 0x1B else 0)

/-- The loop of R143 for bits `i` to 7 of `b`, `n = 8 − i` of them, with the running `p` and `a`. -/
def gfMulLoop : Nat → Nat → Byte → Byte → Byte → Byte
  | 0, _, p, _, _ => p
  | n + 1, i, p, a, b => gfMulLoop n (i + 1) (if b.getLsbD i then p ^^^ a else p) (xtime a) b

/-- `GFMul(a, b)`, shift-and-add (R143). -/
def gfMul (a b : Byte) : Byte := gfMulLoop 8 0 0 a b

/-- `a · a`. -/
def gfSquare (a : Byte) : Byte := gfMul a a

/-- `GFInv(a) = a^254` (R144, the closed form), as a^2 · a^4 · a^8 · a^16 · a^32 · a^64 · a^128 (log entry 12). -/
def gfInv (a : Byte) : Byte :=
  let a2 := gfSquare a
  let a4 := gfSquare a2
  let a8 := gfSquare a4
  let a16 := gfSquare a8
  let a32 := gfSquare a16
  let a64 := gfSquare a32
  let a128 := gfSquare a64
  gfMul a2 (gfMul a4 (gfMul a8 (gfMul a16 (gfMul a32 (gfMul a64 a128)))))

/-- `GFDiv(a, b) = GFMul(a, GFInv(b))` (R145). -/
def gfDiv (a b : Byte) : Byte := gfMul a (gfInv b)

/-- `Horner(c, x)` (R170): c_0 comes first, and the loop begins with the last coefficient. -/
def horner : List Byte → Byte → Byte
  | [], _ => 0
  | c :: cs, x => gfMul (horner cs x) x ^^^ c

/-- The inner loop of R180 over the points `xs`, numbered from `j`: the product of `xs[j] / (xs[j] XOR xi)` over
`j ≠ i`, times `basis`. -/
def basisLoop (i : Nat) (xi : Byte) : Nat → Byte → List Byte → Byte
  | _, basis, [] => basis
  | j, basis, xj :: rest =>
    basisLoop i xi (j + 1) (if j = i then basis else gfMul basis (gfDiv xj (xj ^^^ xi))) rest

/-- The outer loop of R180 over the points numbered from `i`, with all the xs at hand. -/
def lagrangeLoop (all : List Byte) : Nat → Byte → List (Byte × Byte) → Byte
  | _, result, [] => result
  | i, result, (xi, yi) :: rest =>
    lagrangeLoop all (i + 1) (result ^^^ gfMul yi (basisLoop i xi 0 1 all)) rest

/-- `Lagrange0(xs, ys)` for points (x, y) (R180). -/
def lagrange0 (points : List (Byte × Byte)) : Byte := lagrangeLoop (points.map Prod.fst) 0 0 points

end Sys2Proof.Machine
end

