-- ==== Sys2Proof/Machine/Flags.lean ====
section
/-! DEFINITION. The block has no condition codes (10_state.md R41). What stands in their place: the words STATUS and
CTRL as the host reads them, the interrupt line, and the truth values GFVALID and PVALID write. -/

namespace Sys2Proof.Machine

/-- STATUS as the host reads it (R26): FAULT in bit 0, DROP in bit 1, INIT in bit 2, bits 31:3 zero. -/
def State.status (s : State) : Word :=
  BitVec.ofNat 32 (s.faultFlag.toNat + 2 * s.dropFlag.toNat + 4 * s.initFlag.toNat)

/-- CTRL as the host reads it (R27): FIE in bit 0, bits 31:1 zero. -/
def State.ctrl (s : State) : Word := BitVec.ofNat 32 s.fie.toNat

/-- The `irq` output, `STATUS.FAULT AND CTRL.FIE` at every moment (60_exceptions.md R274). -/
def State.irq (s : State) : Bool := s.faultFlag && s.fie

/-- A truth value as a command writes it to `g[rd]`: 0 or 1 (R41). -/
def truthWord (b : Bool) : Word := if b then 1 else 0

end Sys2Proof.Machine
end

