-- ==== Sys2Proof/Syntax.lean ====
section
/-! DEFINITION. The 25 commands of the opcode map (30_encoding.md R94), one constructor a row, operands in the order of
the assembler's syntax (R98). -/

namespace Sys2Proof

/-- A command of the block. Register operands carry the names of the encoding's fields (R91, R92); an immediate is the
signed number of R93 and R98 (log entry 11). -/
inductive Instr where
  /-- LI gD, imm (R120). -/
  | li (rd : RegNum) (imm : Int)
  /-- MOV gD, gA (R121). -/
  | mov (rd ra : RegNum)
  /-- LDW gD, imm(gA) (R122). -/
  | ldw (rd ra : RegNum) (imm : Int)
  /-- STW gD, imm(gA): `rd` is the SOURCE (R92, R123). -/
  | stw (rd ra : RegNum) (imm : Int)
  /-- WIPE gA, gB: base, count (R124). -/
  | wipe (ra rb : RegNum)
  /-- GFADD gD, gA, gB (R150). -/
  | gfadd (rd ra rb : RegNum)
  /-- GFSUB gD, gA, gB (R151). -/
  | gfsub (rd ra rb : RegNum)
  /-- GFMUL gD, gA, gB (R152). -/
  | gfmul (rd ra rb : RegNum)
  /-- GFINV gD, gA (R153). -/
  | gfinv (rd ra : RegNum)
  /-- GFDIV gD, gA, gB (R154). -/
  | gfdiv (rd ra rb : RegNum)
  /-- GFVALID gD, gA (R155). -/
  | gfvalid (rd ra : RegNum)
  /-- PEVAL gD, gA, gB, gC: coefficient base, count, point (R171). -/
  | peval (rd ra rb rc : RegNum)
  /-- PVALID gD, gA, gB: coefficient base, count (R222). -/
  | pvalid (rd ra rb : RegNum)
  /-- GENPOLY gA, gB, gC: coefficient base, secret, threshold (R220). -/
  | genpoly (ra rb rc : RegNum)
  /-- GENPTS gA, gB: base, count (R221). -/
  | genpts (ra rb : RegNum)
  /-- LAGR gD, gA, gB, gC, gE: xs base, xs count, ys base, ys count (R181). -/
  | lagr (rd ra rb rc re : RegNum)
  /-- RECON gD, gA, gB, gC: share base, count, threshold (R231). -/
  | recon (rd ra rb rc : RegNum)
  /-- BRECON gA, gB, gC, gE: descriptor base, groups, threshold, out base (R232). -/
  | brecon (ra rb rc re : RegNum)
  /-- RNDB gD (R200). -/
  | rndb (rd : RegNum)
  /-- RNDNZ gD (R201). -/
  | rndnz (rd : RegNum)
  /-- RNDINT gD, gA: max (R203). -/
  | rndint (rd ra : RegNum)
  /-- RNDFILL gA, gB: base, count (R204). -/
  | rndfill (ra rb : RegNum)
  /-- RNDUNIQ gA, gB, gC: base, count, max (R205). -/
  | rnduniq (ra rb rc : RegNum)
  /-- RNDCLR (R206). -/
  | rndclr
  /-- RNDSEED (R207). -/
  | rndseed
deriving DecidableEq, Repr

end Sys2Proof
end

