-- ==== Sys2Proof/WellFormed.lean ====
section
/-! DEFINITION. Which terms of `Instr` an encoding exists for. The register operands are in range by their type; the
one check left is that an immediate fits 16 signed bits (30_encoding.md R92, R93). -/

namespace Sys2Proof

/-- R93: the immediates that "a 16-bit signed immediate" can express, −32768 to 32767. -/
def immOk (imm : Int) : Bool := decide (-32768 ≤ imm ∧ imm ≤ 32767)

/-- A command that 30_encoding.md can encode. -/
def Instr.wellFormed : Instr → Bool
  | .li _ imm => immOk imm
  | .ldw _ _ imm => immOk imm
  | .stw _ _ imm => immOk imm
  | .mov _ _ => true
  | .wipe _ _ => true
  | .gfadd _ _ _ => true
  | .gfsub _ _ _ => true
  | .gfmul _ _ _ => true
  | .gfinv _ _ => true
  | .gfdiv _ _ _ => true
  | .gfvalid _ _ => true
  | .peval _ _ _ _ => true
  | .pvalid _ _ _ => true
  | .genpoly _ _ _ => true
  | .genpts _ _ => true
  | .lagr _ _ _ _ _ => true
  | .recon _ _ _ _ => true
  | .brecon _ _ _ _ => true
  | .rndb _ => true
  | .rndnz _ => true
  | .rndint _ _ => true
  | .rndfill _ _ => true
  | .rnduniq _ _ _ => true
  | .rndclr => true
  | .rndseed => true

end Sys2Proof
end

