-- ==== Sys2Proof/Decode.lean ====
section
/-! DEFINITION. The command encoding (30_encoding.md): the opcode map of R94 as a table, the decoder of R95, total on
every 32-bit word and refusing by name, and the encoder. -/

namespace Sys2Proof

/-- The 25 opcodes of R94. -/
inductive Opcode where
  | li | mov | ldw | stw | wipe | gfadd | gfsub | gfmul | gfinv | gfdiv | gfvalid | peval | pvalid
  | genpoly | genpts | lagr | recon | brecon | rndb | rndnz | rndint | rndfill | rnduniq | rndclr | rndseed
deriving DecidableEq, Repr

/-- The two formats of R91 and R92. -/
inductive Format where
  | R | I
deriving DecidableEq, Repr

/-- One row of the opcode map: its mnemonic, opcode number and format, the register fields the command uses
(column "uses"), and the columns mask and match. -/
structure Row where
  name : String
  op : Nat
  format : Format
  usesRd : Bool
  usesRa : Bool
  usesRb : Bool
  usesRc : Bool
  usesRe : Bool
  mask : Word
  pattern : Word
deriving DecidableEq, Repr

/-- The opcode map, R94, in its order. -/
def Opcode.row : Opcode → Row
  | .li => ⟨"LI", 0x01, .I, true, false, false, false, false, 0xFF0F0000, 0x01000000⟩
  | .mov => ⟨"MOV", 0x02, .R, true, true, false, false, false, 0xFF00FFFF, 0x02000000⟩
  | .ldw => ⟨"LDW", 0x03, .I, true, true, false, false, false, 0xFF000000, 0x03000000⟩
  | .stw => ⟨"STW", 0x04, .I, true, true, false, false, false, 0xFF000000, 0x04000000⟩
  | .wipe => ⟨"WIPE", 0x05, .R, false, true, true, false, false, 0xFFF00FFF, 0x05000000⟩
  | .gfadd => ⟨"GFADD", 0x10, .R, true, true, true, false, false, 0xFF000FFF, 0x10000000⟩
  | .gfsub => ⟨"GFSUB", 0x11, .R, true, true, true, false, false, 0xFF000FFF, 0x11000000⟩
  | .gfmul => ⟨"GFMUL", 0x12, .R, true, true, true, false, false, 0xFF000FFF, 0x12000000⟩
  | .gfinv => ⟨"GFINV", 0x13, .R, true, true, false, false, false, 0xFF00FFFF, 0x13000000⟩
  | .gfdiv => ⟨"GFDIV", 0x14, .R, true, true, true, false, false, 0xFF000FFF, 0x14000000⟩
  | .gfvalid => ⟨"GFVALID", 0x15, .R, true, true, false, false, false, 0xFF00FFFF, 0x15000000⟩
  | .peval => ⟨"PEVAL", 0x20, .R, true, true, true, true, false, 0xFF0000FF, 0x20000000⟩
  | .pvalid => ⟨"PVALID", 0x21, .R, true, true, true, false, false, 0xFF000FFF, 0x21000000⟩
  | .genpoly => ⟨"GENPOLY", 0x22, .R, false, true, true, true, false, 0xFFF000FF, 0x22000000⟩
  | .genpts => ⟨"GENPTS", 0x23, .R, false, true, true, false, false, 0xFFF00FFF, 0x23000000⟩
  | .lagr => ⟨"LAGR", 0x30, .R, true, true, true, true, true, 0xFF00000F, 0x30000000⟩
  | .recon => ⟨"RECON", 0x31, .R, true, true, true, true, false, 0xFF0000FF, 0x31000000⟩
  | .brecon => ⟨"BRECON", 0x32, .R, false, true, true, true, true, 0xFFF0000F, 0x32000000⟩
  | .rndb => ⟨"RNDB", 0x40, .R, true, false, false, false, false, 0xFF0FFFFF, 0x40000000⟩
  | .rndnz => ⟨"RNDNZ", 0x41, .R, true, false, false, false, false, 0xFF0FFFFF, 0x41000000⟩
  | .rndint => ⟨"RNDINT", 0x42, .R, true, true, false, false, false, 0xFF00FFFF, 0x42000000⟩
  | .rndfill => ⟨"RNDFILL", 0x43, .R, false, true, true, false, false, 0xFFF00FFF, 0x43000000⟩
  | .rnduniq => ⟨"RNDUNIQ", 0x44, .R, false, true, true, true, false, 0xFFF000FF, 0x44000000⟩
  | .rndclr => ⟨"RNDCLR", 0x45, .R, false, false, false, false, false, 0xFFFFFFFF, 0x45000000⟩
  | .rndseed => ⟨"RNDSEED", 0x46, .R, false, false, false, false, false, 0xFFFFFFFF, 0x46000000⟩

/-- Every opcode, in the order of the map. -/
def Opcode.all : List Opcode :=
  [.li, .mov, .ldw, .stw, .wipe, .gfadd, .gfsub, .gfmul, .gfinv, .gfdiv, .gfvalid, .peval, .pvalid,
   .genpoly, .genpts, .lagr, .recon, .brecon, .rndb, .rndnz, .rndint, .rndfill, .rnduniq, .rndclr, .rndseed]

/-- The opcode with a given number, if R94 assigns it. -/
def Opcode.ofNumber (n : Nat) : Option Opcode := Opcode.all.find? (fun o => o.row.op == n)

/-- `v[hi:lo]` of R9: the bit slice from bit `hi` down to bit `lo`, as an unsigned integer. -/
def bitsOf (w : Word) (hi lo : Nat) : Nat := w.toNat / 2 ^ lo % 2 ^ (hi - lo + 1)

/-- A register number from a 4-bit field. -/
def regOf (n : Nat) : RegNum := Fin.ofNat 16 n

/-- Field `rd`, bits 23:20 (R91, R92). -/
def rdOf (w : Word) : RegNum := regOf (bitsOf w 23 20)

/-- Field `ra`, bits 19:16 (R91, R92). -/
def raOf (w : Word) : RegNum := regOf (bitsOf w 19 16)

/-- Field `rb`, bits 15:12 (R91). -/
def rbOf (w : Word) : RegNum := regOf (bitsOf w 15 12)

/-- Field `rc`, bits 11:8 (R91). -/
def rcOf (w : Word) : RegNum := regOf (bitsOf w 11 8)

/-- Field `re`, bits 7:4 (R91). -/
def reOf (w : Word) : RegNum := regOf (bitsOf w 7 4)

/-- The immediate, bits 15:0 read as a 16-bit signed number (R93). -/
def immOf (w : Word) : Int := (BitVec.ofNat 16 (bitsOf w 15 0)).toInt

/-- R94, R96: every register field the command does not use is 0, and so is `z` in format R; in format I bits 15:0 are
the immediate. -/
def unusedZero (r : Row) (w : Word) : Bool :=
  (r.usesRd || bitsOf w 23 20 == 0) && (r.usesRa || bitsOf w 19 16 == 0) &&
    match r.format with
    | .I => true
    | .R => (r.usesRb || bitsOf w 15 12 == 0) && (r.usesRc || bitsOf w 11 8 == 0) &&
        (r.usesRe || bitsOf w 7 4 == 0) && bitsOf w 3 0 == 0

/-- The command of an opcode with the fields of a word (R91, R92, R98). -/
def Opcode.instr (w : Word) : Opcode → Instr
  | .li => .li (rdOf w) (immOf w)
  | .mov => .mov (rdOf w) (raOf w)
  | .ldw => .ldw (rdOf w) (raOf w) (immOf w)
  | .stw => .stw (rdOf w) (raOf w) (immOf w)
  | .wipe => .wipe (raOf w) (rbOf w)
  | .gfadd => .gfadd (rdOf w) (raOf w) (rbOf w)
  | .gfsub => .gfsub (rdOf w) (raOf w) (rbOf w)
  | .gfmul => .gfmul (rdOf w) (raOf w) (rbOf w)
  | .gfinv => .gfinv (rdOf w) (raOf w)
  | .gfdiv => .gfdiv (rdOf w) (raOf w) (rbOf w)
  | .gfvalid => .gfvalid (rdOf w) (raOf w)
  | .peval => .peval (rdOf w) (raOf w) (rbOf w) (rcOf w)
  | .pvalid => .pvalid (rdOf w) (raOf w) (rbOf w)
  | .genpoly => .genpoly (raOf w) (rbOf w) (rcOf w)
  | .genpts => .genpts (raOf w) (rbOf w)
  | .lagr => .lagr (rdOf w) (raOf w) (rbOf w) (rcOf w) (reOf w)
  | .recon => .recon (rdOf w) (raOf w) (rbOf w) (rcOf w)
  | .brecon => .brecon (raOf w) (rbOf w) (rcOf w) (reOf w)
  | .rndb => .rndb (rdOf w)
  | .rndnz => .rndnz (rdOf w)
  | .rndint => .rndint (rdOf w) (raOf w)
  | .rndfill => .rndfill (raOf w) (rbOf w)
  | .rnduniq => .rnduniq (raOf w) (rbOf w) (rcOf w)
  | .rndclr => .rndclr
  | .rndseed => .rndseed

/-- Why a word is illegal (R95, R96). -/
inductive Illegal where
  /-- The opcode is one of the 231 that R94 does not assign. -/
  | unassignedOpcode (op : Nat)
  /-- A register field the command does not use, or `z`, is not 0. -/
  | unusedFieldNotZero (mnemonic : String)
deriving DecidableEq, Repr

/-- `Decode(W)` of R95, total on any 32-bit word. -/
def decode (w : Word) : Except Illegal Instr :=
  match Opcode.ofNumber (bitsOf w 31 24) with
  | none => .error (.unassignedOpcode (bitsOf w 31 24))
  | some o => if unusedZero o.row w then .ok (o.instr w) else .error (.unusedFieldNotZero o.row.name)

/-- Format R of R91 with `z` = 0. -/
def formatR (op : Nat) (rd ra rb rc re : RegNum) : Word :=
  BitVec.ofNat 32 (op * 2 ^ 24 + rd.val * 2 ^ 20 + ra.val * 2 ^ 16 + rb.val * 2 ^ 12 + rc.val * 2 ^ 8 + re.val * 2 ^ 4)

/-- Format I of R92: `imm16` is the immediate's low 16 bits (R93). -/
def formatI (op : Nat) (rd ra : RegNum) (imm : Int) : Word :=
  BitVec.ofNat 32 (op * 2 ^ 24 + rd.val * 2 ^ 20 + ra.val * 2 ^ 16 + (BitVec.ofInt 16 imm).toNat)

/-- The word of a command (R91 to R94). -/
def encode : Instr → Word
  | .li rd imm => formatI (Opcode.li).row.op rd 0 imm
  | .mov rd ra => formatR (Opcode.mov).row.op rd ra 0 0 0
  | .ldw rd ra imm => formatI (Opcode.ldw).row.op rd ra imm
  | .stw rd ra imm => formatI (Opcode.stw).row.op rd ra imm
  | .wipe ra rb => formatR (Opcode.wipe).row.op 0 ra rb 0 0
  | .gfadd rd ra rb => formatR (Opcode.gfadd).row.op rd ra rb 0 0
  | .gfsub rd ra rb => formatR (Opcode.gfsub).row.op rd ra rb 0 0
  | .gfmul rd ra rb => formatR (Opcode.gfmul).row.op rd ra rb 0 0
  | .gfinv rd ra => formatR (Opcode.gfinv).row.op rd ra 0 0 0
  | .gfdiv rd ra rb => formatR (Opcode.gfdiv).row.op rd ra rb 0 0
  | .gfvalid rd ra => formatR (Opcode.gfvalid).row.op rd ra 0 0 0
  | .peval rd ra rb rc => formatR (Opcode.peval).row.op rd ra rb rc 0
  | .pvalid rd ra rb => formatR (Opcode.pvalid).row.op rd ra rb 0 0
  | .genpoly ra rb rc => formatR (Opcode.genpoly).row.op 0 ra rb rc 0
  | .genpts ra rb => formatR (Opcode.genpts).row.op 0 ra rb 0 0
  | .lagr rd ra rb rc re => formatR (Opcode.lagr).row.op rd ra rb rc re
  | .recon rd ra rb rc => formatR (Opcode.recon).row.op rd ra rb rc 0
  | .brecon ra rb rc re => formatR (Opcode.brecon).row.op 0 ra rb rc re
  | .rndb rd => formatR (Opcode.rndb).row.op rd 0 0 0 0
  | .rndnz rd => formatR (Opcode.rndnz).row.op rd 0 0 0 0
  | .rndint rd ra => formatR (Opcode.rndint).row.op rd ra 0 0 0
  | .rndfill ra rb => formatR (Opcode.rndfill).row.op 0 ra rb 0 0
  | .rnduniq ra rb rc => formatR (Opcode.rnduniq).row.op 0 ra rb rc 0
  | .rndclr => formatR (Opcode.rndclr).row.op 0 0 0 0 0
  | .rndseed => formatR (Opcode.rndseed).row.op 0 0 0 0 0

/-- The opcode a command belongs to. -/
def Instr.opcode : Instr → Opcode
  | .li _ _ => .li
  | .mov _ _ => .mov
  | .ldw _ _ _ => .ldw
  | .stw _ _ _ => .stw
  | .wipe _ _ => .wipe
  | .gfadd _ _ _ => .gfadd
  | .gfsub _ _ _ => .gfsub
  | .gfmul _ _ _ => .gfmul
  | .gfinv _ _ => .gfinv
  | .gfdiv _ _ _ => .gfdiv
  | .gfvalid _ _ => .gfvalid
  | .peval _ _ _ _ => .peval
  | .pvalid _ _ _ => .pvalid
  | .genpoly _ _ _ => .genpoly
  | .genpts _ _ => .genpts
  | .lagr _ _ _ _ _ => .lagr
  | .recon _ _ _ _ => .recon
  | .brecon _ _ _ _ => .brecon
  | .rndb _ => .rndb
  | .rndnz _ => .rndnz
  | .rndint _ _ => .rndint
  | .rndfill _ _ => .rndfill
  | .rnduniq _ _ _ => .rnduniq
  | .rndclr => .rndclr
  | .rndseed => .rndseed

/-- The decoder on an instruction numbered as spec/opcode_table.json numbers its bits: every row is one 32-bit word
(R90), so the word is taken by value and nothing follows it. -/
def decodeTableWord (nbits w : Nat) : Option Instr :=
  match decode (BitVec.ofNat 32 (w % 2 ^ nbits)) with
  | .ok i => some i
  | .error _ => none

end Sys2Proof
end

