-- ==== Sys2Proof/Machine/Ops.lean ====
section
/-! DEFINITION. The named operations over the state: registers and scratchpad (10_state.md R20, R39), completing a
command and taking a fault (60_exceptions.md R267, R268), the lock (R269), the return from a fault (R272) and the reset
event (70_reset_and_hazards.md R300). -/

namespace Sys2Proof.Machine

/-- `g[i]` (00_scope.md R10). -/
def State.readG (s : State) (i : RegNum) : Word := s.g[i]

/-- `g[i] <- v` (R10). -/
def State.writeG (s : State) (i : RegNum) (v : Word) : State := { s with g := s.g.set i v }

/-- The word at index `a` of a scratchpad; a word that is not listed is 0 (R39). -/
def Spm.read : Spm → Nat → Word
  | [], _ => 0
  | (k, v) :: rest, a => if k = a then v else Spm.read rest a

/-- A scratchpad with the word at index `a` set to `v`, in canonical form: rising indexes, no zero listed. -/
def Spm.write : Spm → Nat → Word → Spm
  | [], a, v => if v = 0 then [] else [(a, v)]
  | (k, u) :: rest, a, v =>
    if a < k then (if v = 0 then (k, u) :: rest else (a, v) :: (k, u) :: rest)
    else if a = k then (if v = 0 then rest else (a, v) :: rest)
    else (k, u) :: Spm.write rest a v

/-- `MemWrite` of a list of words from index `a` upward (R10). -/
def Spm.writeList : Spm → Nat → List Word → Spm
  | m, _, [] => m
  | m, a, v :: vs => Spm.writeList (Spm.write m a v) (a + 1) vs

/-- The canonical form: the indexes rise strictly and no listed word is 0 (what an unlisted word reads as). -/
def Spm.wf : Spm → Bool
  | [] => true
  | [(_, v)] => v != 0
  | (k, v) :: (k', v') :: rest => decide (k < k') && v != 0 && Spm.wf ((k', v') :: rest)

/-- Every listed word lies in the scratchpad, index below SPM_WORDS (R39). -/
def Spm.inRange (m : Spm) : Bool := m.all (fun c => decide (c.1 < Config.spmWords))

/-- `SPM[a]` (R10). -/
def State.readSpm (s : State) (a : Nat) : Word := s.spm.read a

/-- `SPM[a] <- v` (R10). -/
def State.writeSpm (s : State) (a : Nat) (v : Word) : State := { s with spm := s.spm.write a v }

/-- `MemRead(a, n)` (R10). -/
def State.memRead (s : State) (a n : Nat) : List Word := (List.range n).map (fun i => s.readSpm (a + i))

/-- `MemWrite(a, n, L)` (R10). -/
def State.memWrite (s : State) (a : Nat) (vs : List Word) : State := { s with spm := s.spm.writeList a vs }

/-- The causes of a fault (R262). The three that only host procedures raise are never raised by the block. -/
inductive Cause where
  | invalidArgument | invalidElement | invalidShare | invalidSecret | invalidThreshold | thresholdExceedsField
  | duplicateXCoordinate | insufficientShares | insufficientShareSets | inconsistentMetadata
  | shareAuthenticationFailed | divisionByZero | emptyInput | emptyShares | illegalCommand | addressFault
deriving DecidableEq, Repr

/-- The cause codes (R262). -/
def Cause.code : Cause → BitVec 5
  | .invalidArgument => 1
  | .invalidElement => 2
  | .invalidShare => 3
  | .invalidSecret => 4
  | .invalidThreshold => 5
  | .thresholdExceedsField => 6
  | .duplicateXCoordinate => 7
  | .insufficientShares => 8
  | .insufficientShareSets => 9
  | .inconsistentMetadata => 10
  | .shareAuthenticationFailed => 11
  | .divisionByZero => 12
  | .emptyInput => 13
  | .emptyShares => 14
  | .illegalCommand => 15
  | .addressFault => 16

/-- `raise <Fault>(idx, grp)` (R10): a cause with its two information values. -/
structure Raise where
  cause : Cause
  idx : Word
  grp : Word
deriving DecidableEq, Repr

/-- `raise <Fault>(idx)` in group 0 (R10). -/
def raise (c : Cause) (idx : Word) : Raise := ⟨c, idx, 0⟩

/-- Fault entry (R267): the accepted command word `w` raises `f`. One indivisible step; nothing else changes. -/
def State.faultEntry (s : State) (w : Word) (f : Raise) : State :=
  { s with
    fcause := f.cause.code
    fcmd := w
    fidx := f.idx
    fgrp := f.grp
    fseq := s.cmdcnt
    cmdcnt := s.cmdcnt + 1
    faultFlag := true }

/-- Completion (R268): the results are written; the command is counted, modulo 2^32. -/
def State.complete (s : State) : State := { s with cmdcnt := s.cmdcnt + 1 }

/-- A dropped command (R269): the only effect is `STATUS.DROP <- 1`. -/
def State.drop (s : State) : State := { s with dropFlag := true }

/-- The return from a fault: what a write to FCLR with bit 0 = 1 does (R33, R272). -/
def State.clearFault (s : State) : State :=
  { s with
    faultFlag := false
    dropFlag := false
    fcause := 0
    fcmd := 0
    fidx := 0
    fgrp := 0
    fseq := 0 }

/-- The reset event (R300): every piece of the block's state at its reset value, a command in progress abandoned; the
host's queue and the entropy source are not the block's and are not touched (log entry 7). -/
def State.applyReset (s : State) : State :=
  { State.reset with bus := s.bus, entropy := s.entropy, drawn := s.drawn }

/-- How a command `i` accepted in state `s` ends once its rule's checks are made: it completes with the state its rule
gives (R268), or faults with nothing changed but the record (R267). FCMD holds the command word as the host wrote it,
which is `encode i`: a command has one encoding (R90 to R96; log entry 8). -/
def finish (i : Instr) (s : State) : Except Raise State → Outcome
  | .ok t => .next t.complete
  | .error f => .next (s.faultEntry (encode i) f)

end Sys2Proof.Machine
end

