-- ==== Sys2Proof/Machine/FieldArith.lean ====
section
/-! DEFINITION. Field arithmetic: GFADD, GFSUB, GFMUL, GFINV, GFDIV, GFVALID (41_field_arithmetic.md R150 to R155). -/

namespace Sys2Proof.Machine

/-- The two checks of R150 to R154 on register operands, then the result `f` of the two elements: InvalidElement with
index 0 for `g[ra]`, 1 for `g[rb]`. -/
def fieldBinary (s : State) (rd ra rb : RegNum) (f : Byte → Byte → Except Raise Byte) : Except Raise State :=
  if isElem (s.readG ra) = false then .error (raise .invalidElement 0)
  else if isElem (s.readG rb) = false then .error (raise .invalidElement 1)
  else
    match f (lowByte (s.readG ra)) (lowByte (s.readG rb)) with
    | .ok v => .ok (s.writeG rd (zextByte v))
    | .error e => .error e

/-- GFADD (R150): `a XOR b`. -/
def execGfadd (rd ra rb : RegNum) (s : State) : Outcome :=
  finish (.gfadd rd ra rb) s (fieldBinary s rd ra rb (fun a b => .ok (a ^^^ b)))

/-- GFSUB (R151): `a XOR b`, as GFADD. -/
def execGfsub (rd ra rb : RegNum) (s : State) : Outcome :=
  finish (.gfsub rd ra rb) s (fieldBinary s rd ra rb (fun a b => .ok (a ^^^ b)))

/-- GFMUL (R152): `GFMul(a, b)`. -/
def execGfmul (rd ra rb : RegNum) (s : State) : Outcome :=
  finish (.gfmul rd ra rb) s (fieldBinary s rd ra rb (fun a b => .ok (gfMul a b)))

/-- GFINV (R153): InvalidElement, DivisionByZero for 0, else `GFInv(a)`. -/
def execGfinv (rd ra : RegNum) (s : State) : Outcome :=
  finish (.gfinv rd ra) s <|
    if isElem (s.readG ra) = false then .error (raise .invalidElement 0)
    else if s.readG ra = 0 then .error (raise .divisionByZero 0)
    else .ok (s.writeG rd (zextByte (gfInv (lowByte (s.readG ra)))))

/-- GFDIV (R154): DivisionByZero for b = 0, else `GFDiv(a, b)`. -/
def execGfdiv (rd ra rb : RegNum) (s : State) : Outcome :=
  finish (.gfdiv rd ra rb) s <|
    fieldBinary s rd ra rb (fun a b => if b = 0 then .error (raise .divisionByZero 0) else .ok (gfDiv a b))

/-- GFVALID (R155): 1 if the word is a valid element, else 0; it never faults. -/
def execGfvalid (rd ra : RegNum) (s : State) : Outcome :=
  finish (.gfvalid rd ra) s (.ok (s.writeG rd (truthWord (isElem (s.readG ra)))))

end Sys2Proof.Machine
end

