-- ==== Sys2Proof/Machine/Csprng.lean ====
section
/-! DEFINITION. The primitives of the CSPRNG (44_csprng.md R190 to R196) and the resampling loop of the commands that
draw until a test passes (70_reset_and_hazards.md R309). -/

namespace Sys2Proof.Machine

/-- `EntropyByte()` (R190): the next byte of the source, one the source was told to deliver if there is any left, else
a free value (log entry 5). It never fails. -/
def State.entropyByte (s : State) : Byte × State :=
  match s.entropy with
  | b :: rest => (b, { s with entropy := rest, drawn := s.drawn + 1 })
  | [] => (Config.entropyByte s.drawn, { s with drawn := s.drawn + 1 })

/-- `n` draws in order. -/
def State.draws : Nat → State → List Byte × State
  | 0, s => ([], s)
  | n + 1, s =>
    match s.entropyByte with
    | (b, t) =>
      match State.draws n t with
      | (bs, u) => (b :: bs, u)

/-- `Reseed()` (R193): POOL filled in ascending order with 256 draws, CUR 0, INIT 1. -/
def State.reseed (s : State) : State :=
  match s.draws 256 with
  | (bs, t) => { t with pool := bs, cur := 0, initFlag := true }

/-- Step 1 of R192: the array one place toward index 0, the first byte going to the end. -/
def rotatePool : List Byte → List Byte
  | [] => []
  | t :: rest => rest ++ [t]

/-- Step 2 of R192 from some index on: each byte XOR its neighbour XOR the carry, the new byte becoming the carry. The
last byte's neighbour is the already updated POOL[0], `first`. -/
def xorPass (first : Byte) : Byte → List Byte → List Byte
  | _, [] => []
  | carry, [x] => [x ^^^ first ^^^ carry]
  | carry, x :: y :: rest => (x ^^^ y ^^^ carry) :: xorPass first (x ^^^ y ^^^ carry) (y :: rest)

/-- Steps 1 and 2 of R192: `first` is the new POOL[0], the first two bytes of the rotated pool XOR the carry 0. -/
def stirPool (p : List Byte) : List Byte :=
  let r := rotatePool p
  xorPass (r.getD 0 0 ^^^ r.getD 1 0 ^^^ 0) 0 r

/-- `Mix()` (R192): the byte drawn first, the pool stirred, the byte folded in at CUR, CUR advanced modulo 256. -/
def State.mix (s : State) : State :=
  match s.entropyByte with
  | (e, t) =>
    let q := stirPool t.pool
    { t with pool := q.set t.cur.toNat (q.getD t.cur.toNat 0 ^^^ e), cur := t.cur + 1 }

/-- The lazy initialisation of R194: `Reseed()` if INIT = 0. -/
def State.ensureInit (s : State) : State := if s.initFlag then s else s.reseed

/-- `NextByte()` (R194): a fresh byte XOR the pool byte at the cursor, taken before the mix. -/
def State.nextByte (s : State) : Byte × State :=
  match s.ensureInit.entropyByte with
  | (f, t) => (f ^^^ t.pool.getD t.cur.toNat 0, t.mix)

/-- `n` successive `NextByte()` outputs. -/
def State.nextBytes : Nat → State → List Byte × State
  | 0, s => ([], s)
  | n + 1, s =>
    match s.nextByte with
    | (b, t) =>
      match State.nextBytes n t with
      | (bs, u) => (b :: bs, u)

/-- `limit` of R196: the largest multiple of `max` not above 256. -/
def rejectLimit (max : Nat) : Nat := 256 - 256 % max

/-- What one `NextByte()` output `b` gives a sampler: nothing where the loop's test rejects it, else the value
(R195: `b ≠ 0`; R196: `b < limit`, value `b mod max`). -/
def Sampler.accept : Sampler → Byte → Option Byte
  | .nonZero, b => if b = 0 then none else some b
  | .below max, b => if b.toNat < rejectLimit max then some (BitVec.ofNat 8 (b.toNat % max)) else none

/-- `S ∪ {v}` with `S` ascending and without repeats (R205, R221). -/
def insertValue (v : Byte) : List Byte → List Byte
  | [] => [v]
  | x :: xs => if v < x then v :: x :: xs else if v = x then x :: xs else x :: insertValue v xs

/-- A command in progress after one more `NextByte()` output. -/
def Pending.offer (p : Pending) (b : Byte) : Pending :=
  match p.sampler.accept b with
  | none => p
  | some v => { p with held := insertValue v p.held }

/-- The exit test of the loop: as many distinct values are held as the command asks for. -/
def Pending.done (p : Pending) : Bool := decide (p.goal ≤ p.held.length)

/-- The writes a resampling command makes when its loop ends. -/
def Pending.deliver (p : Pending) (s : State) : State :=
  match p.sink with
  | .reg rd => s.writeG rd (zextByte (p.held.headD 0))
  | .mem base lead => s.memWrite base ((lead ++ p.held).map zextByte)

/-- The resampling loop: draw until the exit test passes, then write and complete (R268). After `fuel` candidates the
command is left in progress, for the next step to go on with (R309; log entry 6). -/
def resample : Nat → Pending → State → State
  | 0, p, s =>
    if p.done then (p.deliver { s with pending := none }).complete else { s with pending := some p }
  | fuel + 1, p, s =>
    if p.done then (p.deliver { s with pending := none }).complete
    else
      match s.nextByte with
      | (b, t) => resample fuel (p.offer b) t

/-- A resampling command accepted in state `s` once its checks are made: it faults as `finish` says, or starts its
loop. -/
def finishResample (i : Instr) (s : State) : Except Raise (State × Pending) → Outcome
  | .ok (t, p) => .next (resample Config.candidatesPerStep p t)
  | .error f => .next (s.faultEntry (encode i) f)

end Sys2Proof.Machine
end

