-- ==== Sys2Proof/Machine/Generation.lean ====
section
/-! DEFINITION. Generation: GENPOLY and GENPTS (45_generation.md R220, R221). -/

namespace Sys2Proof.Machine

/-- GENPOLY (R220): its checks in the rule's order; c_0 is the secret, c_1 to c_{K−2} are `NextByte()` outputs, c_{K−1}
is a `NextNonZero()`; then the K coefficients are written. -/
def execGenpoly (ra rb rc : RegNum) (s : State) : Outcome :=
  let base := s.readG ra
  let secret := s.readG rb
  let K := sint (s.readG rc)
  finishResample (.genpoly ra rb rc) s <|
    if K < 2 then .error (raise .invalidThreshold 0)
    else if K > 256 then .error (raise .thresholdExceedsField 0)
    else if isElem secret = false then .error (raise .invalidSecret 0)
    else if rangeOk base K.toNat = false then .error (raise .addressFault 0)
    else
      match s.nextBytes (K.toNat - 2) with
      | (middle, t) => .ok (t, ⟨.nonZero, 1, [], .mem base.toNat (lowByte secret :: middle)⟩)

/-- GENPTS (R221): `n` distinct `NextNonZero()` results, written in ascending order. -/
def execGenpts (ra rb : RegNum) (s : State) : Outcome :=
  let base := s.readG ra
  let n := sint (s.readG rb)
  finishResample (.genpts ra rb) s <|
    if n < 1 ∨ n > 255 then .error (raise .invalidArgument 0)
    else if rangeOk base n.toNat = false then .error (raise .addressFault 0)
    else .ok (s, ⟨.nonZero, n.toNat, [], .mem base.toNat []⟩)

end Sys2Proof.Machine
end

