-- ==== Sys2Proof/Machine/Interpolation.lean ====
section
/-! DEFINITION. Interpolation and reconstruction: LAGR (43_lagrange.md R181), RECON and BRECON (46_reconstruction.md
R230 to R232). -/

namespace Sys2Proof.Machine

/-- The lowest index `j`, counted from `j0`, of a word that stands among the words before it (`seen` and the list's
own): the later of the first duplicate pair (R181, R230). -/
def firstDuplicate (seen : List Word) (j0 : Nat) : List Word → Option Nat
  | [] => none
  | x :: xs => if seen.contains x then some j0 else firstDuplicate (x :: seen) (j0 + 1) xs

/-- Points as field elements, once every word of both lists is a valid element. -/
def pointBytes (xs ys : List Word) : List (Byte × Byte) := (xs.map lowByte).zip (ys.map lowByte)

/-- The index of the first point of which x or y is not a valid element (R181). -/
def firstInvalidPoint (points : List (Word × Word)) : Option Nat :=
  points.findIdx? (fun p => !isElem p.1 || !isElem p.2)

/-- LAGR (R181), its checks in the rule's order. -/
def execLagr (rd ra rb rc re : RegNum) (s : State) : Outcome :=
  let xb := s.readG ra
  let nx := sint (s.readG rb)
  let yb := s.readG rc
  let ny := sint (s.readG re)
  let xs := s.memRead xb.toNat nx.toNat
  let ys := s.memRead yb.toNat ny.toNat
  finish (.lagr rd ra rb rc re) s <|
    if nx < 0 ∨ ny < 0 then .error (raise .invalidArgument 0)
    else if nx = 0 ∨ ny = 0 ∨ nx ≠ ny then .error (raise .emptyInput 0)
    else if rangeOk xb nx.toNat = false then .error (raise .addressFault 0)
    else if rangeOk yb ny.toNat = false then .error (raise .addressFault 0)
    else
      match firstInvalidPoint (xs.zip ys) with
      | some i => .error (raise .invalidElement (indexWord i))
      | none =>
        match firstDuplicate [] 0 xs with
        | some j => .error (raise .duplicateXCoordinate (indexWord j))
        | none => .ok (s.writeG rd (zextByte (lagrange0 (pointBytes xs ys))))

/-- The index of the first share that fails its validity check: x and y valid elements, x ≠ 0 (R230). -/
def firstInvalidShare (shares : List (Word × Word)) : Option Nat :=
  shares.findIdx? (fun p => !isElem p.1 || !isElem p.2 || p.1 == 0)

/-- The x words of a share array: `SPM[base + 2i]` (20_memory.md R69). -/
def State.shareXs (s : State) (base n : Nat) : List Word := (List.range n).map (fun i => s.readSpm (base + 2 * i))

/-- The y words of a share array: `SPM[base + 2i + 1]` (R69). -/
def State.shareYs (s : State) (base n : Nat) : List Word := (List.range n).map (fun i => s.readSpm (base + 2 * i + 1))

/-- `Recon(base, n, K, grp)` (R230), its six checks in order. -/
def State.recon (s : State) (base : Word) (n K : Int) (grp : Nat) : Except Raise Byte :=
  let xs := s.shareXs base.toNat n.toNat
  let ys := s.shareYs base.toNat n.toNat
  if n < 0 then .error ⟨.invalidArgument, 0, indexWord grp⟩
  else if n = 0 then .error ⟨.emptyShares, 0, indexWord grp⟩
  else if n < K then .error ⟨.insufficientShares, 0, indexWord grp⟩
  else if rangeOk base (2 * n.toNat) = false then .error ⟨.addressFault, 0, indexWord grp⟩
  else
    match firstInvalidShare (xs.zip ys) with
    | some i => .error ⟨.invalidShare, indexWord i, indexWord grp⟩
    | none =>
      match firstDuplicate [] 0 xs with
      | some j => .error ⟨.duplicateXCoordinate, indexWord j, indexWord grp⟩
      | none => .ok (lagrange0 (pointBytes xs ys))

/-- RECON (R231): `Recon` with group 0, the result zero-extended to `g[rd]`. -/
def execRecon (rd ra rb rc : RegNum) (s : State) : Outcome :=
  finish (.recon rd ra rb rc) s <|
    match s.recon (s.readG ra) (sint (s.readG rb)) (sint (s.readG rc)) 0 with
    | .ok v => .ok (s.writeG rd (zextByte v))
    | .error f => .error f

/-- The groups of R232 in ascending order, each by its descriptor (R70); the first fault ends them. -/
def State.reconGroups (s : State) (db : Nat) (K : Int) : List Nat → Except Raise (List Byte)
  | [] => .ok []
  | grp :: rest =>
    match s.recon (s.readSpm (db + 2 * grp)) (sint (s.readSpm (db + 2 * grp + 1))) K grp with
    | .error f => .error f
    | .ok v =>
      match s.reconGroups db K rest with
      | .error f => .error f
      | .ok vs => .ok (v :: vs)

/-- BRECON (R232): all results are computed before any is written (R72). -/
def execBrecon (ra rb rc re : RegNum) (s : State) : Outcome :=
  let db := s.readG ra
  let G := sint (s.readG rb)
  let K := sint (s.readG rc)
  let ob := s.readG re
  finish (.brecon ra rb rc re) s <|
    if G ≤ 0 then .error (raise .invalidArgument 0)
    else if rangeOk db (2 * G.toNat) = false then .error (raise .addressFault 0)
    else if rangeOk ob G.toNat = false then .error (raise .addressFault 0)
    else
      match s.reconGroups db.toNat K (List.range G.toNat) with
      | .error f => .error f
      | .ok out => .ok (s.memWrite ob.toNat (out.map zextByte))

end Sys2Proof.Machine
end

