-- ==== Sys2Proof/Machine/Movement.lean ====
section
/-! DEFINITION. Operand movement: LI, MOV, LDW, STW, WIPE (40_data_movement.md R120 to R124). -/

namespace Sys2Proof.Machine

/-- LI (R120): `g[rd] <- sext_32(imm16)`. -/
def execLi (rd : RegNum) (imm : Int) (s : State) : Outcome :=
  finish (.li rd imm) s (.ok (s.writeG rd (sextImm imm)))

/-- MOV (R121): `g[rd] <- g[ra]`. -/
def execMov (rd ra : RegNum) (s : State) : Outcome :=
  finish (.mov rd ra) s (.ok (s.writeG rd (s.readG ra)))

/-- LDW (R122): AddressFault, or `g[rd] <- SPM[addr]`. -/
def execLdw (rd ra : RegNum) (imm : Int) (s : State) : Outcome :=
  let addr := (wordAddr (s.readG ra) imm).toNat
  finish (.ldw rd ra imm) s <|
    if addr ≥ Config.spmWords then .error (raise .addressFault 0)
    else .ok (s.writeG rd (s.readSpm addr))

/-- STW (R123): AddressFault, or `SPM[addr] <- g[rd]`. -/
def execStw (rd ra : RegNum) (imm : Int) (s : State) : Outcome :=
  let addr := (wordAddr (s.readG ra) imm).toNat
  finish (.stw rd ra imm) s <|
    if addr ≥ Config.spmWords then .error (raise .addressFault 0)
    else .ok (s.writeSpm addr (s.readG rd))

/-- WIPE (R124): InvalidArgument, AddressFault, or `n` words of zero from the base. -/
def execWipe (ra rb : RegNum) (s : State) : Outcome :=
  let base := s.readG ra
  let n := sint (s.readG rb)
  finish (.wipe ra rb) s <|
    if n ≤ 0 then .error (raise .invalidArgument 0)
    else if rangeOk base n.toNat = false then .error (raise .addressFault 0)
    else .ok (s.memWrite base.toNat (List.replicate n.toNat 0))

end Sys2Proof.Machine
end

