-- ==== Sys2Proof/Machine/Polynomial.lean ====
section
/-! DEFINITION. Polynomial evaluation and the coefficient test: PEVAL (42_polynomial_eval.md R171), PVALID
(45_generation.md R222). -/

namespace Sys2Proof.Machine

/-- The count and range checks PEVAL and PVALID begin with: InvalidArgument unless 1 ≤ n ≤ 256 (MAX_COEFFS, R8), then
AddressFault unless the array fits. -/
def coeffChecks (base : Word) (n : Int) : Option Raise :=
  if n ≤ 0 ∨ n > 256 then some (raise .invalidArgument 0)
  else if rangeOk base n.toNat = false then some (raise .addressFault 0)
  else none

/-- The index of the first word of a list that is not a valid element. -/
def firstInvalid (c : List Word) : Option Nat := c.findIdx? (fun v => !isElem v)

/-- PEVAL (R171): after the count and range checks, x, then the coefficients from the lowest index. This is the order of
R171's pseudocode and of its "Faults, in this order", which decides by the first sentence of 60_exceptions.md R265 ("in the
order the command's pseudocode makes them"); the general order that R265 and D12 go on to describe would put x, a scalar
field element, before AddressFault. -/
def execPeval (rd ra rb rc : RegNum) (s : State) : Outcome :=
  let base := s.readG ra
  let n := sint (s.readG rb)
  let x := s.readG rc
  let c := s.memRead base.toNat n.toNat
  finish (.peval rd ra rb rc) s <|
    match coeffChecks base n with
    | some f => .error f
    | none =>
      if isElem x = false then .error (raise .invalidElement 0xFFFFFFFF)
      else
        match firstInvalid c with
        | some i => .error (raise .invalidElement (indexWord i))
        | none => .ok (s.writeG rd (zextByte (horner (c.map lowByte) (lowByte x))))

/-- The test of R222 on a coefficient array: every item is a valid element, and the last is not 0 unless it is the
only one. -/
def validCoeffs (c : List Word) : Bool :=
  c.all isElem && (c.length == 1 || c.getLastD 0 != 0)

/-- PVALID (R222): after the count and range checks, 1 or 0. -/
def execPvalid (rd ra rb : RegNum) (s : State) : Outcome :=
  let base := s.readG ra
  let n := sint (s.readG rb)
  finish (.pvalid rd ra rb) s <|
    match coeffChecks base n with
    | some f => .error f
    | none => .ok (s.writeG rd (truthWord (validCoeffs (s.memRead base.toNat n.toNat))))

end Sys2Proof.Machine
end

