-- ==== Sys2Proof/Machine/Random.lean ====
section
/-! DEFINITION. The CSPRNG commands: RNDB, RNDNZ, RNDINT, RNDFILL, RNDUNIQ, RNDCLR, RNDSEED (44_csprng.md R200 to
R207). Every check precedes every draw (60_exceptions.md R267). -/

namespace Sys2Proof.Machine

/-- RNDB (R200): `g[rd] <- zext_32(NextByte())`. -/
def execRndb (rd : RegNum) (s : State) : Outcome :=
  finish (.rndb rd) s <|
    match s.nextByte with
    | (b, t) => .ok (t.writeG rd (zextByte b))

/-- RNDNZ (R201): `g[rd] <- zext_32(NextNonZero())`. -/
def execRndnz (rd : RegNum) (s : State) : Outcome :=
  finishResample (.rndnz rd) s (.ok (s, ⟨.nonZero, 1, [], .reg rd⟩))

/-- RNDINT (R203): InvalidArgument unless 1 ≤ max ≤ 256, else `g[rd] <- zext_32(NextInt(max))`. -/
def execRndint (rd ra : RegNum) (s : State) : Outcome :=
  let max := sint (s.readG ra)
  finishResample (.rndint rd ra) s <|
    if max ≤ 0 ∨ max > 256 then .error (raise .invalidArgument 0)
    else .ok (s, ⟨.below max.toNat, 1, [], .reg rd⟩)

/-- RNDFILL (R204): `n` bytes drawn first, then written, one a word. -/
def execRndfill (ra rb : RegNum) (s : State) : Outcome :=
  let base := s.readG ra
  let n := sint (s.readG rb)
  finish (.rndfill ra rb) s <|
    if n ≤ 0 then .error (raise .invalidArgument 0)
    else if rangeOk base n.toNat = false then .error (raise .addressFault 0)
    else
      match s.nextBytes n.toNat with
      | (out, t) => .ok (t.memWrite base.toNat (out.map zextByte))

/-- RNDUNIQ (R205): its checks in the rule's order; a count of 0 or less completes at once, writing and drawing
nothing. `S ∪ {NextInt(max)}` is the loop with the sampler of `NextInt(max)` (log entry 13). -/
def execRnduniq (ra rb rc : RegNum) (s : State) : Outcome :=
  let base := s.readG ra
  let count := sint (s.readG rb)
  let max := sint (s.readG rc)
  if count ≤ max ∧ count ≤ 0 then finish (.rnduniq ra rb rc) s (.ok s)
  else
    finishResample (.rnduniq ra rb rc) s <|
      if count > max then .error (raise .invalidArgument 0)
      else if max > 256 then .error (raise .invalidArgument 1)
      else if rangeOk base count.toNat = false then .error (raise .addressFault 0)
      else .ok (s, ⟨.below max.toNat, count.toNat, [], .mem base.toNat []⟩)

/-- RNDCLR (R206): POOL zeroed, CUR 0, INIT 0. -/
def execRndclr (s : State) : Outcome :=
  finish .rndclr s (.ok { s with pool := List.replicate 256 0, cur := 0, initFlag := false })

/-- RNDSEED (R207): `Reseed()`, whatever INIT was. -/
def execRndseed (s : State) : Outcome :=
  finish .rndseed s (.ok s.reseed)

end Sys2Proof.Machine
end

