-- ==== Sys2Proof/Machine/Dispatch.lean ====
section
/-! DEFINITION. The dispatch: one arm per command (30_encoding.md R94). `exec i s` runs a command that has been accepted
in state `s` (60_exceptions.md R266); the lock and the decoder are in Machine/Port.lean. -/

namespace Sys2Proof.Machine

def exec (i : Instr) (s : State) : Host.Outcome State Fault Refusal :=
  match i with
  | .li rd imm => Sys2Proof.Machine.execLi rd imm s
  | .mov rd ra => Sys2Proof.Machine.execMov rd ra s
  | .ldw rd ra imm => Sys2Proof.Machine.execLdw rd ra imm s
  | .stw rd ra imm => Sys2Proof.Machine.execStw rd ra imm s
  | .wipe ra rb => Sys2Proof.Machine.execWipe ra rb s
  | .gfadd rd ra rb => Sys2Proof.Machine.execGfadd rd ra rb s
  | .gfsub rd ra rb => Sys2Proof.Machine.execGfsub rd ra rb s
  | .gfmul rd ra rb => Sys2Proof.Machine.execGfmul rd ra rb s
  | .gfinv rd ra => Sys2Proof.Machine.execGfinv rd ra s
  | .gfdiv rd ra rb => Sys2Proof.Machine.execGfdiv rd ra rb s
  | .gfvalid rd ra => Sys2Proof.Machine.execGfvalid rd ra s
  | .peval rd ra rb rc => Sys2Proof.Machine.execPeval rd ra rb rc s
  | .pvalid rd ra rb => Sys2Proof.Machine.execPvalid rd ra rb s
  | .genpoly ra rb rc => Sys2Proof.Machine.execGenpoly ra rb rc s
  | .genpts ra rb => Sys2Proof.Machine.execGenpts ra rb s
  | .lagr rd ra rb rc re => Sys2Proof.Machine.execLagr rd ra rb rc re s
  | .recon rd ra rb rc => Sys2Proof.Machine.execRecon rd ra rb rc s
  | .brecon ra rb rc re => Sys2Proof.Machine.execBrecon ra rb rc re s
  | .rndb rd => Sys2Proof.Machine.execRndb rd s
  | .rndnz rd => Sys2Proof.Machine.execRndnz rd s
  | .rndint rd ra => Sys2Proof.Machine.execRndint rd ra s
  | .rndfill ra rb => Sys2Proof.Machine.execRndfill ra rb s
  | .rnduniq ra rb rc => Sys2Proof.Machine.execRnduniq ra rb rc s
  | .rndclr => Sys2Proof.Machine.execRndclr s
  | .rndseed => Sys2Proof.Machine.execRndseed s

end Sys2Proof.Machine
end

