-- ==== Sys2Proof/Machine/Port.lean ====
section
/-! DEFINITION. The host's side of the block: the register window (10_state.md R40), the command port (60_exceptions.md
R266, R269), one host access, and what one step does (20_memory.md R74, R75). -/

namespace Sys2Proof.Machine

/-- What a 32-bit read at a byte offset of the window returns (R40): write-only registers and unmapped offsets read
0. -/
def State.busRead (s : State) (offset : Nat) : Word :=
  if offset = 0x0004 then s.status
  else if offset = 0x0008 then s.ctrl
  else if offset = 0x000C then s.fcause.setWidth 32
  else if offset = 0x0010 then s.fcmd
  else if offset = 0x0014 then s.fidx
  else if offset = 0x0018 then s.fgrp
  else if offset = 0x001C then s.fseq
  else if offset = 0x0024 then s.cmdcnt
  else if 0x0040 ≤ offset ∧ offset < 0x0080 then s.readG (regOf ((offset - 0x0040) / 4))
  else if 0x4000 ≤ offset ∧ offset < 0x4000 + 4 * Config.spmWords then s.readSpm ((offset - 0x4000) / 4)
  else 0

/-- What a 32-bit write at a byte offset other than CMD's does (R40): CTRL keeps bit 0 (R27), FCLR acts when bit 0 is
1 (R33), general registers and the scratchpad store the value (R65), every other offset ignores it. -/
def State.busWrite (s : State) (offset : Nat) (v : Word) : State :=
  if offset = 0x0008 then { s with fie := v.getLsbD 0 }
  else if offset = 0x0020 then (if v.getLsbD 0 then s.clearFault else s)
  else if 0x0040 ≤ offset ∧ offset < 0x0080 then s.writeG (regOf ((offset - 0x0040) / 4)) v
  else if 0x4000 ≤ offset ∧ offset < 0x4000 + 4 * Config.spmWords then s.writeSpm ((offset - 0x4000) / 4) v
  else s

/-- Acceptance of a word written to CMD (R266): dropped under the lock (R269), else decoded; an illegal word raises
IllegalCommand (30_encoding.md R96), a legal one is executed. -/
def issue (w : Word) (s : State) : Outcome :=
  if s.faultFlag then .next s.drop
  else
    match decode w with
    | .error _ => .next (s.faultEntry w (raise .illegalCommand 0))
    | .ok i => exec i s

/-- The two refusals of R63: an access narrower than 32 bits, or at an offset that is no multiple of 4. -/
def accessRefusal (width : Width) (offset : Nat) : Option Refusal :=
  if width ≠ .word then some .narrowAccess
  else if offset % 4 ≠ 0 then some .misalignedAccess
  else none

/-- One event of the host on a block in which no command is in progress (R74), the event already taken from the
queue. -/
def access (e : BusEvent) (s : State) : Outcome :=
  match e with
  | .reset => .next s.applyReset
  | .read width offset =>
    match accessRefusal width offset with
    | some r => .refused r
    | none => .next { s with readData := some (s.busRead offset) }
  | .write width offset v =>
    match accessRefusal width offset with
    | some r => .refused r
    | none =>
      if offset = 0x0000 then issue v { s with readData := none }
      else .next (State.busWrite { s with readData := none } offset v)

/-- What one step does. A command in progress goes on, and no access is accepted meanwhile (R75); only a reset that
stands next in the queue ends it (R300, R309; log entry 7). How many entropy bytes an abandoned command has taken, and so
which byte is the next, the spec leaves open ("no defined partial effect"): here a reset cuts a command only between two
steps, after a multiple of `Config.candidatesPerStep` candidates, and never one that ends in the step that accepts it
(DESIGN CHOICE, log entry 7). Else the oldest event of the queue is taken; with none the
block is idle (R281). -/
def advance (s : State) : Outcome :=
  match s.pending, s.bus with
  | some _, .reset :: rest => .next (State.applyReset { s with bus := rest })
  | some p, _ => .next (resample Config.candidatesPerStep p s)
  | none, e :: rest => access e { s with bus := rest }
  | none, [] => .next s

/-- The state with a command word standing where the next step takes it: next in the host's queue as a write to CMD,
with no fault pending and no command in progress, so that it is accepted (R266; log entry 3). -/
def State.placeCommand (s : State) (w : Word) : State :=
  { (if s.faultFlag then s.clearFault else s) with pending := none, bus := .write .word 0x0000 w :: s.bus }

end Sys2Proof.Machine
end

