-- ==== Sys2Proof/Machine/Step.lean ====
section
/-! DEFINITION. One step of the machine, and where it takes its next command from. -/

namespace Sys2Proof.Machine

/-- One step (00_scope.md R13, 20_memory.md R74): what the block does next, `advance` in Machine/Port.lean. -/
def step : State → Host.Outcome State Fault Refusal := advance

/-- The state in which the next step runs the command word `w`, as the host writing it to CMD (10_state.md R34). The
block fetches nothing (R24): a command is carried by value in a write to CMD, so the word is put next in the host's
queue (log entry 3). -/
def State.withFetchWord (s : State) (nbits w : Nat) : State := s.placeCommand (BitVec.ofNat 32 (w % 2 ^ nbits))

end Sys2Proof.Machine
end

