-- ==== Sys2Proof/Safety.lean ====
section
/-! DEFINITION. What claims about the block are stated in: the relations "nothing changed but …", the invariant every step
keeps, and what the host can see. -/

namespace Sys2Proof

/-- The commands that draw from the pool, or write it: those of 44_csprng.md and the two generators (R38). -/
def Instr.usesPool : Instr → Bool
  | .rndb _ | .rndnz _ | .rndint _ _ | .rndfill _ _ | .rnduniq _ _ _ | .rndclr | .rndseed | .genpoly _ _ _
  | .genpts _ _ => true
  | .li _ _ | .mov _ _ | .ldw _ _ _ | .stw _ _ _ | .wipe _ _ | .gfadd _ _ _ | .gfsub _ _ _ | .gfmul _ _ _
  | .gfinv _ _ | .gfdiv _ _ _ | .gfvalid _ _ | .peval _ _ _ _ | .pvalid _ _ _ | .lagr _ _ _ _ _ | .recon _ _ _ _
  | .brecon _ _ _ _ => false

/-- The one register a command may write, `g[rd]` (R22); STW's `rd` is a source (R92). -/
def Instr.dest : Instr → Option RegNum
  | .li rd _ | .mov rd _ | .ldw rd _ _ | .gfadd rd _ _ | .gfsub rd _ _ | .gfmul rd _ _ | .gfinv rd _ | .gfdiv rd _ _
  | .gfvalid rd _ | .peval rd _ _ _ | .pvalid rd _ _ | .lagr rd _ _ _ _ | .recon rd _ _ _ | .rndb rd | .rndnz rd
  | .rndint rd _ => some rd
  | .stw _ _ _ | .wipe _ _ | .genpoly _ _ _ | .genpts _ _ | .brecon _ _ _ _ | .rndfill _ _ | .rnduniq _ _ _ | .rndclr
  | .rndseed => none

/-- The commands that write the scratchpad (R123, R124, R204, R205, R220, R221, R232). -/
def Instr.stores : Instr → Bool
  | .stw _ _ _ | .wipe _ _ | .genpoly _ _ _ | .genpts _ _ | .brecon _ _ _ _ | .rndfill _ _ | .rnduniq _ _ _ => true
  | .li _ _ | .mov _ _ | .ldw _ _ _ | .gfadd _ _ _ | .gfsub _ _ _ | .gfmul _ _ _ | .gfinv _ _ | .gfdiv _ _ _
  | .gfvalid _ _ | .peval _ _ _ _ | .pvalid _ _ _ | .lagr _ _ _ _ _ | .recon _ _ _ _ | .rndb _ | .rndnz _
  | .rndint _ _ | .rndclr | .rndseed => false

/-- The commands with a resampling loop (R309). -/
def Instr.resamples : Instr → Bool
  | .rndnz _ | .rndint _ _ | .rnduniq _ _ _ | .genpoly _ _ _ | .genpts _ _ => true
  | .li _ _ | .mov _ _ | .ldw _ _ _ | .stw _ _ _ | .wipe _ _ | .gfadd _ _ _ | .gfsub _ _ _ | .gfmul _ _ _
  | .gfinv _ _ | .gfdiv _ _ _ | .gfvalid _ _ | .peval _ _ _ _ | .pvalid _ _ _ | .lagr _ _ _ _ _ | .recon _ _ _ _
  | .brecon _ _ _ _ | .rndb _ | .rndfill _ _ | .rndclr | .rndseed => false

end Sys2Proof

namespace Sys2Proof.Machine

/-- `t` is `s` but for the pool, its cursor, INIT and the entropy consumed: all that a draw can change (R192 to R194). -/
def State.SameButDraws (s t : State) : Prop :=
  t = { s with pool := t.pool, cur := t.cur, initFlag := t.initFlag, entropy := t.entropy, drawn := t.drawn }

/-- What is left of a state when the pool and its cursor, which no host access returns (R38), are struck out. -/
def State.hidePool (s : State) : State := { s with pool := [], cur := 0 }

/-- The "raised by" column of R262: the causes each command can raise once it has been decoded. -/
def raisedBy : Instr → List Cause
  | .li _ _ | .mov _ _ | .gfvalid _ _ | .rndb _ | .rndnz _ | .rndclr | .rndseed => []
  | .ldw _ _ _ | .stw _ _ _ => [.addressFault]
  | .gfadd _ _ _ | .gfsub _ _ _ | .gfmul _ _ _ => [.invalidElement]
  | .gfinv _ _ | .gfdiv _ _ _ => [.invalidElement, .divisionByZero]
  | .wipe _ _ | .pvalid _ _ _ | .genpts _ _ | .rndfill _ _ | .rnduniq _ _ _ => [.invalidArgument, .addressFault]
  | .rndint _ _ => [.invalidArgument]
  | .peval _ _ _ _ => [.invalidArgument, .addressFault, .invalidElement]
  | .genpoly _ _ _ => [.invalidThreshold, .thresholdExceedsField, .invalidSecret, .addressFault]
  | .lagr _ _ _ _ _ => [.invalidArgument, .emptyInput, .addressFault, .invalidElement, .duplicateXCoordinate]
  | .recon _ _ _ _ | .brecon _ _ _ _ =>
    [.invalidArgument, .emptyShares, .insufficientShares, .addressFault, .invalidShare, .duplicateXCoordinate]

/-- The codes FCAUSE can hold while a fault is pending: 1 to 8 and 12 to 16 (R262). -/
def raisedCode (c : BitVec 5) : Bool := decide ((1 ≤ c.toNat ∧ c.toNat ≤ 8) ∨ (12 ≤ c.toNat ∧ c.toNat ≤ 16))

/-- The scratchpad is in canonical form and inside its SPM_WORDS words (R39). -/
def State.spmOk (s : State) : Bool := s.spm.wf && s.spm.inRange

/-- The pool has its 256 bytes (R35), and before it is first filled, and after RNDCLR, all are 0 and so is the cursor
(R37, R43, R206). -/
def State.poolOk (s : State) : Bool :=
  s.pool.length == 256 && (s.initFlag || (s.pool.all (fun b => b == 0) && s.cur == 0))

/-- With no fault pending the fault record and DROP are clear; with one pending FCAUSE names a cause the block raises
(R26, R28 to R32, R262). -/
def State.recordOk (s : State) : Bool :=
  if s.faultFlag then raisedCode s.fcause
  else !s.dropFlag && s.fcause == 0 && s.fcmd == 0 && s.fidx == 0 && s.fgrp == 0 && s.fseq == 0

/-- The values a sampler can accept (R195, R196). -/
def Sampler.allows : Sampler → Byte → Bool
  | .nonZero, v => v != 0
  | .below max, v => decide (v.toNat < max)

/-- `NextInt(max)` is called with 1 ≤ max ≤ 256 only (R196). -/
def Sampler.ok : Sampler → Bool
  | .nonZero => true
  | .below max => decide (1 ≤ max ∧ max ≤ 256)

/-- A list of bytes rises strictly. -/
def ascending : List Byte → Bool
  | [] => true
  | [_] => true
  | x :: y :: rest => decide (x < y) && ascending (y :: rest)

/-- A command in progress holds fewer values than its goal, each once and acceptable, in ascending order, and its
result fits where it will be written (R205, R220, R221, R309). -/
def Pending.ok (p : Pending) : Bool :=
  p.sampler.ok && decide (p.held.length < p.goal) && ascending p.held && p.held.all p.sampler.allows &&
    match p.sink with
    | .reg _ => p.goal == 1
    | .mem base lead => decide (base + lead.length + p.goal ≤ Config.spmWords)

/-- A command can be in progress only with the pool filled and no fault pending (R194, R266). -/
def State.pendingOk (s : State) : Bool :=
  match s.pending with
  | none => true
  | some p => p.ok && s.initFlag && !s.faultFlag

/-- The invariant of the block. -/
def State.inv (s : State) : Bool := s.spmOk && s.poolOk && s.recordOk && s.pendingOk

/-- The host makes only the accesses the spec gives a meaning: 32 bits wide, at offsets that are multiples of 4
(R63). -/
def BusEvent.legal : BusEvent → Bool
  | .read width offset => width == .word && offset % 4 == 0
  | .write width offset _ => width == .word && offset % 4 == 0
  | .reset => true

/-- A run is safe for the model when every access left in the queue is legal: then no step is refused. -/
def State.legalHost (s : State) : Bool := s.bus.all BusEvent.legal

/-- The state in which a command in progress ends, found within `n` further steps, `none` if it has not ended by then
(R309). A state with no command in progress is one in which it has ended already. -/
def State.goOn : Nat → State → Option State
  | 0, s => if s.pending = none then some s else none
  | n + 1, s =>
    if s.pending = none then some s
    else
      match step s with
      | .next t => State.goOn n t
      | .fault _ => none
      | .refused _ => none

/-- The command `i`, accepted in state `s`, answers a next state and ends in `t`: in that very step, or after further
steps in which the block only goes on with it (R309; log entry 6). -/
def EndsIn (i : Instr) (s t : State) : Prop := ∃ u n, exec i s = .next u ∧ u.goOn n = some t

/-- Powers in the field: `x^n` as an n-fold product by GFMul (R144). -/
def gfPow (x : Byte) : Nat → Byte
  | 0 => 1
  | n + 1 => gfMul (gfPow x n) x

/-- `c_0·x^i + c_1·x^(i+1) + …` in the field, term by term (R170). -/
def polySum (x : Byte) : Nat → List Byte → Byte
  | _, [] => 0
  | i, c :: cs => gfMul c (gfPow x i) ^^^ polySum x (i + 1) cs

/-- The shares of a polynomial at the points `xs` (R233). -/
def sharesOf (cs xs : List Byte) : List (Byte × Byte) := xs.map (fun x => (x, horner cs x))

/-- Word `a` and after hold a share array with these points (R69). -/
def State.holdsShares (s : State) (a : Nat) : List (Byte × Byte) → Prop
  | [] => True
  | (x, y) :: rest => s.readSpm a = zextByte x ∧ s.readSpm (a + 1) = zextByte y ∧ s.holdsShares (a + 2) rest

end Sys2Proof.Machine
end

