-- ==== Sys2Proof/Certificates/Slice0/Obligations.lean ====
section
/-! DEFINITION. The statements made of the model. Each docstring names the rules of spec/ it formalises; where a statement
rests on a choice of the model's, the docstring names its log entry. In every statement about `step` the host's access is
the oldest one of the queue `bus`, which the step takes, and what a read returns is left in `readData`: that is the model's
form of R74's bus (log entries 3 and 4), not a rule of the spec. -/

open Sys2Proof Sys2Proof.Machine

/-! ## Encoding -/

/-- Every command is read back from its own word, with every operand (30_encoding.md R90 to R95). -/
def Obligations.DecodeOfEncode : Prop :=
  ∀ i : Instr, i.wellFormed = true → decode (encode i) = .ok i

/-- A word that decodes is the one word of its command, so the decoder drops no bit (R94, R95; log entry 8 rests on
it). -/
def Obligations.EncodeOfDecode : Prop :=
  ∀ (w : Word) (i : Instr), decode w = .ok i → i.wellFormed = true ∧ encode i = w

/-- R95: no opcode of the map, illegal; else the word is the opcode's command exactly where `W AND mask = match`. -/
def Obligations.DecodeFollowsMaskAndMatch : Prop :=
  (∀ w : Word, (∀ o : Opcode, o.row.op ≠ bitsOf w 31 24) → ∃ e, decode w = .error e) ∧
  (∀ (w : Word) (o : Opcode), o.row.op = bitsOf w 31 24 →
    (w &&& o.row.mask ≠ o.row.pattern → ∃ e, decode w = .error e) ∧
    (w &&& o.row.mask = o.row.pattern → decode w = .ok (o.instr w))) ∧
  (∀ o p : Opcode, o.row.op = p.row.op → o = p)

/-- The 25 words that the rules R120 to R232 write out, one for each command (in their examples; RNDCLR's and RNDSEED's in
the encodings of R206 and R207), are the commands they stand for. -/
def Obligations.ExampleWordsDecode : Prop :=
  decode 0x013000C8 = .ok (.li 3 200) ∧ decode 0x02210000 = .ok (.mov 2 1) ∧
  decode 0x03410002 = .ok (.ldw 4 1 2) ∧ decode 0x04510000 = .ok (.stw 5 1 0) ∧
  decode 0x05012000 = .ok (.wipe 1 2) ∧ decode 0x10312000 = .ok (.gfadd 3 1 2) ∧
  decode 0x11312000 = .ok (.gfsub 3 1 2) ∧ decode 0x12312000 = .ok (.gfmul 3 1 2) ∧
  decode 0x13310000 = .ok (.gfinv 3 1) ∧ decode 0x14312000 = .ok (.gfdiv 3 1 2) ∧
  decode 0x15310000 = .ok (.gfvalid 3 1) ∧
  decode 0x20412300 = .ok (.peval 4 1 2 3) ∧ decode 0x21413000 = .ok (.pvalid 4 1 3) ∧
  decode 0x22012300 = .ok (.genpoly 1 2 3) ∧ decode 0x23012000 = .ok (.genpts 1 2) ∧
  decode 0x30512340 = .ok (.lagr 5 1 2 3 4) ∧ decode 0x31512300 = .ok (.recon 5 1 2 3) ∧
  decode 0x32012340 = .ok (.brecon 1 2 3 4) ∧ decode 0x40300000 = .ok (.rndb 3) ∧
  decode 0x41300000 = .ok (.rndnz 3) ∧ decode 0x42310000 = .ok (.rndint 3 1) ∧
  decode 0x43012000 = .ok (.rndfill 1 2) ∧ decode 0x44012300 = .ok (.rnduniq 1 2 3) ∧
  decode 0x45000000 = .ok .rndclr ∧ decode 0x46000000 = .ok .rndseed

/-- R96: an illegal word written to CMD with no fault pending raises IllegalCommand with FIDX = 0; and which words are
illegal. -/
def Obligations.IllegalWordsRaiseIllegalCommand : Prop :=
  (∀ (w : Word) (e : Illegal) (s : State) (rest : List BusEvent), decode w = .error e → s.pending = none →
    s.faultFlag = false → s.bus = .write .word 0x0000 w :: rest →
    step s = .next { s with
      bus := rest, readData := none, fcause := 15, fcmd := w, fidx := 0, fgrp := 0, fseq := s.cmdcnt,
      cmdcnt := s.cmdcnt + 1, faultFlag := true }) ∧
  (∀ w : Word,
    (let op := bitsOf w 31 24
     op = 0x00 ∨ (0x06 ≤ op ∧ op ≤ 0x0F) ∨ (0x16 ≤ op ∧ op ≤ 0x1F) ∨ (0x24 ≤ op ∧ op ≤ 0x2F) ∨
      (0x33 ≤ op ∧ op ≤ 0x3F) ∨ 0x47 ≤ op) → ∃ e, decode w = .error e) ∧
  (∀ (w : Word) (o : Opcode), o.row.op = bitsOf w 31 24 →
    ((o.row.usesRd = false ∧ bitsOf w 23 20 ≠ 0) ∨ (o.row.usesRa = false ∧ bitsOf w 19 16 ≠ 0) ∨
      (o.row.format = .R ∧ ((o.row.usesRb = false ∧ bitsOf w 15 12 ≠ 0) ∨ (o.row.usesRc = false ∧ bitsOf w 11 8 ≠ 0) ∨
        (o.row.usesRe = false ∧ bitsOf w 7 4 ≠ 0) ∨ bitsOf w 3 0 ≠ 0))) →
    ∃ e, decode w = .error e) ∧
  (∀ w : Word, bitsOf w 31 24 = 0x01 → bitsOf w 19 16 ≠ 0 → ∃ e, decode w = .error e) ∧
  (∃ e, decode 0x00000000 = .error e) ∧ (∃ e, decode 0xFFFFFFFF = .error e)

/-! ## The machine -/

/-- A word written to CMD that decodes to `i` is executed as `i`, the access being taken from the queue and returning no
data (R34, R266; log entries 3 and 4); and the command that `withFetchWord` places is the one the next step runs. -/
def Obligations.StepRunsTheDecodedCommand : Prop :=
  (∀ (s : State) (w : Word) (i : Instr) (rest : List BusEvent), s.pending = none → s.faultFlag = false →
    s.bus = .write .word 0x0000 w :: rest → decode w = .ok i →
    step s = exec i { s with bus := rest, readData := none }) ∧
  (∀ (s : State) (i : Instr), i.wellFormed = true → s.faultFlag = false →
    step (s.withFetchWord 32 (encode i).toNat) = exec i { s with pending := none, readData := none })

/-- R269: while FAULT is 1 a word written to CMD sets DROP and does nothing else, whatever the word; and the host's other
accesses are what they are with FAULT 0 (the access taken from the queue, log entry 3). -/
def Obligations.LockDropsCommands : Prop :=
  (∀ (s : State) (w : Word) (rest : List BusEvent), s.pending = none → s.faultFlag = true →
    s.bus = .write .word 0x0000 w :: rest →
    step s = .next { s with bus := rest, readData := none, dropFlag := true }) ∧
  (∀ (s : State) (offset : Nat) (v : Word) (rest : List BusEvent), s.pending = none → s.faultFlag = true →
    offset ≠ 0x0000 → offset % 4 = 0 → s.bus = .write .word offset v :: rest →
    step s = .next (State.busWrite { s with bus := rest, readData := none } offset v)) ∧
  (∀ (s : State) (offset : Nat) (rest : List BusEvent), s.pending = none → s.faultFlag = true → offset % 4 = 0 →
    s.bus = .read .word offset :: rest →
    step s = .next { s with bus := rest, readData := some (s.busRead offset) })

/-- R43: every piece of the block's state after reset. -/
def Obligations.ResetValues : Prop :=
  (∀ i : RegNum, State.reset.readG i = 0) ∧ State.reset.cmdcnt = 0 ∧ State.reset.status = 0 ∧
  State.reset.faultFlag = false ∧ State.reset.dropFlag = false ∧ State.reset.initFlag = false ∧
  State.reset.ctrl = 0 ∧ State.reset.fie = false ∧ State.reset.fcause = 0 ∧ State.reset.fcmd = 0 ∧
  State.reset.fidx = 0 ∧ State.reset.fgrp = 0 ∧ State.reset.fseq = 0 ∧ State.reset.pool.length = 256 ∧
  (∀ b ∈ State.reset.pool, b = 0) ∧ State.reset.cur = 0 ∧
  (∀ a, a < Config.spmWords → State.reset.readSpm a = 0) ∧ State.reset.irq = false

/-- R300: reset puts every piece of the block's state at its reset value, whether a command is in progress or not, and
the next draw takes the byte the source delivers next. That a reset at the queue's head is taken at once during a command,
and that it leaves the source's list and the count of bytes delivered, is the model's (log entries 5, 7). -/
def Obligations.ResetEvent : Prop :=
  ∀ (s : State) (rest : List BusEvent), s.bus = .reset :: rest →
    ∃ t : State, step s = .next t ∧ (∀ i : RegNum, t.readG i = 0) ∧ (∀ a : Nat, t.readSpm a = 0) ∧ t.cmdcnt = 0 ∧
      t.status = 0 ∧ t.ctrl = 0 ∧ t.fcause = 0 ∧ t.fcmd = 0 ∧ t.fidx = 0 ∧ t.fgrp = 0 ∧ t.fseq = 0 ∧
      t.pool = List.replicate 256 0 ∧ t.cur = 0 ∧ t.initFlag = false ∧ t.irq = false ∧ t.pending = none ∧
      t.entropy = s.entropy ∧ t.drawn = s.drawn ∧ t.entropyByte.1 = s.entropyByte.1

/-- R40: what a 32-bit access to each offset of the window does. -/
def Obligations.WindowFollowsTheRegisterMap : Prop :=
  ∀ (s : State) (offset : Nat) (rest : List BusEvent), s.pending = none → offset % 4 = 0 →
    (∃ d : Word,
      (s.bus = .read .word offset :: rest → step s = .next { s with bus := rest, readData := some d }) ∧
      (offset = 0x0004 → d = s.status) ∧ (offset = 0x0008 → d = s.ctrl) ∧
      (offset = 0x000C → d = s.fcause.setWidth 32) ∧ (offset = 0x0010 → d = s.fcmd) ∧ (offset = 0x0014 → d = s.fidx) ∧
      (offset = 0x0018 → d = s.fgrp) ∧ (offset = 0x001C → d = s.fseq) ∧ (offset = 0x0024 → d = s.cmdcnt) ∧
      (∀ i : RegNum, offset = 0x0040 + 4 * i.val → d = s.readG i) ∧
      (∀ a : Nat, a < Config.spmWords → offset = 0x4000 + 4 * a → d = s.readSpm a) ∧
      (offset = 0x0000 ∨ offset = 0x0020 ∨ (0x0024 < offset ∧ offset < 0x0040) ∨ (0x0080 ≤ offset ∧ offset < 0x4000) ∨
        0x4000 + 4 * Config.spmWords ≤ offset → d = 0)) ∧
    (∀ v : Word, s.bus = .write .word offset v :: rest →
      (offset = 0x0000 → step s = issue v { s with bus := rest, readData := none }) ∧
      (offset = 0x0008 → step s = .next { s with bus := rest, readData := none, fie := v.getLsbD 0 }) ∧
      (offset = 0x0020 → v.getLsbD 0 = true →
        step s = .next (State.clearFault { s with bus := rest, readData := none })) ∧
      (offset = 0x0020 → v.getLsbD 0 = false → step s = .next { s with bus := rest, readData := none }) ∧
      (∀ i : RegNum, offset = 0x0040 + 4 * i.val →
        step s = .next { s with bus := rest, readData := none, g := s.g.set i v }) ∧
      (∀ a : Nat, s.spm.wf = true → a < Config.spmWords → offset = 0x4000 + 4 * a →
        ∃ m : Spm, step s = .next { s with bus := rest, readData := none, spm := m } ∧
          ∀ b : Nat, m.read b = if b = a then v else s.readSpm b) ∧
      (0x0004 = offset ∨ (0x000C ≤ offset ∧ offset ≤ 0x001C) ∨ (0x0024 ≤ offset ∧ offset < 0x0040) ∨
        (0x0080 ≤ offset ∧ offset < 0x4000) ∨ 0x4000 + 4 * Config.spmWords ≤ offset →
        step s = .next { s with bus := rest, readData := none }))

/-- R27, R274: CTRL holds FIE alone, the host's write keeps bit 0 alone, no command reads or writes it, and the interrupt
line is FAULT AND FIE. -/
def Obligations.ControlAndInterrupt : Prop :=
  (∀ (s : State) (k : Nat), s.ctrl.getLsbD k = (decide (k = 0) && s.fie)) ∧
  (∀ (s : State) (v : Word) (rest : List BusEvent), s.pending = none → s.bus = .write .word 0x0008 v :: rest →
    step s = .next { s with bus := rest, readData := none, fie := v.getLsbD 0 }) ∧
  (∀ (i : Instr) (s t : State) (b : Bool), exec i s = .next t →
    t.fie = s.fie ∧ exec i { s with fie := b } = .next { t with fie := b }) ∧
  (∀ s : State, s.irq = (s.faultFlag && s.fie)) ∧ State.reset.ctrl = 0

/-- R33: a write of bit 0 = 1 to FCLR clears the fault's flags and registers and nothing else (the access taken from the
queue, log entry 3); with bit 0 = 0 it does nothing; reads return 0. -/
def Obligations.FclrClearsTheFault : Prop :=
  (∀ (s : State) (v : Word) (rest : List BusEvent), s.pending = none → s.bus = .write .word 0x0020 v :: rest →
    (v.getLsbD 0 = true → step s = .next { s with
      bus := rest, readData := none, faultFlag := false, dropFlag := false, fcause := 0, fcmd := 0, fidx := 0, fgrp := 0,
      fseq := 0 }) ∧
    (v.getLsbD 0 = false → step s = .next { s with bus := rest, readData := none })) ∧
  (∀ (s : State) (rest : List BusEvent), s.pending = none → s.bus = .read .word 0x0020 :: rest →
    step s = .next { s with bus := rest, readData := some 0 })

/-- R75: while a command is in progress the block takes no access from the queue and returns no data, unless a reset
stands next. The queue is the model's (log entry 3). -/
def Obligations.AccessesWaitForTheCommand : Prop :=
  ∀ (s : State) (p : Pending), s.pending = some p → (∀ rest, s.bus ≠ .reset :: rest) →
    ∃ t : State, step s = .next t ∧ t.bus = s.bus ∧ t.readData = s.readData

/-- R63: the accesses the spec gives no step, which the model refuses by name (log entry 9); and that no other step is
refused: a step that is refused has no command in progress and such an access as the next of the queue, whatever stands
behind it, and is refused for what that access is. -/
def Obligations.OnlyIllFormedAccessesAreRefused : Prop :=
  (∀ (s : State) (width : Width) (offset : Nat) (rest : List BusEvent), s.pending = none → width ≠ .word →
    s.bus = .read width offset :: rest → step s = .refused .narrowAccess) ∧
  (∀ (s : State) (width : Width) (offset : Nat) (v : Word) (rest : List BusEvent), s.pending = none → width ≠ .word →
    s.bus = .write width offset v :: rest → step s = .refused .narrowAccess) ∧
  (∀ (s : State) (offset : Nat) (rest : List BusEvent), s.pending = none → offset % 4 ≠ 0 →
    s.bus = .read .word offset :: rest → step s = .refused .misalignedAccess) ∧
  (∀ (s : State) (offset : Nat) (v : Word) (rest : List BusEvent), s.pending = none → offset % 4 ≠ 0 →
    s.bus = .write .word offset v :: rest → step s = .refused .misalignedAccess) ∧
  (∀ (s : State) (r : Refusal), step s = .refused r → s.pending = none ∧
    ∃ (width : Width) (offset : Nat) (rest : List BusEvent),
      (s.bus = .read width offset :: rest ∨ ∃ v : Word, s.bus = .write width offset v :: rest) ∧
      ((r = .narrowAccess ∧ width ≠ .word) ∨ (r = .misalignedAccess ∧ width = .word ∧ offset % 4 ≠ 0))) ∧
  (∀ s : State, (∃ r : Refusal, step s = .refused r) ∨ ∃ t : State, step s = .next t) ∧
  (∀ s : State, s.legalHost = true → ∃ t : State, step s = .next t ∧ t.legalHost = true)

/-- R26: the bits of STATUS; FAULT is set only by a faulting command and DROP only by a dropped one; both are cleared
only through FCLR and by reset; no command reads DROP, and FAULT gates the acceptance of words alone; the host's writes
to STATUS are ignored. -/
def Obligations.StatusIsSetAndClearedOnlySo : Prop :=
  (∀ (s : State) (k : Nat), s.status.getLsbD k =
    ((decide (k = 0) && s.faultFlag) || (decide (k = 1) && s.dropFlag) || (decide (k = 2) && s.initFlag))) ∧
  (∀ s t : State, step s = .next t → s.faultFlag = false → t.faultFlag = true →
    ∃ (w : Word) (rest : List BusEvent) (f : Raise), s.bus = .write .word 0x0000 w :: rest ∧
      t = State.faultEntry { s with bus := rest, readData := none } w f) ∧
  (∀ s t : State, step s = .next t → s.dropFlag = false → t.dropFlag = true →
    s.faultFlag = true ∧ ∃ (w : Word) (rest : List BusEvent), s.bus = .write .word 0x0000 w :: rest) ∧
  (∀ s t : State, step s = .next t →
    (s.faultFlag = true ∧ t.faultFlag = false) ∨ (s.dropFlag = true ∧ t.dropFlag = false) →
    ∃ rest : List BusEvent, s.bus = .reset :: rest ∨
      ∃ v : Word, s.bus = .write .word 0x0020 v :: rest ∧ v.getLsbD 0 = true) ∧
  (∀ (s : State) (v : Word) (rest : List BusEvent), s.pending = none → s.bus = .write .word 0x0004 v :: rest →
    step s = .next { s with bus := rest, readData := none }) ∧
  (∀ (i : Instr) (s t : State) (b : Bool), exec i s = .next t →
    t.dropFlag = s.dropFlag ∧ exec i { s with dropFlag := b } = .next { t with dropFlag := b }) ∧
  (∀ (w : Word) (s : State), s.faultFlag = true → issue w s = .next { s with dropFlag := true }) ∧
  (∀ (w : Word) (i : Instr) (s : State), s.faultFlag = false → decode w = .ok i → issue w s = exec i s) ∧
  State.reset.status = 0

/-- R267: what the fault of an accepted word changes, and that it changes nothing else; in particular no byte is
drawn. -/
def Obligations.FaultChangesOnlyTheRecord : Prop :=
  ∀ (w : Word) (s t : State), s.faultFlag = false → issue w s = .next t → t.faultFlag = true →
    ∃ f : Raise, t = { s with
      fcause := f.cause.code, fcmd := w, fidx := f.idx, fgrp := f.grp, fseq := s.cmdcnt, cmdcnt := s.cmdcnt + 1,
      faultFlag := true }

/-- R262: the codes; which causes each command can raise and with which FIDX; the seven commands that never fault; the
codes that are never written. -/
def Obligations.CausesFollowTheTable : Prop :=
  ([Cause.invalidArgument, .invalidElement, .invalidShare, .invalidSecret, .invalidThreshold, .thresholdExceedsField,
    .duplicateXCoordinate, .insufficientShares, .insufficientShareSets, .inconsistentMetadata,
    .shareAuthenticationFailed, .divisionByZero, .emptyInput, .emptyShares, .illegalCommand, .addressFault].map
    (fun c => c.code.toNat) = [1, 2, 3, 4, 5, 6, 7, 8, 9, 10, 11, 12, 13, 14, 15, 16]) ∧
  (∀ (w : Word) (i : Instr) (s t : State), decode w = .ok i → s.faultFlag = false → issue w s = .next t →
    t.faultFlag = true →
    ∃ f : Raise, t = s.faultEntry w f ∧ f.cause ∈ raisedBy i ∧
      (f.cause ≠ .invalidElement → f.cause ≠ .invalidShare → f.cause ≠ .duplicateXCoordinate →
        f.idx = 0 ∨ (f.idx = 1 ∧ f.cause = .invalidArgument ∧ i.opcode = .rnduniq)) ∧
      (f.grp ≠ 0 → i.opcode = .brecon)) ∧
  (∀ (i : Instr) (s t : State), i.opcode ∈ [.li, .mov, .gfvalid, .rndb, .rndnz, .rndclr, .rndseed] →
    s.faultFlag = false → exec i s = .next t → t.faultFlag = false) ∧
  (∀ s t : State, step s = .next t → s.faultFlag = false → t.faultFlag = true → raisedCode t.fcause = true)

/-- R268: a command that completes is counted and leaves the fault registers, FAULT and DROP as they were, whether it
ends in the step that accepted it or, a resampling command, in a later one (log entry 6). -/
def Obligations.CompletionKeepsTheRecord : Prop :=
  (∀ (i : Instr) (s t : State), s.faultFlag = false → s.pending = none → exec i s = .next t → t.faultFlag = false →
    t.pending = none →
    t.cmdcnt = s.cmdcnt + 1 ∧ t.dropFlag = s.dropFlag ∧ t.fcause = s.fcause ∧ t.fcmd = s.fcmd ∧ t.fidx = s.fidx ∧
      t.fgrp = s.fgrp ∧ t.fseq = s.fseq) ∧
  (∀ (s t : State) (p : Pending), s.pending = some p → (∀ rest, s.bus ≠ .reset :: rest) → step s = .next t →
    t.pending = none →
    t.cmdcnt = s.cmdcnt + 1 ∧ t.faultFlag = s.faultFlag ∧ t.dropFlag = s.dropFlag ∧ t.fcause = s.fcause ∧
      t.fcmd = s.fcmd ∧ t.fidx = s.fidx ∧ t.fgrp = s.fgrp ∧ t.fseq = s.fseq)

/-- R25: CMDCNT counts the accepted commands modulo 2^32, as each completes or faults; nothing else but reset changes
it; a fault records it in FSEQ. -/
def Obligations.CmdcntCountsAcceptedCommands : Prop :=
  (∀ s t : State, step s = .next t → (∀ rest, s.bus ≠ .reset :: rest) →
    ((s.pending = none ∧ s.faultFlag = false ∧ (∃ (w : Word) (rest : List BusEvent), s.bus = .write .word 0x0000 w :: rest) ∧
        t.pending = none) ∨ (s.pending ≠ none ∧ t.pending = none) → t.cmdcnt = s.cmdcnt + 1) ∧
    (¬((s.pending = none ∧ s.faultFlag = false ∧ (∃ (w : Word) (rest : List BusEvent),
        s.bus = .write .word 0x0000 w :: rest) ∧ t.pending = none) ∨ (s.pending ≠ none ∧ t.pending = none)) →
      t.cmdcnt = s.cmdcnt)) ∧
  (∀ (w : Word) (s t : State), s.faultFlag = false → issue w s = .next t → t.faultFlag = true → t.fseq = s.cmdcnt) ∧
  State.reset.cmdcnt = 0 ∧ (0xFFFFFFFF : Word) + 1 = 0

/-- A command in progress has written no register, no word and no record: all that has changed is what its draws change
(R267, R270, R309; log entry 6). -/
def Obligations.InProgressChangesOnlyTheDraws : Prop :=
  (∀ (i : Instr) (s t : State), s.pending = none → exec i s = .next t → t.pending ≠ none →
    i.resamples = true ∧ State.SameButDraws { s with pending := t.pending } t) ∧
  (∀ (s t : State) (p : Pending), s.pending = some p → (∀ rest, s.bus ≠ .reset :: rest) → step s = .next t →
    t.pending ≠ none → State.SameButDraws { s with pending := t.pending } t)

/-- Where a step ends inside a resampling loop makes no difference: going on after `a` candidates is the same loop
(R309): the model's own number `Config.candidatesPerStep` does not show in what an undisturbed command does (log entry 6).
Where a reset can cut a command does depend on it (log entry 7). -/
def Obligations.ResamplingMayPauseAnywhere : Prop :=
  ∀ (a b : Nat) (p : Pending) (s : State),
    resample (a + b) p s =
      match (resample a p s).pending with
      | some q => resample b q (resample a p s)
      | none => resample a p s

/-- Only the commands of 44_csprng.md and the two generators touch the pool, the cursor, INIT or the entropy source
(R35, R36, R37, R309). -/
def Obligations.OtherCommandsLeaveThePool : Prop :=
  ∀ (i : Instr) (s t : State), i.usesPool = false → exec i s = .next t →
    t.pool = s.pool ∧ t.cur = s.cur ∧ t.initFlag = s.initFlag ∧ t.entropy = s.entropy ∧ t.drawn = s.drawn ∧
      t.pending = s.pending

/-- R38: two blocks that differ in POOL and CUR alone cannot be told apart by any access of the host, nor by any command
that is not one of the CSPRNG's users. -/
def Obligations.PoolIsHidden : Prop :=
  ∀ s₁ s₂ t₁ : State, s₁.hidePool = s₂.hidePool → s₁.pending = none →
    (∀ (w : Word) (rest : List BusEvent) (i : Instr), s₁.bus = .write .word 0x0000 w :: rest → decode w = .ok i →
      i.usesPool = false) →
    step s₁ = .next t₁ → ∃ t₂ : State, step s₂ = .next t₂ ∧ t₂.hidePool = t₁.hidePool

/-- The invariant holds of the state after reset. -/
def Obligations.InvariantAtReset : Prop := State.reset.inv = true

/-- Every step keeps the invariant: the scratchpad in canonical form inside its words, 256 pool bytes, a pool that is
all 0 while INIT is 0, a clear record while FAULT is 0 and one of the block's causes while it is 1, and a well-formed
command in progress (R28 to R32, R35 to R39, R262, R309). -/
def Obligations.StepKeepsInvariant : Prop :=
  ∀ s t : State, s.inv = true → step s = .next t → t.inv = true

/-- R22: which registers a command writes, and when; and that the host reads and writes every one. -/
def Obligations.CommandsWriteOnlyTheirRegister : Prop :=
  (∀ (i : Instr) (s t : State) (r : RegNum), exec i s = .next t → i.dest ≠ some r → t.readG r = s.readG r) ∧
  (∀ (i : Instr) (s t : State), s.faultFlag = false → exec i s = .next t → t.faultFlag = true → t.g = s.g) ∧
  (∀ (i : Instr) (s t : State), s.pending = none → exec i s = .next t → t.pending ≠ none → t.g = s.g) ∧
  (∀ (s t : State) (p : Pending) (r : RegNum), s.pending = some p → (∀ rest, s.bus ≠ .reset :: rest) →
    step s = .next t → t.pending ≠ none ∨ p.sink ≠ .reg r → t.readG r = s.readG r) ∧
  (∀ (w : Word) (s t : State), s.faultFlag = true → issue w s = .next t → t.g = s.g) ∧
  (∀ (s : State) (i : RegNum) (v : Word) (rest : List BusEvent), s.pending = none →
    s.bus = .write .word (0x0040 + 4 * i.val) v :: rest →
    ∃ t : State, step s = .next t ∧ ∀ j : RegNum, t.readG j = if j = i then v else s.readG j) ∧
  (∀ (s : State) (i : RegNum) (rest : List BusEvent), s.pending = none → s.bus = .read .word (0x0040 + 4 * i.val) :: rest →
    ∃ t : State, step s = .next t ∧ t.readData = some (s.readG i) ∧ t.g = s.g)

/-- A command that is not one of the seven that write the scratchpad leaves every word of it, and so does any command
that faults or is still in progress (R72, R270); no command touches the host's queue, its read data or CTRL. -/
def Obligations.CommandsThatDoNotStoreKeepTheScratchpad : Prop :=
  ∀ (i : Instr) (s t : State), exec i s = .next t →
    (i.stores = false ∨ (s.faultFlag = false ∧ t.faultFlag = true) ∨ (s.pending = none ∧ t.pending ≠ none) →
      t.spm = s.spm) ∧
    t.bus = s.bus ∧ t.readData = s.readData ∧ t.fie = s.fie ∧ t.dropFlag = s.dropFlag

/-! ## Operand movement -/

/-- R120. -/
def Obligations.LiLoadsTheImmediate : Prop :=
  ∀ (rd : RegNum) (imm : Int) (s : State), -32768 ≤ imm → imm ≤ 32767 →
    decode (formatI 0x01 rd 0 imm) = .ok (.li rd imm) ∧
    exec (.li rd imm) s = .next { s with g := s.g.set rd (BitVec.ofInt 32 imm), cmdcnt := s.cmdcnt + 1 }

/-- R121. -/
def Obligations.MovCopiesTheRegister : Prop :=
  ∀ (rd ra : RegNum) (s : State),
    decode (formatR 0x02 rd ra 0 0 0) = .ok (.mov rd ra) ∧
    exec (.mov rd ra) s = .next { s with g := s.g.set rd (s.readG ra), cmdcnt := s.cmdcnt + 1 }

/-- R122: the sum wraps modulo 2^32 before the comparison; the word is copied whole. -/
def Obligations.LdwLoadsOrFaults : Prop :=
  ∀ (rd ra : RegNum) (imm : Int) (s : State), -32768 ≤ imm → imm ≤ 32767 →
    let addr := (((s.readG ra).toNat + imm) % 4294967296).toNat
    let word := formatI 0x03 rd ra imm
    decode word = .ok (.ldw rd ra imm) ∧
    (Config.spmWords ≤ addr → exec (.ldw rd ra imm) s = .next (s.faultEntry word ⟨.addressFault, 0, 0⟩)) ∧
    (addr < Config.spmWords →
      exec (.ldw rd ra imm) s = .next { s with g := s.g.set rd (s.readSpm addr), cmdcnt := s.cmdcnt + 1 })

/-- R123: all 32 bits are stored, every other word of the scratchpad keeps its value, no register is written. -/
def Obligations.StwStoresOrFaults : Prop :=
  ∀ (rd ra : RegNum) (imm : Int) (s : State), -32768 ≤ imm → imm ≤ 32767 → s.spm.wf = true →
    let addr := (((s.readG ra).toNat + imm) % 4294967296).toNat
    let word := formatI 0x04 rd ra imm
    decode word = .ok (.stw rd ra imm) ∧
    (Config.spmWords ≤ addr → exec (.stw rd ra imm) s = .next (s.faultEntry word ⟨.addressFault, 0, 0⟩)) ∧
    (addr < Config.spmWords →
      ∃ m : Spm, exec (.stw rd ra imm) s = .next { s with spm := m, cmdcnt := s.cmdcnt + 1 } ∧
        ∀ a : Nat, m.read a = if a = addr then s.readG rd else s.readSpm a)

/-- R124: the checks in their order; then the range, and no other word, reads 0. -/
def Obligations.WipeZeroesTheRangeOrFaults : Prop :=
  ∀ (ra rb : RegNum) (s : State), s.spm.wf = true →
    let base := (s.readG ra).toNat
    let n := (s.readG rb).toInt
    let word := formatR 0x05 0 ra rb 0 0
    decode word = .ok (.wipe ra rb) ∧
    (n ≤ 0 → exec (.wipe ra rb) s = .next (s.faultEntry word ⟨.invalidArgument, 0, 0⟩)) ∧
    (0 < n → (Config.spmWords : Int) < base + n →
      exec (.wipe ra rb) s = .next (s.faultEntry word ⟨.addressFault, 0, 0⟩)) ∧
    (0 < n → base + n ≤ Config.spmWords →
      ∃ m : Spm, exec (.wipe ra rb) s = .next { s with spm := m, cmdcnt := s.cmdcnt + 1 } ∧
        ∀ a : Nat, m.read a = if base ≤ a ∧ a < base + n then 0 else s.readSpm a)

/-! ## Field arithmetic -/

/-- R150, R151: the two are the same XOR, with the same two checks. -/
def Obligations.GfaddAndGfsubAreXor : Prop :=
  ∀ (rd ra rb : RegNum) (s : State),
    let a := s.readG ra
    let b := s.readG rb
    let add := formatR 0x10 rd ra rb 0 0
    let sub := formatR 0x11 rd ra rb 0 0
    decode add = .ok (.gfadd rd ra rb) ∧ decode sub = .ok (.gfsub rd ra rb) ∧
    (256 ≤ a.toNat →
      exec (.gfadd rd ra rb) s = .next (s.faultEntry add ⟨.invalidElement, 0, 0⟩) ∧
      exec (.gfsub rd ra rb) s = .next (s.faultEntry sub ⟨.invalidElement, 0, 0⟩)) ∧
    (a.toNat < 256 → 256 ≤ b.toNat →
      exec (.gfadd rd ra rb) s = .next (s.faultEntry add ⟨.invalidElement, 1, 0⟩) ∧
      exec (.gfsub rd ra rb) s = .next (s.faultEntry sub ⟨.invalidElement, 1, 0⟩)) ∧
    (a.toNat < 256 → b.toNat < 256 →
      exec (.gfadd rd ra rb) s = .next { s with g := s.g.set rd (a ^^^ b), cmdcnt := s.cmdcnt + 1 } ∧
      exec (.gfsub rd ra rb) s = .next { s with g := s.g.set rd (a ^^^ b), cmdcnt := s.cmdcnt + 1 })

/-- R152. -/
def Obligations.GfmulMultiplies : Prop :=
  ∀ (rd ra rb : RegNum) (s : State),
    let a := s.readG ra
    let b := s.readG rb
    let word := formatR 0x12 rd ra rb 0 0
    decode word = .ok (.gfmul rd ra rb) ∧
    (256 ≤ a.toNat → exec (.gfmul rd ra rb) s = .next (s.faultEntry word ⟨.invalidElement, 0, 0⟩)) ∧
    (a.toNat < 256 → 256 ≤ b.toNat →
      exec (.gfmul rd ra rb) s = .next (s.faultEntry word ⟨.invalidElement, 1, 0⟩)) ∧
    (a.toNat < 256 → b.toNat < 256 →
      exec (.gfmul rd ra rb) s = .next { s with
        g := s.g.set rd ((gfMul (a.setWidth 8) (b.setWidth 8)).setWidth 32), cmdcnt := s.cmdcnt + 1 })

/-- R153: for a ≠ 0 the result is THE element whose product with `a` is 1. -/
def Obligations.GfinvInvertsOrFaults : Prop :=
  ∀ (rd ra : RegNum) (s : State),
    let a := s.readG ra
    let word := formatR 0x13 rd ra 0 0 0
    decode word = .ok (.gfinv rd ra) ∧
    (256 ≤ a.toNat → exec (.gfinv rd ra) s = .next (s.faultEntry word ⟨.invalidElement, 0, 0⟩)) ∧
    (a = 0 → exec (.gfinv rd ra) s = .next (s.faultEntry word ⟨.divisionByZero, 0, 0⟩)) ∧
    (a.toNat < 256 → a ≠ 0 →
      ∃ v : Byte, gfMul (a.setWidth 8) v = 1 ∧ (∀ u : Byte, gfMul (a.setWidth 8) u = 1 → u = v) ∧
        exec (.gfinv rd ra) s = .next { s with g := s.g.set rd (v.setWidth 32), cmdcnt := s.cmdcnt + 1 })

/-- R154: for b ≠ 0 the result is the one element whose product with `b` is `a`. -/
def Obligations.GfdivDividesOrFaults : Prop :=
  ∀ (rd ra rb : RegNum) (s : State),
    let a := s.readG ra
    let b := s.readG rb
    let word := formatR 0x14 rd ra rb 0 0
    decode word = .ok (.gfdiv rd ra rb) ∧
    (256 ≤ a.toNat → exec (.gfdiv rd ra rb) s = .next (s.faultEntry word ⟨.invalidElement, 0, 0⟩)) ∧
    (a.toNat < 256 → 256 ≤ b.toNat →
      exec (.gfdiv rd ra rb) s = .next (s.faultEntry word ⟨.invalidElement, 1, 0⟩)) ∧
    (a.toNat < 256 → b = 0 → exec (.gfdiv rd ra rb) s = .next (s.faultEntry word ⟨.divisionByZero, 0, 0⟩)) ∧
    (a.toNat < 256 → b.toNat < 256 → b ≠ 0 →
      ∃ v : Byte, v = gfDiv (a.setWidth 8) (b.setWidth 8) ∧ gfMul v (b.setWidth 8) = a.setWidth 8 ∧
        exec (.gfdiv rd ra rb) s = .next { s with g := s.g.set rd (v.setWidth 32), cmdcnt := s.cmdcnt + 1 })

/-- R155: it never faults. -/
def Obligations.GfvalidTestsTheElement : Prop :=
  ∀ (rd ra : RegNum) (s : State),
    decode (formatR 0x15 rd ra 0 0 0) = .ok (.gfvalid rd ra) ∧
    exec (.gfvalid rd ra) s = .next { s with
      g := s.g.set rd (if (s.readG ra).toNat < 256 then 1 else 0), cmdcnt := s.cmdcnt + 1 }

/-! ## Polynomials -/

/-- R171: the checks in their order, then the value of R170's Horner. -/
def Obligations.PevalEvaluatesOrFaults : Prop :=
  ∀ (rd ra rb rc : RegNum) (s : State),
    let base := (s.readG ra).toNat
    let n := (s.readG rb).toInt
    let x := s.readG rc
    let c := fun j : Nat => s.readSpm (base + j)
    let word := formatR 0x20 rd ra rb rc 0
    decode word = .ok (.peval rd ra rb rc) ∧
    (n ≤ 0 ∨ 256 < n → exec (.peval rd ra rb rc) s = .next (s.faultEntry word ⟨.invalidArgument, 0, 0⟩)) ∧
    (0 < n → n ≤ 256 →
      ((Config.spmWords : Int) < base + n →
        exec (.peval rd ra rb rc) s = .next (s.faultEntry word ⟨.addressFault, 0, 0⟩)) ∧
      (base + n ≤ Config.spmWords → 256 ≤ x.toNat →
        exec (.peval rd ra rb rc) s = .next (s.faultEntry word ⟨.invalidElement, 0xFFFFFFFF, 0⟩)) ∧
      (base + n ≤ Config.spmWords → x.toNat < 256 →
        (∀ j : Nat, j < n → 256 ≤ (c j).toNat → (∀ k < j, (c k).toNat < 256) →
          exec (.peval rd ra rb rc) s = .next (s.faultEntry word ⟨.invalidElement, BitVec.ofNat 32 j, 0⟩)) ∧
        ((∀ j : Nat, j < n → (c j).toNat < 256) →
          exec (.peval rd ra rb rc) s = .next { s with
            g := s.g.set rd
              ((horner ((List.range n.toNat).map (fun j => (c j).setWidth 8)) (x.setWidth 8)).setWidth 32)
            cmdcnt := s.cmdcnt + 1 })))

/-- R222. -/
def Obligations.PvalidTestsTheArrayOrFaults : Prop :=
  ∀ (rd ra rb : RegNum) (s : State),
    let base := (s.readG ra).toNat
    let n := (s.readG rb).toInt
    let c := fun j : Nat => s.readSpm (base + j)
    let word := formatR 0x21 rd ra rb 0 0
    decode word = .ok (.pvalid rd ra rb) ∧
    (n ≤ 0 ∨ 256 < n → exec (.pvalid rd ra rb) s = .next (s.faultEntry word ⟨.invalidArgument, 0, 0⟩)) ∧
    (0 < n → n ≤ 256 →
      ((Config.spmWords : Int) < base + n →
        exec (.pvalid rd ra rb) s = .next (s.faultEntry word ⟨.addressFault, 0, 0⟩)) ∧
      (base + n ≤ Config.spmWords →
        ((∀ j : Nat, j < n → (c j).toNat < 256) ∧ (n = 1 ∨ c (n.toNat - 1) ≠ 0) →
          exec (.pvalid rd ra rb) s = .next { s with g := s.g.set rd 1, cmdcnt := s.cmdcnt + 1 }) ∧
        (¬((∀ j : Nat, j < n → (c j).toNat < 256) ∧ (n = 1 ∨ c (n.toNat - 1) ≠ 0)) →
          exec (.pvalid rd ra rb) s = .next { s with g := s.g.set rd 0, cmdcnt := s.cmdcnt + 1 })))

/-! ## Interpolation and reconstruction -/

/-- R181: the checks in their order, then R180's Lagrange0. -/
def Obligations.LagrInterpolatesOrFaults : Prop :=
  ∀ (rd ra rb rc re : RegNum) (s : State),
    let xb := (s.readG ra).toNat
    let nx := (s.readG rb).toInt
    let yb := (s.readG rc).toNat
    let ny := (s.readG re).toInt
    let x := fun j : Nat => s.readSpm (xb + j)
    let y := fun j : Nat => s.readSpm (yb + j)
    let word := formatR 0x30 rd ra rb rc re
    decode word = .ok (.lagr rd ra rb rc re) ∧
    (nx < 0 ∨ ny < 0 → exec (.lagr rd ra rb rc re) s = .next (s.faultEntry word ⟨.invalidArgument, 0, 0⟩)) ∧
    (0 ≤ nx → 0 ≤ ny → nx = 0 ∨ ny = 0 ∨ nx ≠ ny →
      exec (.lagr rd ra rb rc re) s = .next (s.faultEntry word ⟨.emptyInput, 0, 0⟩)) ∧
    (0 < nx → nx = ny → (Config.spmWords : Int) < xb + nx ∨ (Config.spmWords : Int) < yb + ny →
      exec (.lagr rd ra rb rc re) s = .next (s.faultEntry word ⟨.addressFault, 0, 0⟩)) ∧
    (0 < nx → nx = ny → xb + nx ≤ Config.spmWords → yb + ny ≤ Config.spmWords →
      (∀ j : Nat, j < nx → 256 ≤ (x j).toNat ∨ 256 ≤ (y j).toNat →
        (∀ k < j, (x k).toNat < 256 ∧ (y k).toNat < 256) →
        exec (.lagr rd ra rb rc re) s = .next (s.faultEntry word ⟨.invalidElement, BitVec.ofNat 32 j, 0⟩)) ∧
      ((∀ j : Nat, j < nx → (x j).toNat < 256 ∧ (y j).toNat < 256) →
        (∀ j : Nat, j < nx → (∃ i < j, x j = x i) → (∀ k < j, ∀ i < k, x k ≠ x i) →
          exec (.lagr rd ra rb rc re) s = .next (s.faultEntry word ⟨.duplicateXCoordinate, BitVec.ofNat 32 j, 0⟩)) ∧
        ((∀ j : Nat, j < nx → ∀ i < j, x j ≠ x i) →
          exec (.lagr rd ra rb rc re) s = .next { s with
            g := s.g.set rd ((lagrange0 ((List.range nx.toNat).map
              (fun j => ((x j).setWidth 8, (y j).setWidth 8)))).setWidth 32)
            cmdcnt := s.cmdcnt + 1 })))

/-- R230: the six checks of `Recon` in their order, then Lagrange0 over all the shares. -/
def Obligations.ReconFollowsItsChecks : Prop :=
  ∀ (s : State) (base : Word) (n K : Int) (grp : Nat),
    let b := base.toNat
    let g := BitVec.ofNat 32 grp
    let x := fun j : Nat => s.readSpm (b + 2 * j)
    let y := fun j : Nat => s.readSpm (b + 2 * j + 1)
    (n < 0 → s.recon base n K grp = .error ⟨.invalidArgument, 0, g⟩) ∧
    (n = 0 → s.recon base n K grp = .error ⟨.emptyShares, 0, g⟩) ∧
    (0 < n → n < K → s.recon base n K grp = .error ⟨.insufficientShares, 0, g⟩) ∧
    (0 < n → K ≤ n → (Config.spmWords : Int) < b + 2 * n → s.recon base n K grp = .error ⟨.addressFault, 0, g⟩) ∧
    (0 < n → K ≤ n → b + 2 * n ≤ Config.spmWords →
      (∀ j : Nat, j < n → 256 ≤ (x j).toNat ∨ 256 ≤ (y j).toNat ∨ x j = 0 →
        (∀ k < j, (x k).toNat < 256 ∧ (y k).toNat < 256 ∧ x k ≠ 0) →
        s.recon base n K grp = .error ⟨.invalidShare, BitVec.ofNat 32 j, g⟩) ∧
      ((∀ j : Nat, j < n → (x j).toNat < 256 ∧ (y j).toNat < 256 ∧ x j ≠ 0) →
        (∀ j : Nat, j < n → (∃ i < j, x j = x i) → (∀ k < j, ∀ i < k, x k ≠ x i) →
          s.recon base n K grp = .error ⟨.duplicateXCoordinate, BitVec.ofNat 32 j, g⟩) ∧
        ((∀ j : Nat, j < n → ∀ i < j, x j ≠ x i) →
          s.recon base n K grp = .ok (lagrange0 ((List.range n.toNat).map
            (fun j => ((x j).setWidth 8, (y j).setWidth 8)))))))

/-- R231: RECON is `Recon` with group 0; on a fault no register changes. -/
def Obligations.ReconCommandReturnsRecon : Prop :=
  ∀ (rd ra rb rc : RegNum) (s : State),
    let word := formatR 0x31 rd ra rb rc 0
    let r := s.recon (s.readG ra) (s.readG rb).toInt (s.readG rc).toInt 0
    decode word = .ok (.recon rd ra rb rc) ∧
    (∀ f : Raise, r = .error f → exec (.recon rd ra rb rc) s = .next (s.faultEntry word f) ∧ f.grp = 0) ∧
    (∀ v : Byte, r = .ok v →
      exec (.recon rd ra rb rc) s = .next { s with g := s.g.set rd (v.setWidth 32), cmdcnt := s.cmdcnt + 1 })

/-- R232: the command's own checks, then the groups in order, the first fault ending it with nothing written; the results
are those of the state before the command, whatever they overwrite. -/
def Obligations.BreconReconstructsEveryGroupOrFaults : Prop :=
  ∀ (ra rb rc re : RegNum) (s : State), s.spm.wf = true →
    let db := (s.readG ra).toNat
    let G := (s.readG rb).toInt
    let K := (s.readG rc).toInt
    let ob := (s.readG re).toNat
    let r := fun grp : Nat => s.recon (s.readSpm (db + 2 * grp)) (s.readSpm (db + 2 * grp + 1)).toInt K grp
    let word := formatR 0x32 0 ra rb rc re
    decode word = .ok (.brecon ra rb rc re) ∧
    (G ≤ 0 → exec (.brecon ra rb rc re) s = .next (s.faultEntry word ⟨.invalidArgument, 0, 0⟩)) ∧
    (0 < G → (Config.spmWords : Int) < db + 2 * G ∨ (Config.spmWords : Int) < ob + G →
      exec (.brecon ra rb rc re) s = .next (s.faultEntry word ⟨.addressFault, 0, 0⟩)) ∧
    (0 < G → db + 2 * G ≤ Config.spmWords → ob + G ≤ Config.spmWords →
      (∀ (grp : Nat) (f : Raise), grp < G → r grp = .error f → (∀ k < grp, ∃ v, r k = .ok v) →
        exec (.brecon ra rb rc re) s = .next (s.faultEntry word f)) ∧
      (∀ out : Nat → Byte, (∀ grp : Nat, grp < G → r grp = .ok (out grp)) →
        ∃ m : Spm, exec (.brecon ra rb rc re) s = .next { s with spm := m, cmdcnt := s.cmdcnt + 1 } ∧
          ∀ a : Nat, m.read a = if ob ≤ a ∧ a < ob + G then (out (a - ob)).setWidth 32 else s.readSpm a))

/-! ## The CSPRNG -/

/-- R190, R191, R81: `n` draws take the source's next `n` bytes in order, those it was told to deliver first, and touch
nothing else; the numbers of draws of the primitives. How the source is held is the model's (log entry 5). -/
def Obligations.DrawsTakeTheSourceInOrder : Prop :=
  (∀ (n : Nat) (s : State),
    (s.draws n).2 = { s with entropy := s.entropy.drop n, drawn := s.drawn + n } ∧ (s.draws n).1.length = n ∧
    ∀ j : Nat, j < n → (s.draws n).1[j]? =
      some (if h : j < s.entropy.length then s.entropy[j] else Config.entropyByte (s.drawn + j))) ∧
  (∀ s : State, s.reseed.drawn = s.drawn + 256 ∧ s.mix.drawn = s.drawn + 1 ∧
    (s.initFlag = true → s.nextByte.2.drawn = s.drawn + 2) ∧
    (s.initFlag = false → s.nextByte.2.drawn = s.drawn + 258))

/-- R192: the pool after `Mix()`, index by index, with `q` the pool after steps 1 and 2; nothing but POOL, CUR and the one
draw changes. -/
def Obligations.MixFollowsTheRule : Prop :=
  ∀ s : State, s.pool.length = 256 →
    let p := fun i : Nat => s.pool.getD (i % 256) 0
    ∃ q : Nat → Byte,
      q 0 = p 1 ^^^ p 2 ∧
      (∀ i : Nat, 0 < i → i < 255 → q i = p (i + 1) ^^^ p (i + 2) ^^^ q (i - 1)) ∧
      q 255 = p 256 ^^^ q 0 ^^^ q 254 ∧
      s.mix.pool.length = 256 ∧
      (∀ i : Nat, i < 256 → s.mix.pool.getD i 0 = if i = s.cur.toNat then q i ^^^ s.entropyByte.1 else q i) ∧
      s.mix.cur = s.cur + 1 ∧
      s.mix = { s.entropyByte.2 with pool := s.mix.pool, cur := s.mix.cur }

/-- R200, with R194 written out: the draw `f` XOR the pool byte at the cursor; the draw `e` folded into the stirred pool;
with INIT = 0 the pool is filled first. -/
def Obligations.RndbDrawsOneByte : Prop :=
  ∀ (rd : RegNum) (s : State),
    decode (formatR 0x40 rd 0 0 0 0) = .ok (.rndb rd) ∧
    (∀ (f e : Byte) (u : State), s.initFlag = true → s.draws 2 = ([f, e], u) →
      exec (.rndb rd) s = .next { s with
        g := s.g.set rd ((f ^^^ s.pool.getD s.cur.toNat 0).setWidth 32), cmdcnt := s.cmdcnt + 1
        pool := (stirPool s.pool).set s.cur.toNat ((stirPool s.pool).getD s.cur.toNat 0 ^^^ e), cur := s.cur + 1
        entropy := u.entropy, drawn := s.drawn + 2 }) ∧
    (∀ (bs : List Byte) (f e : Byte) (u : State), s.initFlag = false → s.draws 258 = (bs ++ [f, e], u) →
      exec (.rndb rd) s = .next { s with
        g := s.g.set rd ((f ^^^ bs.getD 0 0).setWidth 32), cmdcnt := s.cmdcnt + 1
        pool := (stirPool bs).set 0 ((stirPool bs).getD 0 0 ^^^ e), cur := 1, initFlag := true
        entropy := u.entropy, drawn := s.drawn + 258 })

/-- R201 over R195: the command ends with the first `NextByte()` output that is not 0. That it ends in the step that
accepts it where it draws no more than `Config.candidatesPerStep` candidates is the model's choice (log entry 6). -/
def Obligations.RndnzDrawsUntilNonZero : Prop :=
  ∀ (rd : RegNum) (s u : State) (zeros : List Byte) (b : Byte), (∀ z ∈ zeros, z = 0) → b ≠ 0 →
    s.nextBytes (zeros.length + 1) = (zeros ++ [b], u) →
    let t : State := { s with
      g := s.g.set rd (b.setWidth 32), cmdcnt := s.cmdcnt + 1, pending := none
      pool := u.pool, cur := u.cur, initFlag := true, entropy := u.entropy, drawn := u.drawn }
    decode (formatR 0x41 rd 0 0 0 0) = .ok (.rndnz rd) ∧
    (zeros.length < Config.candidatesPerStep → exec (.rndnz rd) s = .next t) ∧
    ((∀ rest, s.bus ≠ .reset :: rest) → EndsIn (.rndnz rd) s t)

/-- R203 over R196: the fault before any draw; else the first output below the limit, modulo max. (The step it ends in:
log entry 6.) -/
def Obligations.RndintDrawsBelowMaxOrFaults : Prop :=
  ∀ (rd ra : RegNum) (s : State),
    let max := (s.readG ra).toInt
    let word := formatR 0x42 rd ra 0 0 0
    let limit := 256 - 256 % max.toNat
    decode word = .ok (.rndint rd ra) ∧
    (max ≤ 0 ∨ 256 < max → exec (.rndint rd ra) s = .next (s.faultEntry word ⟨.invalidArgument, 0, 0⟩)) ∧
    (∀ (u : State) (rejected : List Byte) (b : Byte), 0 < max → max ≤ 256 → (∀ z ∈ rejected, limit ≤ z.toNat) →
      b.toNat < limit → s.nextBytes (rejected.length + 1) = (rejected ++ [b], u) →
      let t : State := { s with
        g := s.g.set rd (BitVec.ofNat 32 (b.toNat % max.toNat)), cmdcnt := s.cmdcnt + 1, pending := none
        pool := u.pool, cur := u.cur, initFlag := true, entropy := u.entropy, drawn := u.drawn }
      (rejected.length < Config.candidatesPerStep → exec (.rndint rd ra) s = .next t) ∧
      ((∀ rest, s.bus ≠ .reset :: rest) → EndsIn (.rndint rd ra) s t))

/-- R204: both checks before any draw; then n successive `NextByte()` outputs at ascending addresses. -/
def Obligations.RndfillFillsTheRangeOrFaults : Prop :=
  ∀ (ra rb : RegNum) (s : State), s.spm.wf = true →
    let base := (s.readG ra).toNat
    let n := (s.readG rb).toInt
    let word := formatR 0x43 0 ra rb 0 0
    decode word = .ok (.rndfill ra rb) ∧
    (n ≤ 0 → exec (.rndfill ra rb) s = .next (s.faultEntry word ⟨.invalidArgument, 0, 0⟩)) ∧
    (0 < n → (Config.spmWords : Int) < base + n →
      exec (.rndfill ra rb) s = .next (s.faultEntry word ⟨.addressFault, 0, 0⟩)) ∧
    (∀ (out : List Byte) (u : State), 0 < n → base + n ≤ Config.spmWords → s.nextBytes n.toNat = (out, u) →
      ∃ m : Spm,
        exec (.rndfill ra rb) s = .next { s with
          spm := m, cmdcnt := s.cmdcnt + 1
          pool := u.pool, cur := u.cur, initFlag := true, entropy := u.entropy, drawn := u.drawn } ∧
        ∀ a : Nat, m.read a = if base ≤ a ∧ a < base + n then (out.getD (a - base) 0).setWidth 32 else s.readSpm a)

/-- R205: the checks and the completion without a draw in their order; else the command ends with the output that brings
the set of values to `count`, and the set is written in ascending order (`L`, without repeats). The model's loop draws
the same bytes as R205's nested one (log entry 13); the step it ends in: log entry 6. -/
def Obligations.RnduniqDrawsDistinctValuesOrFaults : Prop :=
  ∀ (ra rb rc : RegNum) (s : State), s.spm.wf = true →
    let base := (s.readG ra).toNat
    let count := (s.readG rb).toInt
    let max := (s.readG rc).toInt
    let limit := 256 - 256 % max.toNat
    let word := formatR 0x44 0 ra rb rc 0
    decode word = .ok (.rnduniq ra rb rc) ∧
    (max < count → exec (.rnduniq ra rb rc) s = .next (s.faultEntry word ⟨.invalidArgument, 0, 0⟩)) ∧
    (count ≤ max → count ≤ 0 → exec (.rnduniq ra rb rc) s = .next { s with cmdcnt := s.cmdcnt + 1 }) ∧
    (count ≤ max → 0 < count → 256 < max →
      exec (.rnduniq ra rb rc) s = .next (s.faultEntry word ⟨.invalidArgument, 1, 0⟩)) ∧
    (count ≤ max → 0 < count → max ≤ 256 → (Config.spmWords : Int) < base + count →
      exec (.rnduniq ra rb rc) s = .next (s.faultEntry word ⟨.addressFault, 0, 0⟩)) ∧
    (∀ (bs : List Byte) (b : Byte) (u : State) (L : List Byte), count ≤ max → 0 < count → max ≤ 256 →
      base + count ≤ Config.spmWords → s.nextBytes (bs.length + 1) = (bs ++ [b], u) →
      b.toNat < limit → (∀ c ∈ bs, c.toNat < limit → c.toNat % max.toNat ≠ b.toNat % max.toNat) →
      L.length = count → L.Pairwise (· < ·) →
      (∀ v : Byte, v ∈ L ↔ ∃ c ∈ bs ++ [b], c.toNat < limit ∧ c.toNat % max.toNat = v.toNat) →
      ∃ m : Spm,
        let t : State := { s with
          spm := m, cmdcnt := s.cmdcnt + 1, pending := none
          pool := u.pool, cur := u.cur, initFlag := true, entropy := u.entropy, drawn := u.drawn }
        (bs.length < Config.candidatesPerStep → exec (.rnduniq ra rb rc) s = .next t) ∧
        ((∀ rest, s.bus ≠ .reset :: rest) → EndsIn (.rnduniq ra rb rc) s t) ∧
        ∀ a : Nat, m.read a = if base ≤ a ∧ a < base + count then (L.getD (a - base) 0).setWidth 32 else s.readSpm a)

/-- R206 and R207: RNDCLR zeroes the pool, RNDSEED fills it with 256 draws; no other state changes. -/
def Obligations.RndclrAndRndseed : Prop :=
  ∀ s : State,
    decode 0x45000000 = .ok .rndclr ∧ decode 0x46000000 = .ok .rndseed ∧
    exec .rndclr s = .next { s with
      pool := List.replicate 256 0, cur := 0, initFlag := false, cmdcnt := s.cmdcnt + 1 } ∧
    (∀ (bs : List Byte) (u : State), s.draws 256 = (bs, u) →
      exec .rndseed s = .next { s with
        pool := bs, cur := 0, initFlag := true, cmdcnt := s.cmdcnt + 1, entropy := u.entropy, drawn := s.drawn + 256 })

/-! ## Generation -/

/-- R220: the checks in their order, before any draw; then the secret, K − 2 outputs of `NextByte()` and one of
`NextNonZero()`, written as a coefficient array. (The step it ends in: log entry 6.) -/
def Obligations.GenpolyDrawsAPolynomialOrFaults : Prop :=
  ∀ (ra rb rc : RegNum) (s : State), s.spm.wf = true →
    let base := (s.readG ra).toNat
    let secret := s.readG rb
    let K := (s.readG rc).toInt
    let word := formatR 0x22 0 ra rb rc 0
    decode word = .ok (.genpoly ra rb rc) ∧
    (K < 2 → exec (.genpoly ra rb rc) s = .next (s.faultEntry word ⟨.invalidThreshold, 0, 0⟩)) ∧
    (256 < K → exec (.genpoly ra rb rc) s = .next (s.faultEntry word ⟨.thresholdExceedsField, 0, 0⟩)) ∧
    (2 ≤ K → K ≤ 256 → 256 ≤ secret.toNat →
      exec (.genpoly ra rb rc) s = .next (s.faultEntry word ⟨.invalidSecret, 0, 0⟩)) ∧
    (2 ≤ K → K ≤ 256 → secret.toNat < 256 → (Config.spmWords : Int) < base + K →
      exec (.genpoly ra rb rc) s = .next (s.faultEntry word ⟨.addressFault, 0, 0⟩)) ∧
    (∀ (middle zeros : List Byte) (b : Byte) (u v : State), 2 ≤ K → K ≤ 256 → secret.toNat < 256 →
      base + K ≤ Config.spmWords → s.nextBytes (K.toNat - 2) = (middle, u) → (∀ z ∈ zeros, z = 0) → b ≠ 0 →
      u.nextBytes (zeros.length + 1) = (zeros ++ [b], v) →
      ∃ m : Spm,
        let t : State := { s with
          spm := m, cmdcnt := s.cmdcnt + 1, pending := none
          pool := v.pool, cur := v.cur, initFlag := true, entropy := v.entropy, drawn := v.drawn }
        (zeros.length < Config.candidatesPerStep → exec (.genpoly ra rb rc) s = .next t) ∧
        ((∀ rest, s.bus ≠ .reset :: rest) → EndsIn (.genpoly ra rb rc) s t) ∧
        ∀ a : Nat, m.read a =
          if base ≤ a ∧ a < base + K then ((secret.setWidth 8 :: middle ++ [b]).getD (a - base) 0).setWidth 32
          else s.readSpm a)

/-- R221: both checks before any draw; then the command ends with the output that brings the set of non-zero values to
`n`, written in ascending order (`L`). (The step it ends in: log entry 6.) -/
def Obligations.GenptsDrawsDistinctPointsOrFaults : Prop :=
  ∀ (ra rb : RegNum) (s : State), s.spm.wf = true →
    let base := (s.readG ra).toNat
    let n := (s.readG rb).toInt
    let word := formatR 0x23 0 ra rb 0 0
    decode word = .ok (.genpts ra rb) ∧
    (n < 1 ∨ 255 < n → exec (.genpts ra rb) s = .next (s.faultEntry word ⟨.invalidArgument, 0, 0⟩)) ∧
    (1 ≤ n → n ≤ 255 → (Config.spmWords : Int) < base + n →
      exec (.genpts ra rb) s = .next (s.faultEntry word ⟨.addressFault, 0, 0⟩)) ∧
    (∀ (bs : List Byte) (b : Byte) (u : State) (L : List Byte), 1 ≤ n → n ≤ 255 → base + n ≤ Config.spmWords →
      s.nextBytes (bs.length + 1) = (bs ++ [b], u) → b ≠ 0 → b ∉ bs → L.length = n → L.Pairwise (· < ·) →
      (∀ v : Byte, v ∈ L ↔ v ∈ bs ++ [b] ∧ v ≠ 0) →
      ∃ m : Spm,
        let t : State := { s with
          spm := m, cmdcnt := s.cmdcnt + 1, pending := none
          pool := u.pool, cur := u.cur, initFlag := true, entropy := u.entropy, drawn := u.drawn }
        (bs.length < Config.candidatesPerStep → exec (.genpts ra rb) s = .next t) ∧
        ((∀ rest, s.bus ≠ .reset :: rest) → EndsIn (.genpts ra rb) s t) ∧
        ∀ a : Nat, m.read a = if base ≤ a ∧ a < base + n then (L.getD (a - base) 0).setWidth 32 else s.readSpm a)

/-! ## The mathematics -/

/-- R141, R142: GFMul is multiplication of polynomials over GF(2), the bits being the coefficients, reduced modulo
x^8 + x^4 + x^3 + x + 1; XTime is multiplication by x; 0 has no inverse. -/
def Obligations.GfmulIsPolynomialMultiplication : Prop :=
  let P : Byte → Polynomial (ZMod 2) := fun v =>
    ∑ k ∈ Finset.range 8, if v.getLsbD k then (Polynomial.X : Polynomial (ZMod 2)) ^ k else 0
  (∀ a b : Byte, P (gfMul a b) =
    (P a * P b) %ₘ
      (Polynomial.X ^ 8 + Polynomial.X ^ 4 + Polynomial.X ^ 3 + Polynomial.X + 1 : Polynomial (ZMod 2))) ∧
  (∀ a : Byte, xtime a = gfMul a 0x02 ∧ xtime a = (a <<< 1) ^^^ (if a.getLsbD 7 then 0x1B else 0x00)) ∧
  (∀ a b : Byte, P a = P b → a = b) ∧
  (∀ b : Byte, gfMul 0 b ≠ 1)

/-- R147: the laws of the field. -/
def Obligations.FieldLaws : Prop :=
  (∀ a : Byte, a ^^^ a = 0 ∧ gfMul a 0 = 0 ∧ gfMul a 1 = a) ∧
  (∀ a : Byte, a ≠ 0 → gfMul a (gfInv a) = 1) ∧
  (∀ a b : Byte, gfMul a b = gfMul b a) ∧
  (∀ a b c : Byte, gfMul (gfMul a b) c = gfMul a (gfMul b c)) ∧
  (∀ a b c : Byte, gfMul a (b ^^^ c) = gfMul a b ^^^ gfMul a c) ∧
  (∀ a b : Byte, gfMul a b = 0 → a = 0 ∨ b = 0)

/-- R144, R145: GFInv(a) is the unique element with product 1, and it is a^254; what GFDiv is. -/
def Obligations.InverseIsUnique : Prop :=
  (∀ a b : Byte, a ≠ 0 → (gfMul a b = 1 ↔ b = gfInv a)) ∧
  (∀ a : Byte, a ≠ 0 → gfInv a ≠ 0 ∧ gfInv a = gfPow a 254) ∧
  (∀ a b : Byte, b ≠ 0 → gfDiv a b = gfMul a (gfInv b) ∧ gfMul (gfDiv a b) b = a ∧ gfDiv 0 b = 0 ∧ gfDiv b b = 1)

/-- R170: Horner's scheme gives the polynomial's value, term by term. -/
def Obligations.HornerIsThePolynomialsValue : Prop :=
  (∀ (cs : List Byte) (x : Byte), horner cs x = polySum x 0 cs) ∧
  (∀ (c : Byte) (cs : List Byte), horner (c :: cs) 0 = c) ∧
  (∀ c x : Byte, horner [c] x = c)

/-- R182: n ≥ K points of a polynomial of K coefficients, in whatever order, give its constant term; fewer need not. -/
def Obligations.EnoughPointsGiveTheConstantTerm : Prop :=
  (∀ cs xs : List Byte, cs ≠ [] → xs.Nodup → cs.length ≤ xs.length → lagrange0 (sharesOf cs xs) = cs.headD 0) ∧
  lagrange0 (sharesOf [0xC8, 0x1D, 0x4F] [1, 2]) = 0x56

/-- R180: for distinct xs, Lagrange0 is the value at 0 of the unique polynomial of n coefficients through the points;
for one point it is its y; the order of the points does not matter. -/
def Obligations.LagrangeIsTheUniquePolynomialAtZero : Prop :=
  (∀ points : List (Byte × Byte), points ≠ [] → (points.map Prod.fst).Nodup →
    ∃! cs : List Byte, cs.length = points.length ∧ ∀ p ∈ points, horner cs p.1 = p.2) ∧
  (∀ (points : List (Byte × Byte)) (cs : List Byte), points ≠ [] → (points.map Prod.fst).Nodup →
    cs.length = points.length → (∀ p ∈ points, horner cs p.1 = p.2) → lagrange0 points = horner cs 0) ∧
  (∀ x y : Byte, lagrange0 [(x, y)] = y) ∧
  (∀ points points' : List (Byte × Byte), (points.map Prod.fst).Nodup → points.Perm points' →
    lagrange0 points = lagrange0 points')

/-- R233: RECON on any n ≥ K shares of a polynomial of K coefficients, at distinct non-zero points and in any order,
returns its constant term; with fewer than K shares it is InsufficientShares, whatever they hold. -/
def Obligations.ReconReturnsTheSecret : Prop :=
  ∀ (rd ra rb rc : RegNum) (s : State),
    (∀ cs xs : List Byte, cs ≠ [] → xs.Nodup → 0 ∉ xs → cs.length ≤ xs.length →
      (s.readG rb).toInt = xs.length → (s.readG rc).toInt = cs.length →
      (s.readG ra).toNat + 2 * xs.length ≤ Config.spmWords → s.holdsShares (s.readG ra).toNat (sharesOf cs xs) →
      exec (.recon rd ra rb rc) s = .next { s with
        g := s.g.set rd ((cs.headD 0).setWidth 32), cmdcnt := s.cmdcnt + 1 }) ∧
    (0 < (s.readG rb).toInt → (s.readG rb).toInt < (s.readG rc).toInt →
      exec (.recon rd ra rb rc) s = .next (s.faultEntry (encode (.recon rd ra rb rc)) ⟨.insufficientShares, 0, 0⟩))
end

