-- ==== Sys2Proof/Laws/State.lean ====
section
/-! SUPPORT. What each update of the state does to each field: one lemma a field and update, true by `rfl`. -/

namespace Sys2Proof.Machine

@[simp] theorem State.writeG_g (s : State) (i : RegNum) (v : Word) : (s.writeG i v).g = s.g.set i v := rfl
@[simp] theorem State.writeG_cmdcnt (s : State) (i : RegNum) (v : Word) : (s.writeG i v).cmdcnt = s.cmdcnt := rfl
@[simp] theorem State.writeG_faultFlag (s : State) (i : RegNum) (v : Word) : (s.writeG i v).faultFlag = s.faultFlag := rfl
@[simp] theorem State.writeG_dropFlag (s : State) (i : RegNum) (v : Word) : (s.writeG i v).dropFlag = s.dropFlag := rfl
@[simp] theorem State.writeG_initFlag (s : State) (i : RegNum) (v : Word) : (s.writeG i v).initFlag = s.initFlag := rfl
@[simp] theorem State.writeG_fie (s : State) (i : RegNum) (v : Word) : (s.writeG i v).fie = s.fie := rfl
@[simp] theorem State.writeG_fcause (s : State) (i : RegNum) (v : Word) : (s.writeG i v).fcause = s.fcause := rfl
@[simp] theorem State.writeG_fcmd (s : State) (i : RegNum) (v : Word) : (s.writeG i v).fcmd = s.fcmd := rfl
@[simp] theorem State.writeG_fidx (s : State) (i : RegNum) (v : Word) : (s.writeG i v).fidx = s.fidx := rfl
@[simp] theorem State.writeG_fgrp (s : State) (i : RegNum) (v : Word) : (s.writeG i v).fgrp = s.fgrp := rfl
@[simp] theorem State.writeG_fseq (s : State) (i : RegNum) (v : Word) : (s.writeG i v).fseq = s.fseq := rfl
@[simp] theorem State.writeG_pool (s : State) (i : RegNum) (v : Word) : (s.writeG i v).pool = s.pool := rfl
@[simp] theorem State.writeG_cur (s : State) (i : RegNum) (v : Word) : (s.writeG i v).cur = s.cur := rfl
@[simp] theorem State.writeG_spm (s : State) (i : RegNum) (v : Word) : (s.writeG i v).spm = s.spm := rfl
@[simp] theorem State.writeG_pending (s : State) (i : RegNum) (v : Word) : (s.writeG i v).pending = s.pending := rfl
@[simp] theorem State.writeG_bus (s : State) (i : RegNum) (v : Word) : (s.writeG i v).bus = s.bus := rfl
@[simp] theorem State.writeG_readData (s : State) (i : RegNum) (v : Word) : (s.writeG i v).readData = s.readData := rfl
@[simp] theorem State.writeG_entropy (s : State) (i : RegNum) (v : Word) : (s.writeG i v).entropy = s.entropy := rfl
@[simp] theorem State.writeG_drawn (s : State) (i : RegNum) (v : Word) : (s.writeG i v).drawn = s.drawn := rfl

@[simp] theorem State.writeSpm_g (s : State) (a : Nat) (v : Word) : (s.writeSpm a v).g = s.g := rfl
@[simp] theorem State.writeSpm_cmdcnt (s : State) (a : Nat) (v : Word) : (s.writeSpm a v).cmdcnt = s.cmdcnt := rfl
@[simp] theorem State.writeSpm_faultFlag (s : State) (a : Nat) (v : Word) : (s.writeSpm a v).faultFlag = s.faultFlag := rfl
@[simp] theorem State.writeSpm_dropFlag (s : State) (a : Nat) (v : Word) : (s.writeSpm a v).dropFlag = s.dropFlag := rfl
@[simp] theorem State.writeSpm_initFlag (s : State) (a : Nat) (v : Word) : (s.writeSpm a v).initFlag = s.initFlag := rfl
@[simp] theorem State.writeSpm_fie (s : State) (a : Nat) (v : Word) : (s.writeSpm a v).fie = s.fie := rfl
@[simp] theorem State.writeSpm_fcause (s : State) (a : Nat) (v : Word) : (s.writeSpm a v).fcause = s.fcause := rfl
@[simp] theorem State.writeSpm_fcmd (s : State) (a : Nat) (v : Word) : (s.writeSpm a v).fcmd = s.fcmd := rfl
@[simp] theorem State.writeSpm_fidx (s : State) (a : Nat) (v : Word) : (s.writeSpm a v).fidx = s.fidx := rfl
@[simp] theorem State.writeSpm_fgrp (s : State) (a : Nat) (v : Word) : (s.writeSpm a v).fgrp = s.fgrp := rfl
@[simp] theorem State.writeSpm_fseq (s : State) (a : Nat) (v : Word) : (s.writeSpm a v).fseq = s.fseq := rfl
@[simp] theorem State.writeSpm_pool (s : State) (a : Nat) (v : Word) : (s.writeSpm a v).pool = s.pool := rfl
@[simp] theorem State.writeSpm_cur (s : State) (a : Nat) (v : Word) : (s.writeSpm a v).cur = s.cur := rfl
@[simp] theorem State.writeSpm_spm (s : State) (a : Nat) (v : Word) : (s.writeSpm a v).spm = s.spm.write a v := rfl
@[simp] theorem State.writeSpm_pending (s : State) (a : Nat) (v : Word) : (s.writeSpm a v).pending = s.pending := rfl
@[simp] theorem State.writeSpm_bus (s : State) (a : Nat) (v : Word) : (s.writeSpm a v).bus = s.bus := rfl
@[simp] theorem State.writeSpm_readData (s : State) (a : Nat) (v : Word) : (s.writeSpm a v).readData = s.readData := rfl
@[simp] theorem State.writeSpm_entropy (s : State) (a : Nat) (v : Word) : (s.writeSpm a v).entropy = s.entropy := rfl
@[simp] theorem State.writeSpm_drawn (s : State) (a : Nat) (v : Word) : (s.writeSpm a v).drawn = s.drawn := rfl

@[simp] theorem State.memWrite_g (s : State) (a : Nat) (vs : List Word) : (s.memWrite a vs).g = s.g := rfl
@[simp] theorem State.memWrite_cmdcnt (s : State) (a : Nat) (vs : List Word) : (s.memWrite a vs).cmdcnt = s.cmdcnt := rfl
@[simp] theorem State.memWrite_faultFlag (s : State) (a : Nat) (vs : List Word) : (s.memWrite a vs).faultFlag = s.faultFlag := rfl
@[simp] theorem State.memWrite_dropFlag (s : State) (a : Nat) (vs : List Word) : (s.memWrite a vs).dropFlag = s.dropFlag := rfl
@[simp] theorem State.memWrite_initFlag (s : State) (a : Nat) (vs : List Word) : (s.memWrite a vs).initFlag = s.initFlag := rfl
@[simp] theorem State.memWrite_fie (s : State) (a : Nat) (vs : List Word) : (s.memWrite a vs).fie = s.fie := rfl
@[simp] theorem State.memWrite_fcause (s : State) (a : Nat) (vs : List Word) : (s.memWrite a vs).fcause = s.fcause := rfl
@[simp] theorem State.memWrite_fcmd (s : State) (a : Nat) (vs : List Word) : (s.memWrite a vs).fcmd = s.fcmd := rfl
@[simp] theorem State.memWrite_fidx (s : State) (a : Nat) (vs : List Word) : (s.memWrite a vs).fidx = s.fidx := rfl
@[simp] theorem State.memWrite_fgrp (s : State) (a : Nat) (vs : List Word) : (s.memWrite a vs).fgrp = s.fgrp := rfl
@[simp] theorem State.memWrite_fseq (s : State) (a : Nat) (vs : List Word) : (s.memWrite a vs).fseq = s.fseq := rfl
@[simp] theorem State.memWrite_pool (s : State) (a : Nat) (vs : List Word) : (s.memWrite a vs).pool = s.pool := rfl
@[simp] theorem State.memWrite_cur (s : State) (a : Nat) (vs : List Word) : (s.memWrite a vs).cur = s.cur := rfl
@[simp] theorem State.memWrite_spm (s : State) (a : Nat) (vs : List Word) : (s.memWrite a vs).spm = s.spm.writeList a vs := rfl
@[simp] theorem State.memWrite_pending (s : State) (a : Nat) (vs : List Word) : (s.memWrite a vs).pending = s.pending := rfl
@[simp] theorem State.memWrite_bus (s : State) (a : Nat) (vs : List Word) : (s.memWrite a vs).bus = s.bus := rfl
@[simp] theorem State.memWrite_readData (s : State) (a : Nat) (vs : List Word) : (s.memWrite a vs).readData = s.readData := rfl
@[simp] theorem State.memWrite_entropy (s : State) (a : Nat) (vs : List Word) : (s.memWrite a vs).entropy = s.entropy := rfl
@[simp] theorem State.memWrite_drawn (s : State) (a : Nat) (vs : List Word) : (s.memWrite a vs).drawn = s.drawn := rfl

@[simp] theorem State.faultEntry_g (s : State) (w : Word) (f : Raise) : (s.faultEntry w f).g = s.g := rfl
@[simp] theorem State.faultEntry_cmdcnt (s : State) (w : Word) (f : Raise) : (s.faultEntry w f).cmdcnt = s.cmdcnt + 1 := rfl
@[simp] theorem State.faultEntry_faultFlag (s : State) (w : Word) (f : Raise) : (s.faultEntry w f).faultFlag = true := rfl
@[simp] theorem State.faultEntry_dropFlag (s : State) (w : Word) (f : Raise) : (s.faultEntry w f).dropFlag = s.dropFlag := rfl
@[simp] theorem State.faultEntry_initFlag (s : State) (w : Word) (f : Raise) : (s.faultEntry w f).initFlag = s.initFlag := rfl
@[simp] theorem State.faultEntry_fie (s : State) (w : Word) (f : Raise) : (s.faultEntry w f).fie = s.fie := rfl
@[simp] theorem State.faultEntry_fcause (s : State) (w : Word) (f : Raise) : (s.faultEntry w f).fcause = f.cause.code := rfl
@[simp] theorem State.faultEntry_fcmd (s : State) (w : Word) (f : Raise) : (s.faultEntry w f).fcmd = w := rfl
@[simp] theorem State.faultEntry_fidx (s : State) (w : Word) (f : Raise) : (s.faultEntry w f).fidx = f.idx := rfl
@[simp] theorem State.faultEntry_fgrp (s : State) (w : Word) (f : Raise) : (s.faultEntry w f).fgrp = f.grp := rfl
@[simp] theorem State.faultEntry_fseq (s : State) (w : Word) (f : Raise) : (s.faultEntry w f).fseq = s.cmdcnt := rfl
@[simp] theorem State.faultEntry_pool (s : State) (w : Word) (f : Raise) : (s.faultEntry w f).pool = s.pool := rfl
@[simp] theorem State.faultEntry_cur (s : State) (w : Word) (f : Raise) : (s.faultEntry w f).cur = s.cur := rfl
@[simp] theorem State.faultEntry_spm (s : State) (w : Word) (f : Raise) : (s.faultEntry w f).spm = s.spm := rfl
@[simp] theorem State.faultEntry_pending (s : State) (w : Word) (f : Raise) : (s.faultEntry w f).pending = s.pending := rfl
@[simp] theorem State.faultEntry_bus (s : State) (w : Word) (f : Raise) : (s.faultEntry w f).bus = s.bus := rfl
@[simp] theorem State.faultEntry_readData (s : State) (w : Word) (f : Raise) : (s.faultEntry w f).readData = s.readData := rfl
@[simp] theorem State.faultEntry_entropy (s : State) (w : Word) (f : Raise) : (s.faultEntry w f).entropy = s.entropy := rfl
@[simp] theorem State.faultEntry_drawn (s : State) (w : Word) (f : Raise) : (s.faultEntry w f).drawn = s.drawn := rfl

@[simp] theorem State.complete_g (s : State) : (s.complete).g = s.g := rfl
@[simp] theorem State.complete_cmdcnt (s : State) : (s.complete).cmdcnt = s.cmdcnt + 1 := rfl
@[simp] theorem State.complete_faultFlag (s : State) : (s.complete).faultFlag = s.faultFlag := rfl
@[simp] theorem State.complete_dropFlag (s : State) : (s.complete).dropFlag = s.dropFlag := rfl
@[simp] theorem State.complete_initFlag (s : State) : (s.complete).initFlag = s.initFlag := rfl
@[simp] theorem State.complete_fie (s : State) : (s.complete).fie = s.fie := rfl
@[simp] theorem State.complete_fcause (s : State) : (s.complete).fcause = s.fcause := rfl
@[simp] theorem State.complete_fcmd (s : State) : (s.complete).fcmd = s.fcmd := rfl
@[simp] theorem State.complete_fidx (s : State) : (s.complete).fidx = s.fidx := rfl
@[simp] theorem State.complete_fgrp (s : State) : (s.complete).fgrp = s.fgrp := rfl
@[simp] theorem State.complete_fseq (s : State) : (s.complete).fseq = s.fseq := rfl
@[simp] theorem State.complete_pool (s : State) : (s.complete).pool = s.pool := rfl
@[simp] theorem State.complete_cur (s : State) : (s.complete).cur = s.cur := rfl
@[simp] theorem State.complete_spm (s : State) : (s.complete).spm = s.spm := rfl
@[simp] theorem State.complete_pending (s : State) : (s.complete).pending = s.pending := rfl
@[simp] theorem State.complete_bus (s : State) : (s.complete).bus = s.bus := rfl
@[simp] theorem State.complete_readData (s : State) : (s.complete).readData = s.readData := rfl
@[simp] theorem State.complete_entropy (s : State) : (s.complete).entropy = s.entropy := rfl
@[simp] theorem State.complete_drawn (s : State) : (s.complete).drawn = s.drawn := rfl

@[simp] theorem State.drop_g (s : State) : (s.drop).g = s.g := rfl
@[simp] theorem State.drop_cmdcnt (s : State) : (s.drop).cmdcnt = s.cmdcnt := rfl
@[simp] theorem State.drop_faultFlag (s : State) : (s.drop).faultFlag = s.faultFlag := rfl
@[simp] theorem State.drop_dropFlag (s : State) : (s.drop).dropFlag = true := rfl
@[simp] theorem State.drop_initFlag (s : State) : (s.drop).initFlag = s.initFlag := rfl
@[simp] theorem State.drop_fie (s : State) : (s.drop).fie = s.fie := rfl
@[simp] theorem State.drop_fcause (s : State) : (s.drop).fcause = s.fcause := rfl
@[simp] theorem State.drop_fcmd (s : State) : (s.drop).fcmd = s.fcmd := rfl
@[simp] theorem State.drop_fidx (s : State) : (s.drop).fidx = s.fidx := rfl
@[simp] theorem State.drop_fgrp (s : State) : (s.drop).fgrp = s.fgrp := rfl
@[simp] theorem State.drop_fseq (s : State) : (s.drop).fseq = s.fseq := rfl
@[simp] theorem State.drop_pool (s : State) : (s.drop).pool = s.pool := rfl
@[simp] theorem State.drop_cur (s : State) : (s.drop).cur = s.cur := rfl
@[simp] theorem State.drop_spm (s : State) : (s.drop).spm = s.spm := rfl
@[simp] theorem State.drop_pending (s : State) : (s.drop).pending = s.pending := rfl
@[simp] theorem State.drop_bus (s : State) : (s.drop).bus = s.bus := rfl
@[simp] theorem State.drop_readData (s : State) : (s.drop).readData = s.readData := rfl
@[simp] theorem State.drop_entropy (s : State) : (s.drop).entropy = s.entropy := rfl
@[simp] theorem State.drop_drawn (s : State) : (s.drop).drawn = s.drawn := rfl

@[simp] theorem State.clearFault_g (s : State) : (s.clearFault).g = s.g := rfl
@[simp] theorem State.clearFault_cmdcnt (s : State) : (s.clearFault).cmdcnt = s.cmdcnt := rfl
@[simp] theorem State.clearFault_faultFlag (s : State) : (s.clearFault).faultFlag = false := rfl
@[simp] theorem State.clearFault_dropFlag (s : State) : (s.clearFault).dropFlag = false := rfl
@[simp] theorem State.clearFault_initFlag (s : State) : (s.clearFault).initFlag = s.initFlag := rfl
@[simp] theorem State.clearFault_fie (s : State) : (s.clearFault).fie = s.fie := rfl
@[simp] theorem State.clearFault_fcause (s : State) : (s.clearFault).fcause = 0 := rfl
@[simp] theorem State.clearFault_fcmd (s : State) : (s.clearFault).fcmd = 0 := rfl
@[simp] theorem State.clearFault_fidx (s : State) : (s.clearFault).fidx = 0 := rfl
@[simp] theorem State.clearFault_fgrp (s : State) : (s.clearFault).fgrp = 0 := rfl
@[simp] theorem State.clearFault_fseq (s : State) : (s.clearFault).fseq = 0 := rfl
@[simp] theorem State.clearFault_pool (s : State) : (s.clearFault).pool = s.pool := rfl
@[simp] theorem State.clearFault_cur (s : State) : (s.clearFault).cur = s.cur := rfl
@[simp] theorem State.clearFault_spm (s : State) : (s.clearFault).spm = s.spm := rfl
@[simp] theorem State.clearFault_pending (s : State) : (s.clearFault).pending = s.pending := rfl
@[simp] theorem State.clearFault_bus (s : State) : (s.clearFault).bus = s.bus := rfl
@[simp] theorem State.clearFault_readData (s : State) : (s.clearFault).readData = s.readData := rfl
@[simp] theorem State.clearFault_entropy (s : State) : (s.clearFault).entropy = s.entropy := rfl
@[simp] theorem State.clearFault_drawn (s : State) : (s.clearFault).drawn = s.drawn := rfl

@[simp] theorem State.applyReset_g (s : State) : (s.applyReset).g = Vector.replicate 16 0 := rfl
@[simp] theorem State.applyReset_cmdcnt (s : State) : (s.applyReset).cmdcnt = 0 := rfl
@[simp] theorem State.applyReset_faultFlag (s : State) : (s.applyReset).faultFlag = false := rfl
@[simp] theorem State.applyReset_dropFlag (s : State) : (s.applyReset).dropFlag = false := rfl
@[simp] theorem State.applyReset_initFlag (s : State) : (s.applyReset).initFlag = false := rfl
@[simp] theorem State.applyReset_fie (s : State) : (s.applyReset).fie = false := rfl
@[simp] theorem State.applyReset_fcause (s : State) : (s.applyReset).fcause = 0 := rfl
@[simp] theorem State.applyReset_fcmd (s : State) : (s.applyReset).fcmd = 0 := rfl
@[simp] theorem State.applyReset_fidx (s : State) : (s.applyReset).fidx = 0 := rfl
@[simp] theorem State.applyReset_fgrp (s : State) : (s.applyReset).fgrp = 0 := rfl
@[simp] theorem State.applyReset_fseq (s : State) : (s.applyReset).fseq = 0 := rfl
@[simp] theorem State.applyReset_pool (s : State) : (s.applyReset).pool = List.replicate 256 0 := rfl
@[simp] theorem State.applyReset_cur (s : State) : (s.applyReset).cur = 0 := rfl
@[simp] theorem State.applyReset_spm (s : State) : (s.applyReset).spm = [] := rfl
@[simp] theorem State.applyReset_pending (s : State) : (s.applyReset).pending = none := rfl
@[simp] theorem State.applyReset_bus (s : State) : (s.applyReset).bus = s.bus := rfl
@[simp] theorem State.applyReset_readData (s : State) : (s.applyReset).readData = none := rfl
@[simp] theorem State.applyReset_entropy (s : State) : (s.applyReset).entropy = s.entropy := rfl
@[simp] theorem State.applyReset_drawn (s : State) : (s.applyReset).drawn = s.drawn := rfl

/-- A register reads what was written to it. -/
theorem State.readG_writeG_same (s : State) (i : RegNum) (v : Word) : (s.writeG i v).readG i = v := by
  simp [State.readG, State.writeG]

/-- A register keeps its value when another is written. -/
theorem State.readG_writeG_other (s : State) {i j : RegNum} (v : Word) (h : j ≠ i) :
    (s.writeG i v).readG j = s.readG j := by
  have h' : i.val ≠ j.val := fun e => h (Fin.ext e.symm)
  simp [State.readG, State.writeG, Vector.getElem_set_ne, h']

/-- Both in one: reading a register after a write. -/
theorem State.readG_writeG (s : State) (i j : RegNum) (v : Word) :
    (s.writeG i v).readG j = if j = i then v else s.readG j := by
  by_cases h : j = i
  · subst h; simp [State.readG_writeG_same]
  · simp [h, State.readG_writeG_other]

end Sys2Proof.Machine
end

