-- ==== Sys2Proof/Laws/Csprng.lean ====
section
/-! SUPPORT. What a draw does and what it leaves alone (44_csprng.md R190 to R194), and the set a resampling command
builds (R205, R221). -/

namespace Sys2Proof.Machine

theorem State.SameButDraws.refl (s : State) : s.SameButDraws s := rfl

theorem State.SameButDraws.trans {s t u : State} (h1 : s.SameButDraws t) (h2 : t.SameButDraws u) :
    s.SameButDraws u := by
  simp only [State.SameButDraws] at *
  rw [h2, h1]

theorem State.entropyByte_frame (s : State) : s.SameButDraws s.entropyByte.2 := by
  unfold State.entropyByte
  split <;> rfl

/-- Taking an entropy byte leaves the pool, its cursor and INIT alone and counts one draw (R190). -/
theorem State.entropyByte_pool (s : State) :
    s.entropyByte.2.pool = s.pool ∧ s.entropyByte.2.cur = s.cur ∧ s.entropyByte.2.initFlag = s.initFlag ∧
      s.entropyByte.2.drawn = s.drawn + 1 := by
  unfold State.entropyByte
  split <;> simp

theorem State.draws_succ (n : Nat) (s : State) :
    s.draws (n + 1) = (s.entropyByte.1 :: (s.entropyByte.2.draws n).1, (s.entropyByte.2.draws n).2) := rfl

theorem State.draws_frame (n : Nat) (s : State) : s.SameButDraws (s.draws n).2 := by
  induction n generalizing s with
  | zero => rfl
  | succ n ih => exact (State.entropyByte_frame s).trans (ih _)

theorem State.draws_length (n : Nat) (s : State) : (s.draws n).1.length = n := by
  induction n generalizing s with
  | zero => rfl
  | succ n ih => simp [State.draws_succ, ih]

/-- `n` draws take `n` bytes from the source and leave the pool, its cursor and INIT alone. -/
theorem State.draws_pool (n : Nat) (s : State) :
    (s.draws n).2.pool = s.pool ∧ (s.draws n).2.cur = s.cur ∧ (s.draws n).2.initFlag = s.initFlag ∧
      (s.draws n).2.drawn = s.drawn + n := by
  induction n generalizing s with
  | zero => simp [State.draws]
  | succ n ih =>
    have h1 := State.entropyByte_pool s
    have h2 := ih s.entropyByte.2
    simp only [State.draws_succ]
    refine ⟨h2.1.trans h1.1, h2.2.1.trans h1.2.1, h2.2.2.1.trans h1.2.2.1, ?_⟩
    rw [h2.2.2.2, h1.2.2.2]
    omega

theorem State.reseed_eq (s : State) :
    s.reseed = { (s.draws 256).2 with pool := (s.draws 256).1, cur := 0, initFlag := true } := by
  unfold State.reseed
  generalize s.draws 256 = r
  rfl

theorem State.reseed_frame (s : State) : s.SameButDraws s.reseed := by
  have h := State.draws_frame 256 s
  rw [State.reseed_eq]
  simp only [State.SameButDraws] at *
  rw [h]

theorem rotatePool_length (p : List Byte) : (rotatePool p).length = p.length := by
  cases p <;> simp [rotatePool]

theorem xorPass_length (first carry : Byte) (p : List Byte) : (xorPass first carry p).length = p.length := by
  induction p generalizing carry with
  | nil => rfl
  | cons x p ih =>
    cases p with
    | nil => rfl
    | cons y p => simp only [xorPass, List.length_cons, ih]

theorem stirPool_length (p : List Byte) : (stirPool p).length = p.length := by
  simp [stirPool, xorPass_length, rotatePool_length]

theorem State.mix_eq (s : State) :
    s.mix = { s.entropyByte.2 with
      pool := (stirPool s.entropyByte.2.pool).set s.entropyByte.2.cur.toNat
        ((stirPool s.entropyByte.2.pool).getD s.entropyByte.2.cur.toNat 0 ^^^ s.entropyByte.1)
      cur := s.entropyByte.2.cur + 1 } := rfl

theorem State.mix_frame (s : State) : s.SameButDraws s.mix := by
  have h := State.entropyByte_frame s
  rw [State.mix_eq]
  simp only [State.SameButDraws] at *
  rw [h]

/-- `Mix()` keeps the pool's size and INIT, moves the cursor by one and makes one draw (R191, R192). -/
theorem State.mix_effect (s : State) :
    s.mix.pool.length = s.pool.length ∧ s.mix.cur = s.cur + 1 ∧ s.mix.initFlag = s.initFlag ∧
      s.mix.drawn = s.drawn + 1 := by
  have h := State.entropyByte_pool s
  rw [State.mix_eq]
  simp [stirPool_length, h]

theorem State.ensureInit_frame (s : State) : s.SameButDraws s.ensureInit := by
  unfold State.ensureInit
  split
  · rfl
  · exact State.reseed_frame s

/-- After the lazy initialisation INIT is 1, and a pool of 256 bytes is one still. -/
theorem State.ensureInit_effect (s : State) :
    s.ensureInit.initFlag = true ∧ (s.pool.length = 256 → s.ensureInit.pool.length = 256) := by
  unfold State.ensureInit
  split
  · rename_i h
    exact ⟨h, id⟩
  · have h := State.draws_length 256 s
    rw [State.reseed_eq]
    generalize s.draws 256 = r at *
    exact ⟨rfl, fun _ => h⟩

theorem State.nextByte_eq (s : State) :
    s.nextByte = (s.ensureInit.entropyByte.1 ^^^
        s.ensureInit.entropyByte.2.pool.getD s.ensureInit.entropyByte.2.cur.toNat 0,
      s.ensureInit.entropyByte.2.mix) := rfl

/-- All that `NextByte()` can change. -/
theorem State.nextByte_frame (s : State) : s.SameButDraws s.nextByte.2 :=
  (State.ensureInit_frame s).trans ((State.entropyByte_frame _).trans (State.mix_frame _))

/-- After `NextByte()` INIT is 1, and a pool of 256 bytes is one still. -/
theorem State.nextByte_effect (s : State) :
    s.nextByte.2.initFlag = true ∧ (s.pool.length = 256 → s.nextByte.2.pool.length = 256) := by
  have h1 := State.ensureInit_effect s
  have h2 := State.entropyByte_pool s.ensureInit
  have h3 := State.mix_effect s.ensureInit.entropyByte.2
  rw [State.nextByte_eq]
  refine ⟨h3.2.2.1.trans (h2.2.2.1.trans h1.1), fun h => ?_⟩
  rw [h3.1, h2.1]
  exact h1.2 h

theorem State.nextBytes_succ (n : Nat) (s : State) :
    s.nextBytes (n + 1) = (s.nextByte.1 :: (s.nextByte.2.nextBytes n).1, (s.nextByte.2.nextBytes n).2) := rfl

theorem State.nextBytes_frame (n : Nat) (s : State) : s.SameButDraws (s.nextBytes n).2 := by
  induction n generalizing s with
  | zero => rfl
  | succ n ih => exact (State.nextByte_frame s).trans (ih _)

theorem State.nextBytes_length (n : Nat) (s : State) : (s.nextBytes n).1.length = n := by
  induction n generalizing s with
  | zero => rfl
  | succ n ih => simp [State.nextBytes_succ, ih]

theorem State.nextBytes_effect (n : Nat) (s : State) :
    (s.pool.length = 256 → (s.nextBytes n).2.pool.length = 256) ∧
      (s.initFlag = true → (s.nextBytes n).2.initFlag = true) ∧ (0 < n → (s.nextBytes n).2.initFlag = true) := by
  induction n generalizing s with
  | zero => simp [State.nextBytes]
  | succ n ih =>
    have h := State.nextByte_effect s
    have h2 := ih s.nextByte.2
    rw [State.nextBytes_succ]
    exact ⟨fun hp => h2.1 (h.2 hp), fun _ => h2.2.1 h.1, fun _ => h2.2.1 h.1⟩

/-- `s` and `t` hold the same pool, cursor and INIT and stand at the same place of the entropy source. -/
def State.SameSource (s t : State) : Prop :=
  t.pool = s.pool ∧ t.cur = s.cur ∧ t.initFlag = s.initFlag ∧ t.entropy = s.entropy ∧ t.drawn = s.drawn

theorem State.entropyByte_congr {s t : State} (h : s.SameSource t) :
    t.entropyByte.1 = s.entropyByte.1 ∧ s.entropyByte.2.SameSource t.entropyByte.2 := by
  obtain ⟨h1, h2, h3, h4, h5⟩ := h
  unfold State.entropyByte
  rw [h4]
  cases s.entropy <;> simp [State.SameSource, h1, h2, h3, h5]

theorem State.draws_congr (n : Nat) {s t : State} (h : s.SameSource t) :
    (t.draws n).1 = (s.draws n).1 ∧ (s.draws n).2.SameSource (t.draws n).2 := by
  induction n generalizing s t with
  | zero => exact ⟨rfl, h⟩
  | succ n ih =>
    have h1 := State.entropyByte_congr h
    have h2 := ih h1.2
    simp only [State.draws_succ]
    exact ⟨by rw [h1.1, h2.1], h2.2⟩

theorem State.mix_congr {s t : State} (h : s.SameSource t) : s.mix.SameSource t.mix := by
  obtain ⟨h1, h2, h3, h4, h5, h6⟩ := State.entropyByte_congr h
  rw [State.mix_eq, State.mix_eq]
  exact ⟨by simp only [h1, h2, h3], by simp only [h3], h4, h5, h6⟩

theorem State.ensureInit_congr {s t : State} (h : s.SameSource t) : s.ensureInit.SameSource t.ensureInit := by
  unfold State.ensureInit
  rw [h.2.2.1]
  split
  · exact h
  · have h1 := State.draws_congr 256 h
    rw [State.reseed_eq, State.reseed_eq]
    generalize s.draws 256 = r at *
    generalize t.draws 256 = q at *
    exact ⟨h1.1, rfl, rfl, h1.2.2.2.2.1, h1.2.2.2.2.2⟩

/-- What a draw gives depends on the pool, its cursor, INIT and the entropy source alone. -/
theorem State.nextByte_congr {s t : State} (h : s.SameSource t) :
    t.nextByte.1 = s.nextByte.1 ∧ s.nextByte.2.SameSource t.nextByte.2 := by
  have h1 := State.entropyByte_congr (State.ensureInit_congr h)
  rw [State.nextByte_eq, State.nextByte_eq]
  exact ⟨by simp only [h1.1, h1.2.1, h1.2.2.1], State.mix_congr h1.2⟩

theorem State.nextBytes_congr (n : Nat) {s t : State} (h : s.SameSource t) :
    (t.nextBytes n).1 = (s.nextBytes n).1 ∧ (s.nextBytes n).2.SameSource (t.nextBytes n).2 := by
  induction n generalizing s t with
  | zero => exact ⟨rfl, h⟩
  | succ n ih =>
    have h1 := State.nextByte_congr h
    have h2 := ih h1.2
    simp only [State.nextBytes_succ]
    exact ⟨by rw [h1.1, h2.1], h2.2⟩

theorem State.nextBytes_add (m n : Nat) (s : State) :
    s.nextBytes (m + n) =
      ((s.nextBytes m).1 ++ ((s.nextBytes m).2.nextBytes n).1, ((s.nextBytes m).2.nextBytes n).2) := by
  induction m generalizing s with
  | zero => simp [State.nextBytes]
  | succ m ih =>
    rw [Nat.add_right_comm, State.nextBytes_succ, State.nextBytes_succ, ih]
    rfl

theorem ascending_tail {x : Byte} {l : List Byte} (h : ascending (x :: l) = true) : ascending l = true := by
  cases l with
  | nil => rfl
  | cons y l => simp [ascending] at h; exact h.2

theorem ascending_cons {x : Byte} {l : List Byte} (h : ascending l = true) (hx : ∀ y ∈ l, x < y) :
    ascending (x :: l) = true := by
  cases l with
  | nil => rfl
  | cons y l => simp [ascending, h, hx y (by simp)]

theorem ascending_head_lt {x : Byte} {l : List Byte} (h : ascending (x :: l) = true) : ∀ y ∈ l, x < y := by
  induction l generalizing x with
  | nil => simp
  | cons z l ih =>
    have hz : x < z := by simp [ascending] at h; exact h.1
    intro y hy
    rcases List.mem_cons.mp hy with rfl | hy
    · exact hz
    · exact BitVec.lt_trans hz (ih (ascending_tail h) y hy)

/-- The set after an insertion. -/
theorem mem_insertValue {v w : Byte} {l : List Byte} : w ∈ insertValue v l ↔ w = v ∨ w ∈ l := by
  induction l with
  | nil => simp [insertValue]
  | cons x l ih =>
    unfold insertValue
    split
    · simp
    · split
      · rename_i h
        subst h
        simp
      · simp [ih]
        tauto

/-- An insertion keeps the list ascending and adds one value at most. -/
theorem ascending_insertValue {v : Byte} {l : List Byte} (h : ascending l = true) :
    ascending (insertValue v l) = true := by
  induction l with
  | nil => rfl
  | cons x l ih =>
    have hx := ascending_head_lt h
    unfold insertValue
    split
    · rename_i hv
      refine ascending_cons h (fun y hy => ?_)
      rcases List.mem_cons.mp hy with rfl | hy
      · exact hv
      · exact BitVec.lt_trans hv (hx y hy)
    · split
      · exact h
      · rename_i h1 h2
        refine ascending_cons (ih (ascending_tail h)) (fun y hy => ?_)
        rcases mem_insertValue.mp hy with rfl | hy
        · rw [BitVec.lt_def] at *
          have : y.toNat ≠ x.toNat := fun e => h2 (BitVec.eq_of_toNat_eq e)
          omega
        · exact hx y hy

/-- A value that is held already adds nothing; a new one makes the list longer by one. -/
theorem length_insertValue {v : Byte} {l : List Byte} (h : ascending l = true) :
    (insertValue v l).length = if v ∈ l then l.length else l.length + 1 := by
  induction l with
  | nil => simp [insertValue]
  | cons x l ih =>
    have hx := ascending_head_lt h
    unfold insertValue
    split
    · rename_i hv
      have h1 : v ∉ x :: l := by
        intro hm
        rcases List.mem_cons.mp hm with rfl | hm
        · exact absurd hv (BitVec.lt_irrefl _)
        · exact absurd (BitVec.lt_trans hv (hx v hm)) (BitVec.lt_irrefl _)
      simp [h1]
    · split
      · rename_i h2
        subst h2
        simp
      · rename_i h1 h2
        simp only [List.length_cons, ih (ascending_tail h), List.mem_cons, h2, false_or]
        split <;> rfl

/-- What a sampler accepts is a value it allows, where it is called with a `max` it may be called with. -/
theorem Sampler.accept_allows {sm : Sampler} (hs : sm.ok = true) {b v : Byte} (h : sm.accept b = some v) :
    sm.allows v = true := by
  cases sm with
  | nonZero =>
    simp only [Sampler.accept] at h
    split at h
    · cases h
    · rename_i hb
      cases h
      simpa [Sampler.allows] using hb
  | below max =>
    simp [Sampler.ok] at hs
    simp only [Sampler.accept] at h
    split at h
    · cases h
      have h1 : b.toNat % max < max := Nat.mod_lt _ (by omega)
      simp [Sampler.allows, BitVec.toNat_ofNat, Nat.mod_eq_of_lt (show b.toNat % max < 256 by omega), h1]
    · cases h

theorem Pending.offer_eq (p : Pending) (b : Byte) :
    (p.offer b).sampler = p.sampler ∧ (p.offer b).goal = p.goal ∧ (p.offer b).sink = p.sink := by
  unfold Pending.offer
  split <;> simp

end Sys2Proof.Machine
end

