-- ==== Sys2Proof/Laws/Spm.lean ====
section
/-! SUPPORT. The scratchpad's laws: reading after a write, and that every write keeps the canonical form and the
range (10_state.md R39). -/

namespace Sys2Proof.Machine

theorem Spm.wf_tail {c : SpmCell} {m : Spm} (h : Spm.wf (c :: m) = true) : Spm.wf m = true := by
  cases m with
  | nil => rfl
  | cons d m => simp [Spm.wf] at h; exact h.2

theorem Spm.wf_head_ne_zero {k : Nat} {v : Word} {m : Spm} (h : Spm.wf ((k, v) :: m) = true) : v ≠ 0#32 := by
  cases m with
  | nil => simpa [Spm.wf] using h
  | cons d m => simp [Spm.wf] at h; exact h.1.2

theorem Spm.wf_cons {k : Nat} {v : Word} {m : Spm} (hv : v ≠ 0#32) (hm : Spm.wf m = true)
    (hk : ∀ c ∈ m, k < c.1) : Spm.wf ((k, v) :: m) = true := by
  cases m with
  | nil => simpa [Spm.wf] using hv
  | cons d m => simp [Spm.wf, hv, hm, hk d (by simp)]

/-- In canonical form every index after the head's is above it. -/
theorem Spm.wf_head_lt {k : Nat} {v : Word} {m : Spm} (h : Spm.wf ((k, v) :: m) = true) :
    ∀ c ∈ m, k < c.1 := by
  induction m generalizing k v with
  | nil => simp
  | cons d m ih =>
    obtain ⟨k', v'⟩ := d
    have hk : k < k' := by simp [Spm.wf] at h; exact h.1.1
    intro c hc
    rcases List.mem_cons.mp hc with rfl | hc
    · exact hk
    · exact lt_trans hk (ih (Spm.wf_tail h) c hc)

theorem Spm.read_eq_zero_of_not_mem {m : Spm} {a : Nat} (h : ∀ c ∈ m, c.1 ≠ a) : m.read a = 0 := by
  induction m with
  | nil => rfl
  | cons c m ih =>
    obtain ⟨k, v⟩ := c
    have hk : k ≠ a := h (k, v) (by simp)
    simp [Spm.read, hk, ih (fun c hc => h c (by simp [hc]))]

/-- Reading after a write: the word written there, every other word as it was. -/
theorem Spm.read_write {m : Spm} (h : m.wf = true) (a : Nat) (v : Word) (b : Nat) :
    (m.write a v).read b = if b = a then v else m.read b := by
  induction m with
  | nil =>
    by_cases hv : v = 0#32 <;> by_cases hb : b = a <;> simp [Spm.write, Spm.read, hv, hb, Ne.symm]
  | cons c m ih =>
    obtain ⟨k, u⟩ := c
    have hlt := Spm.wf_head_lt h
    have ih := ih (Spm.wf_tail h)
    unfold Spm.write
    split
    · rename_i hak
      have hz : Spm.read ((k, u) :: m) a = 0 :=
        Spm.read_eq_zero_of_not_mem (by
          intro c hc
          rcases List.mem_cons.mp hc with rfl | hc
          · exact (ne_of_gt hak)
          · exact ne_of_gt (lt_trans hak (hlt c hc)))
      by_cases hv : v = 0#32
      · by_cases hb : b = a
        · subst hb; simp [hv, hz]
        · simp [hv, hb]
      · by_cases hb : b = a
        · subst hb; simp [hv, Spm.read]
        · have : a ≠ b := fun e => hb e.symm
          simp [hv, Spm.read, hb, this]
    · split
      · rename_i hak
        subst hak
        have hz : Spm.read m a = 0 :=
          Spm.read_eq_zero_of_not_mem (fun c hc => ne_of_gt (hlt c hc))
        by_cases hv : v = 0#32
        · by_cases hb : b = a
          · subst hb; simp [hv, hz]
          · have : a ≠ b := fun e => hb e.symm
            simp [hv, Spm.read, hb, this]
        · by_cases hb : b = a
          · subst hb; simp [hv, Spm.read]
          · have : a ≠ b := fun e => hb e.symm
            simp [hv, Spm.read, hb, this]
      · rename_i h1 h2
        by_cases hkb : k = b
        · subst hkb
          have : k ≠ a := fun e => h2 e.symm
          simp [Spm.read, this]
        · simp [Spm.read, hkb, ih]

/-- A write lists no index but its own and those listed before. -/
theorem Spm.mem_write {m : Spm} {a : Nat} {v : Word} {c : SpmCell} (h : c ∈ m.write a v) :
    c.1 = a ∨ c ∈ m := by
  induction m with
  | nil =>
    by_cases hv : v = 0#32
    · simp [Spm.write, hv] at h
    · simp [Spm.write, hv] at h; simp [h]
  | cons d m ih =>
    obtain ⟨k, u⟩ := d
    unfold Spm.write at h
    split at h
    · split at h
      · exact .inr h
      · rcases List.mem_cons.mp h with rfl | h
        · exact .inl rfl
        · exact .inr h
    · split at h
      · split at h
        · exact .inr (List.mem_cons_of_mem _ h)
        · rcases List.mem_cons.mp h with rfl | h
          · exact .inl rfl
          · exact .inr (List.mem_cons_of_mem _ h)
      · rcases List.mem_cons.mp h with rfl | h
        · exact .inr (by simp)
        · rcases ih h with h | h
          · exact .inl h
          · exact .inr (List.mem_cons_of_mem _ h)

/-- A write keeps the canonical form. -/
theorem Spm.wf_write {m : Spm} (h : m.wf = true) (a : Nat) (v : Word) : (m.write a v).wf = true := by
  induction m with
  | nil => by_cases hv : v = 0#32 <;> simp [Spm.write, Spm.wf, hv]
  | cons c m ih =>
    obtain ⟨k, u⟩ := c
    have hlt := Spm.wf_head_lt h
    have hu := Spm.wf_head_ne_zero h
    have ht := Spm.wf_tail h
    unfold Spm.write
    split
    · rename_i hak
      split
      · exact h
      · rename_i hv
        exact Spm.wf_cons hv h (by
          intro c hc
          rcases List.mem_cons.mp hc with rfl | hc
          · exact hak
          · exact lt_trans hak (hlt c hc))
    · split
      · rename_i hak
        split
        · exact ht
        · rename_i hv
          exact Spm.wf_cons hv ht (by subst hak; exact hlt)
      · rename_i h1 h2
        refine Spm.wf_cons hu (ih ht) ?_
        intro c hc
        rcases Spm.mem_write hc with h3 | h3
        · omega
        · exact hlt c h3

/-- A write inside the scratchpad keeps every listed index inside. -/
theorem Spm.inRange_write {m : Spm} (h : m.inRange = true) {a : Nat} (ha : a < Config.spmWords) (v : Word) :
    (m.write a v).inRange = true := by
  simp only [Spm.inRange, List.all_eq_true, decide_eq_true_eq] at *
  intro c hc
  rcases Spm.mem_write hc with h3 | h3
  · omega
  · exact h c h3

theorem Spm.wf_writeList {m : Spm} (h : m.wf = true) (a : Nat) (vs : List Word) :
    (m.writeList a vs).wf = true := by
  induction vs generalizing m a with
  | nil => exact h
  | cons v vs ih => exact ih (Spm.wf_write h a v) (a + 1)

theorem Spm.inRange_writeList {m : Spm} (h : m.inRange = true) {a : Nat} {vs : List Word}
    (ha : a + vs.length ≤ Config.spmWords) : (m.writeList a vs).inRange = true := by
  induction vs generalizing m a with
  | nil => exact h
  | cons v vs ih =>
    simp only [List.length_cons] at ha
    exact ih (Spm.inRange_write h (by omega) v) (by omega)

/-- Reading after a list of words is written: the list's words where it stands, every other word as it was. -/
theorem Spm.read_writeList {m : Spm} (h : m.wf = true) (a : Nat) (vs : List Word) (b : Nat) :
    (m.writeList a vs).read b = if a ≤ b ∧ b < a + vs.length then vs.getD (b - a) 0 else m.read b := by
  induction vs generalizing m a with
  | nil =>
    have : ¬ (a ≤ b ∧ b < a) := by omega
    simp [Spm.writeList, this]
  | cons v vs ih =>
    rw [Spm.writeList, ih (Spm.wf_write h a v), Spm.read_write h]
    simp only [List.length_cons]
    by_cases hb : b = a
    · subst hb
      have h1 : ¬ (b + 1 ≤ b ∧ b < b + 1 + vs.length) := by omega
      simp
    · by_cases h1 : a + 1 ≤ b ∧ b < a + 1 + vs.length
      · have h2 : a ≤ b ∧ b < a + (vs.length + 1) := by omega
        have h3 : b - a = (b - (a + 1)) + 1 := by omega
        simp only [if_pos h1, if_pos h2]
        rw [h3, List.getD_cons_succ]
      · have h2 : ¬ (a ≤ b ∧ b < a + (vs.length + 1)) := by omega
        simp only [if_neg h1, if_neg h2, if_neg hb]

/-- The reset scratchpad is in canonical form and in range. -/
theorem Spm.reset_wf : State.reset.spm.wf = true ∧ State.reset.spm.inRange = true := by decide

theorem State.readSpm_writeSpm {s : State} (h : s.spm.wf = true) (a : Nat) (v : Word) (b : Nat) :
    (s.writeSpm a v).readSpm b = if b = a then v else s.readSpm b := Spm.read_write h a v b

theorem State.readSpm_memWrite {s : State} (h : s.spm.wf = true) (a : Nat) (vs : List Word) (b : Nat) :
    (s.memWrite a vs).readSpm b = if a ≤ b ∧ b < a + vs.length then vs.getD (b - a) 0 else s.readSpm b :=
  Spm.read_writeList h a vs b

end Sys2Proof.Machine
end

