-- ==== Sys2Proof/Laws/Exec.lean ====
section
/-! SUPPORT. What a command can do, said once: it faults with one of its causes, or completes with one register or one range
of the scratchpad written, or starts its resampling loop (60_exceptions.md R266 to R268, 70_reset_and_hazards.md R309). -/

namespace Sys2Proof.Machine

theorem finish_cases {i : Instr} {s t : State} {r : Except Raise State} (h : finish i s r = .next t) :
    (∃ u, r = .ok u ∧ t = u.complete) ∨ ∃ f, r = .error f ∧ t = s.faultEntry (encode i) f := by
  cases r with
  | ok u => exact .inl ⟨u, rfl, (Host.Outcome.next.inj h).symm⟩
  | error f => exact .inr ⟨f, rfl, (Host.Outcome.next.inj h).symm⟩

theorem finishResample_cases {i : Instr} {s t : State} {r : Except Raise (State × Pending)}
    (h : finishResample i s r = .next t) :
    (∃ u p, r = .ok (u, p) ∧ t = resample Config.candidatesPerStep p u) ∨
      ∃ f, r = .error f ∧ t = s.faultEntry (encode i) f := by
  cases r with
  | ok u => exact .inl ⟨u.1, u.2, rfl, (Host.Outcome.next.inj h).symm⟩
  | error f => exact .inr ⟨f, rfl, (Host.Outcome.next.inj h).symm⟩

/-- One turn of the resampling loop. -/
theorem resample_succ (fuel : Nat) (p : Pending) (s : State) :
    resample (fuel + 1) p s =
      if p.done then (p.deliver { s with pending := none }).complete
      else resample fuel (p.offer s.nextByte.1) s.nextByte.2 := rfl

theorem resample_done {p : Pending} (h : p.done = true) (fuel : Nat) (s : State) :
    resample fuel p s = (p.deliver { s with pending := none }).complete := by
  cases fuel <;> simp [resample, h]

/-- What the resampling loop can do: it ends with its values delivered and the command counted, or leaves the command in
progress; in between only draws have happened. -/
theorem resample_cases (fuel : Nat) (p : Pending) (s : State) :
    ∃ (q : Pending) (u : State), s.SameButDraws u ∧ q.sampler = p.sampler ∧ q.goal = p.goal ∧ q.sink = p.sink ∧
      ((q.done = true ∧ resample fuel p s = (q.deliver { u with pending := none }).complete) ∨
        (q.done = false ∧ resample fuel p s = { u with pending := some q })) := by
  induction fuel generalizing p s with
  | zero =>
    refine ⟨p, s, .refl s, rfl, rfl, rfl, ?_⟩
    cases h : p.done <;> simp [resample, h]
  | succ fuel ih =>
    rw [resample_succ]
    cases h : p.done with
    | true => exact ⟨p, s, .refl s, rfl, rfl, rfl, .inl ⟨h, by simp⟩⟩
    | false =>
      obtain ⟨q, u, h1, h2, h3, h4, h5⟩ := ih (p.offer s.nextByte.1) s.nextByte.2
      obtain ⟨g1, g2, g3⟩ := Pending.offer_eq p s.nextByte.1
      exact ⟨q, u, (State.nextByte_frame s).trans h1, h2.trans g1, h3.trans g2, h4.trans g3, by simpa using h5⟩

/-- What a command can leave a register or the scratchpad with when it completes. -/
def Wrote (i : Instr) (u w : State) : Prop :=
  (∃ rd v, i.dest = some rd ∧ w = u.writeG rd v) ∨
    (i.stores = true ∧ ∃ base vs, base + vs.length ≤ Config.spmWords ∧ w = u.memWrite base vs) ∨ w = u

/-- What holds of a fault that a command raises: its cause and its two values (R262, R273). -/
def Raise.fits (i : Instr) (f : Raise) : Prop :=
  f.cause ∈ raisedBy i ∧
    (f.cause ≠ .invalidElement → f.cause ≠ .invalidShare → f.cause ≠ .duplicateXCoordinate →
      f.idx = 0 ∨ (f.idx = 1 ∧ f.cause = .invalidArgument ∧ i.opcode = .rnduniq)) ∧
    (f.grp ≠ 0 → i.opcode = .brecon)

/-- What a resampling command writes to, and what its loop begins with. -/
def Pending.starts (i : Instr) (p : Pending) : Prop :=
  p.ok = true ∧ p.held = [] ∧
    match p.sink with
    | .reg rd => i.dest = some rd
    | .mem _ _ => i.stores = true

/-- What one command can do. -/
def Answers (i : Instr) (s : State) (o : Outcome) : Prop :=
  (∃ f : Raise, Raise.fits i f ∧ o = .next (s.faultEntry (encode i) f)) ∨
    (∃ u w : State, s.SameButDraws u ∧ (i.usesPool = false → u = s) ∧ (s.poolOk = true → u.poolOk = true) ∧
      Wrote i u w ∧ o = .next w.complete) ∨
    ∃ (u : State) (p : Pending), i.resamples = true ∧ s.SameButDraws u ∧ (s.poolOk = true → u.poolOk = true) ∧
      Pending.starts i p ∧ o = .next (resample Config.candidatesPerStep p u)

theorem Answers.fault {i : Instr} {s : State} {f : Raise} (h : Raise.fits i f) :
    Answers i s (finish i s (.error f)) := .inl ⟨f, h, rfl⟩

theorem Answers.reg {i : Instr} {s : State} {rd : RegNum} (h : i.dest = some rd) (v : Word) :
    Answers i s (finish i s (.ok (s.writeG rd v))) :=
  .inr (.inl ⟨s, _, .refl s, fun _ => rfl, id, .inl ⟨rd, v, h, rfl⟩, rfl⟩)

theorem Answers.mem {i : Instr} {s : State} (h : i.stores = true) {base : Nat} {vs : List Word}
    (hr : base + vs.length ≤ Config.spmWords) : Answers i s (finish i s (.ok (s.memWrite base vs))) :=
  .inr (.inl ⟨s, _, .refl s, fun _ => rfl, id, .inr (.inl ⟨h, base, vs, hr, rfl⟩), rfl⟩)

theorem raise_fits {i : Instr} {c : Cause} {idx : Word} (h : c ∈ raisedBy i)
    (hi : c ≠ .invalidElement → c ≠ .invalidShare → c ≠ .duplicateXCoordinate →
      idx = 0 ∨ (idx = 1 ∧ c = .invalidArgument ∧ i.opcode = .rnduniq)) : Raise.fits i (raise c idx) :=
  ⟨h, hi, fun h => absurd rfl h⟩

theorem rangeOk_iff {base : Word} {n : Nat} : rangeOk base n = true ↔ base.toNat + n ≤ Config.spmWords := by
  simp [rangeOk]

theorem rangeOk_false {base : Word} {n : Nat} : rangeOk base n = false ↔ Config.spmWords < base.toNat + n := by
  simp [rangeOk]

theorem poolOk_of_init {s : State} (h : s.initFlag = true) (hl : s.pool.length = 256) : s.poolOk = true := by
  simp [State.poolOk, h, hl]

theorem poolOk_length {s : State} (h : s.poolOk = true) : s.pool.length = 256 := by
  simp only [State.poolOk, Bool.and_eq_true, beq_iff_eq] at h
  exact h.1

theorem nextBytes_poolOk {s : State} (n : Nat) (h : s.poolOk = true) : (s.nextBytes n).2.poolOk = true := by
  cases n with
  | zero => exact h
  | succ n =>
    have e := State.nextBytes_effect (n + 1) s
    exact poolOk_of_init (e.2.2 (by omega)) (e.1 (poolOk_length h))

theorem recon_error {s : State} {base : Word} {n K : Int} {grp : Nat} {f : Raise}
    (h : s.recon base n K grp = .error f) :
    f.cause ∈ [Cause.invalidArgument, .emptyShares, .insufficientShares, .addressFault, .invalidShare,
      .duplicateXCoordinate] ∧
    (f.cause ≠ .invalidElement → f.cause ≠ .invalidShare → f.cause ≠ .duplicateXCoordinate → f.idx = 0) ∧
    f.grp = indexWord grp := by
  unfold State.recon at h
  dsimp only at h
  split at h
  · cases h; simp
  · split at h
    · cases h; simp
    · split at h
      · cases h; simp
      · split at h
        · cases h; simp
        · split at h
          · cases h; simp
          · split at h
            · cases h; simp
            · cases h

theorem reconGroups_error {s : State} {db : Nat} {K : Int} {gs : List Nat} {f : Raise}
    (h : s.reconGroups db K gs = .error f) :
    f.cause ∈ [Cause.invalidArgument, .emptyShares, .insufficientShares, .addressFault, .invalidShare,
      .duplicateXCoordinate] ∧
    (f.cause ≠ .invalidElement → f.cause ≠ .invalidShare → f.cause ≠ .duplicateXCoordinate → f.idx = 0) := by
  induction gs with
  | nil => cases h
  | cons g gs ih =>
    unfold State.reconGroups at h
    split at h
    · rename_i e
      cases h
      exact ⟨(recon_error e).1, (recon_error e).2.1⟩
    · split at h
      · rename_i e
        cases h
        exact ih e
      · cases h

theorem reconGroups_length {s : State} {db : Nat} {K : Int} {gs : List Nat} {vs : List Byte}
    (h : s.reconGroups db K gs = .ok vs) : vs.length = gs.length := by
  induction gs generalizing vs with
  | nil => cases h; rfl
  | cons g gs ih =>
    unfold State.reconGroups at h
    split at h
    · cases h
    · split at h
      · cases h
      · rename_i e
        cases h
        simp [ih e]

theorem fieldBinary_answers {i : Instr} {s : State} {rd ra rb : RegNum} {f : Byte → Byte → Except Raise Byte}
    (hd : i.dest = some rd) (he : Cause.invalidElement ∈ raisedBy i)
    (hf : ∀ a b e, f a b = .error e → Raise.fits i e) : Answers i s (finish i s (fieldBinary s rd ra rb f)) := by
  unfold fieldBinary
  split
  · exact .fault (raise_fits he (by simp))
  · split
    · exact .fault (raise_fits he (by simp))
    · split
      · exact .reg hd _
      · rename_i e
        exact .fault (hf _ _ _ e)

theorem execLi_answers (rd : RegNum) (imm : Int) (s : State) : Answers (.li rd imm) s (execLi rd imm s) := .reg rfl _

theorem execMov_answers (rd ra : RegNum) (s : State) : Answers (.mov rd ra) s (execMov rd ra s) := .reg rfl _

theorem execLdw_answers (rd ra : RegNum) (imm : Int) (s : State) :
    Answers (.ldw rd ra imm) s (execLdw rd ra imm s) := by
  unfold execLdw
  dsimp only
  split
  · exact .fault (raise_fits (by simp [raisedBy]) (by simp))
  · exact .reg rfl _

theorem execStw_answers (rd ra : RegNum) (imm : Int) (s : State) :
    Answers (.stw rd ra imm) s (execStw rd ra imm s) := by
  unfold execStw
  dsimp only
  split
  · exact .fault (raise_fits (by simp [raisedBy]) (by simp))
  · rename_i h
    exact .mem (base := (wordAddr (s.readG ra) imm).toNat) (vs := [s.readG rd]) rfl (by simp; omega)

theorem execWipe_answers (ra rb : RegNum) (s : State) : Answers (.wipe ra rb) s (execWipe ra rb s) := by
  unfold execWipe
  dsimp only
  split
  · exact .fault (raise_fits (by simp [raisedBy]) (by simp))
  · split
    · exact .fault (raise_fits (by simp [raisedBy]) (by simp))
    · rename_i h
      rw [rangeOk_false] at h
      exact .mem rfl (by rw [List.length_replicate]; omega)

theorem execGfadd_answers (rd ra rb : RegNum) (s : State) : Answers (.gfadd rd ra rb) s (execGfadd rd ra rb s) :=
  fieldBinary_answers rfl (by simp [raisedBy]) (by simp)

theorem execGfsub_answers (rd ra rb : RegNum) (s : State) : Answers (.gfsub rd ra rb) s (execGfsub rd ra rb s) :=
  fieldBinary_answers rfl (by simp [raisedBy]) (by simp)

theorem execGfmul_answers (rd ra rb : RegNum) (s : State) : Answers (.gfmul rd ra rb) s (execGfmul rd ra rb s) :=
  fieldBinary_answers rfl (by simp [raisedBy]) (by simp)

theorem execGfinv_answers (rd ra : RegNum) (s : State) : Answers (.gfinv rd ra) s (execGfinv rd ra s) := by
  unfold execGfinv
  split
  · exact .fault (raise_fits (by simp [raisedBy]) (by simp))
  · split
    · exact .fault (raise_fits (by simp [raisedBy]) (by simp))
    · exact .reg rfl _

theorem execGfdiv_answers (rd ra rb : RegNum) (s : State) : Answers (.gfdiv rd ra rb) s (execGfdiv rd ra rb s) := by
  refine fieldBinary_answers rfl (by simp [raisedBy]) (fun a b e h => ?_)
  split at h
  · cases h
    exact raise_fits (by simp [raisedBy]) (by simp)
  · cases h

theorem execGfvalid_answers (rd ra : RegNum) (s : State) : Answers (.gfvalid rd ra) s (execGfvalid rd ra s) := .reg rfl _

theorem coeffChecks_some {base : Word} {n : Int} {f : Raise} (h : coeffChecks base n = some f) :
    f = raise .invalidArgument 0 ∨ f = raise .addressFault 0 := by
  unfold coeffChecks at h
  split at h
  · cases h; exact .inl rfl
  · split at h
    · cases h; exact .inr rfl
    · cases h

theorem execPeval_answers (rd ra rb rc : RegNum) (s : State) :
    Answers (.peval rd ra rb rc) s (execPeval rd ra rb rc s) := by
  unfold execPeval
  dsimp only
  split
  · rename_i h
    rcases coeffChecks_some h with rfl | rfl <;> exact .fault (raise_fits (by simp [raisedBy]) (by simp))
  · split
    · exact .fault (raise_fits (by simp [raisedBy]) (by simp))
    · split
      · exact .fault (raise_fits (by simp [raisedBy]) (by simp))
      · exact .reg rfl _

theorem execPvalid_answers (rd ra rb : RegNum) (s : State) :
    Answers (.pvalid rd ra rb) s (execPvalid rd ra rb s) := by
  unfold execPvalid
  dsimp only
  split
  · rename_i h
    rcases coeffChecks_some h with rfl | rfl <;> exact .fault (raise_fits (by simp [raisedBy]) (by simp))
  · exact .reg rfl _

theorem execLagr_answers (rd ra rb rc re : RegNum) (s : State) :
    Answers (.lagr rd ra rb rc re) s (execLagr rd ra rb rc re s) := by
  unfold execLagr
  dsimp only
  repeat' split
  all_goals first
    | exact .fault (raise_fits (by simp [raisedBy]) (by simp))
    | exact .reg rfl _

theorem execRecon_answers (rd ra rb rc : RegNum) (s : State) :
    Answers (.recon rd ra rb rc) s (execRecon rd ra rb rc s) := by
  unfold execRecon
  split
  · exact .reg rfl _
  · rename_i f h
    have e := recon_error h
    exact .fault ⟨e.1, fun a b c => .inl (e.2.1 a b c), fun h => absurd e.2.2 h⟩

theorem execBrecon_answers (ra rb rc re : RegNum) (s : State) :
    Answers (.brecon ra rb rc re) s (execBrecon ra rb rc re s) := by
  unfold execBrecon
  dsimp only
  split
  · exact .fault (raise_fits (by simp [raisedBy]) (by simp))
  · split
    · exact .fault (raise_fits (by simp [raisedBy]) (by simp))
    · split
      · exact .fault (raise_fits (by simp [raisedBy]) (by simp))
      · rename_i h
        rw [rangeOk_false] at h
        split
        · rename_i e
          have e := reconGroups_error e
          exact .fault ⟨e.1, fun a b c => .inl (e.2 a b c), fun _ => rfl⟩
        · rename_i e
          exact .mem rfl (by rw [List.length_map, reconGroups_length e, List.length_range]; omega)

theorem execRndb_answers (rd : RegNum) (s : State) : Answers (.rndb rd) s (execRndb rd s) :=
  .inr (.inl ⟨s.nextByte.2, _, State.nextByte_frame s, by simp [Instr.usesPool],
    fun h => poolOk_of_init (State.nextByte_effect s).1 ((State.nextByte_effect s).2 (poolOk_length h)),
    .inl ⟨rd, zextByte s.nextByte.1, rfl, rfl⟩, rfl⟩)

theorem Answers.loop {i : Instr} {s u : State} {p : Pending} (hi : i.resamples = true) (hu : s.SameButDraws u)
    (hp : s.poolOk = true → u.poolOk = true) (h : Pending.starts i p) :
    Answers i s (finishResample i s (.ok (u, p))) := .inr (.inr ⟨u, p, hi, hu, hp, h, rfl⟩)

theorem Answers.loopFault {i : Instr} {s : State} {f : Raise} (h : Raise.fits i f) :
    Answers i s (finishResample i s (.error f)) := .inl ⟨f, h, rfl⟩

theorem execRndnz_answers (rd : RegNum) (s : State) : Answers (.rndnz rd) s (execRndnz rd s) :=
  .loop rfl (.refl s) id ⟨rfl, rfl, rfl⟩

theorem execRndint_answers (rd ra : RegNum) (s : State) : Answers (.rndint rd ra) s (execRndint rd ra s) := by
  unfold execRndint
  dsimp only
  split
  · exact .loopFault (raise_fits (by simp [raisedBy]) (by simp))
  · rename_i h
    refine .loop rfl (.refl s) id ⟨?_, rfl, rfl⟩
    simp [Pending.ok, Sampler.ok, ascending]
    omega

theorem execRndfill_answers (ra rb : RegNum) (s : State) : Answers (.rndfill ra rb) s (execRndfill ra rb s) := by
  unfold execRndfill
  dsimp only
  split
  · exact .fault (raise_fits (by simp [raisedBy]) (by simp))
  · split
    · exact .fault (raise_fits (by simp [raisedBy]) (by simp))
    · rename_i h
      rw [rangeOk_false] at h
      refine .inr (.inl ⟨_, _, State.nextBytes_frame (sint (s.readG rb)).toNat s, by simp [Instr.usesPool],
        nextBytes_poolOk _, .inr (.inl ⟨rfl, (s.readG ra).toNat,
          (s.nextBytes (sint (s.readG rb)).toNat).1.map zextByte, ?_, rfl⟩), rfl⟩)
      rw [List.length_map, State.nextBytes_length]
      omega

theorem execRnduniq_answers (ra rb rc : RegNum) (s : State) :
    Answers (.rnduniq ra rb rc) s (execRnduniq ra rb rc s) := by
  unfold execRnduniq
  dsimp only
  split
  · exact .inr (.inl ⟨s, s, .refl s, fun _ => rfl, id, .inr (.inr rfl), rfl⟩)
  · split
    · exact .loopFault (raise_fits (by simp [raisedBy]) (by simp))
    · split
      · exact .loopFault (raise_fits (by simp [raisedBy]) (by simp [Instr.opcode]))
      · split
        · exact .loopFault (raise_fits (by simp [raisedBy]) (by simp))
        · rename_i h1 h2 h3 h4
          rw [rangeOk_false] at h4
          refine .loop rfl (.refl s) id ⟨?_, rfl, rfl⟩
          simp [Pending.ok, Sampler.ok, ascending]
          omega

theorem clearedPool_poolOk (s : State) :
    State.poolOk { s with pool := List.replicate 256 0, cur := 0, initFlag := false } = true := by
  show ((List.replicate 256 (0 : Byte)).length == 256 && (false ||
    ((List.replicate 256 (0 : Byte)).all (fun b => b == 0) && (0 : Byte) == 0))) = true
  decide +kernel

theorem execRndclr_answers (s : State) : Answers .rndclr s (execRndclr s) := by
  generalize hp : (List.replicate 256 0 : List Byte) = p
  have h := clearedPool_poolOk s
  have e : execRndclr s = .next (State.complete { s with pool := p, cur := 0, initFlag := false }) := by
    subst hp
    rfl
  rw [hp] at h
  rw [e]
  exact .inr (.inl ⟨_, _, (show s.SameButDraws { s with pool := p, cur := 0, initFlag := false } from rfl), by
    simp [Instr.usesPool], fun _ => h, .inr (.inr rfl), rfl⟩)

theorem reseed_poolOk (s : State) : s.reseed.poolOk = true := by
  have h := State.draws_length 256 s
  rw [State.reseed_eq]
  generalize s.draws 256 = r at *
  exact poolOk_of_init rfl h

theorem execRndseed_answers (s : State) : Answers .rndseed s (execRndseed s) :=
  .inr (.inl ⟨_, _, State.reseed_frame s, by simp [Instr.usesPool], fun _ => reseed_poolOk s, .inr (.inr rfl), rfl⟩)

theorem execGenpoly_answers (ra rb rc : RegNum) (s : State) :
    Answers (.genpoly ra rb rc) s (execGenpoly ra rb rc s) := by
  unfold execGenpoly
  dsimp only
  split
  · exact .loopFault (raise_fits (by simp [raisedBy]) (by simp))
  · split
    · exact .loopFault (raise_fits (by simp [raisedBy]) (by simp))
    · split
      · exact .loopFault (raise_fits (by simp [raisedBy]) (by simp))
      · split
        · exact .loopFault (raise_fits (by simp [raisedBy]) (by simp))
        · rename_i h1 h2 h3 h4
          rw [rangeOk_false] at h4
          refine .loop rfl (State.nextBytes_frame _ s) (nextBytes_poolOk _) ⟨?_, rfl, rfl⟩
          simp [Pending.ok, Sampler.ok, ascending, State.nextBytes_length]
          omega

theorem execGenpts_answers (ra rb : RegNum) (s : State) : Answers (.genpts ra rb) s (execGenpts ra rb s) := by
  unfold execGenpts
  dsimp only
  split
  · exact .loopFault (raise_fits (by simp [raisedBy]) (by simp))
  · split
    · exact .loopFault (raise_fits (by simp [raisedBy]) (by simp))
    · rename_i h1 h2
      rw [rangeOk_false] at h2
      refine .loop rfl (.refl s) id ⟨?_, rfl, rfl⟩
      simp [Pending.ok, Sampler.ok, ascending]
      omega

/-- What any command can do. -/
theorem exec_answers (i : Instr) (s : State) : Answers i s (exec i s) := by
  cases i with
  | li rd imm => exact execLi_answers rd imm s
  | mov rd ra => exact execMov_answers rd ra s
  | ldw rd ra imm => exact execLdw_answers rd ra imm s
  | stw rd ra imm => exact execStw_answers rd ra imm s
  | wipe ra rb => exact execWipe_answers ra rb s
  | gfadd rd ra rb => exact execGfadd_answers rd ra rb s
  | gfsub rd ra rb => exact execGfsub_answers rd ra rb s
  | gfmul rd ra rb => exact execGfmul_answers rd ra rb s
  | gfinv rd ra => exact execGfinv_answers rd ra s
  | gfdiv rd ra rb => exact execGfdiv_answers rd ra rb s
  | gfvalid rd ra => exact execGfvalid_answers rd ra s
  | peval rd ra rb rc => exact execPeval_answers rd ra rb rc s
  | pvalid rd ra rb => exact execPvalid_answers rd ra rb s
  | genpoly ra rb rc => exact execGenpoly_answers ra rb rc s
  | genpts ra rb => exact execGenpts_answers ra rb s
  | lagr rd ra rb rc re => exact execLagr_answers rd ra rb rc re s
  | recon rd ra rb rc => exact execRecon_answers rd ra rb rc s
  | brecon ra rb rc re => exact execBrecon_answers ra rb rc re s
  | rndb rd => exact execRndb_answers rd s
  | rndnz rd => exact execRndnz_answers rd s
  | rndint rd ra => exact execRndint_answers rd ra s
  | rndfill ra rb => exact execRndfill_answers ra rb s
  | rnduniq ra rb rc => exact execRnduniq_answers ra rb rc s
  | rndclr => exact execRndclr_answers s
  | rndseed => exact execRndseed_answers s

end Sys2Proof.Machine
end

