-- ==== Sys2Proof/Laws/Field.lean ====
section
/-! SUPPORT. The algebra of the field (41_field_arithmetic.md R147, "Further laws, derived"): GFMul carries XOR to XOR in each
operand, and two functions that do are equal if they agree on the eight powers of x. -/

namespace Sys2Proof.Machine

/-- A function over bytes that carries XOR to XOR. -/
def XorHom (f : Byte → Byte) : Prop := ∀ a b, f (a ^^^ b) = f a ^^^ f b

theorem XorHom.map_zero {f : Byte → Byte} (hf : XorHom f) : f 0 = 0 := by
  have h := hf 0 0
  simp only [BitVec.xor_self] at h
  exact h

/-- A byte is the sum of the powers of x whose bits are set. -/
theorem byte_eq_sum (b : Byte) :
    b = (if b.getLsbD 0 then 0x01 else 0) ^^^ (if b.getLsbD 1 then 0x02 else 0) ^^^ (if b.getLsbD 2 then 0x04 else 0) ^^^
      (if b.getLsbD 3 then 0x08 else 0) ^^^ (if b.getLsbD 4 then 0x10 else 0) ^^^ (if b.getLsbD 5 then 0x20 else 0) ^^^
      (if b.getLsbD 6 then 0x40 else 0) ^^^ (if b.getLsbD 7 then 0x80 else 0) := by
  revert b
  decide +kernel

theorem XorHom.map_ite {f : Byte → Byte} (hf : XorHom f) (c : Bool) (a : Byte) :
    f (if c then a else 0) = if c then f a else 0 := by
  cases c
  · exact hf.map_zero
  · rfl

/-- Additive functions that agree on the eight powers of x agree everywhere. -/
theorem additive_ext {f g : Byte → Byte} (hf : XorHom f) (hg : XorHom g)
    (h : ∀ p ∈ ([0x01, 0x02, 0x04, 0x08, 0x10, 0x20, 0x40, 0x80] : List Byte), f p = g p) (b : Byte) : f b = g b := by
  rw [byte_eq_sum b]
  simp only [hf _ _, hg _ _, hf.map_ite, hg.map_ite]
  simp only [List.mem_cons, List.not_mem_nil, or_false, forall_eq_or_imp, forall_eq] at h
  obtain ⟨h0, h1, h2, h3, h4, h5, h6, h7⟩ := h
  rw [h0, h1, h2, h3, h4, h5, h6, h7]

theorem xtime_additive : XorHom xtime := by
  intro a b
  have h : ∀ c d : Bool, (if xor c d then (0x1B : Byte) else 0) = (if c then 0x1B else 0) ^^^ (if d then 0x1B else 0) := by
    decide
  simp only [xtime, BitVec.getLsbD_xor, h, BitVec.shiftLeft_xor_distrib]
  ac_rfl

/-- The sum in the loop of R143, written out. -/
theorem gfMulLoop_eq (n i : Nat) (p a b : Byte) : gfMulLoop n i p a b = p ^^^ gfMulLoop n i 0 a b := by
  induction n generalizing i p a with
  | zero => simp [gfMulLoop]
  | succ n ih =>
    simp only [gfMulLoop]
    rw [ih, ih (i + 1) (if b.getLsbD i then 0 ^^^ a else 0)]
    split <;> simp [BitVec.xor_assoc]

theorem gfMulLoop_succ (n i : Nat) (a b : Byte) :
    gfMulLoop (n + 1) i 0 a b = (if b.getLsbD i then a else 0) ^^^ gfMulLoop n (i + 1) 0 (xtime a) b := by
  simp only [gfMulLoop]
  rw [gfMulLoop_eq]
  simp

theorem gfMulLoop_left (n i : Nat) (a c b : Byte) :
    gfMulLoop n i 0 (a ^^^ c) b = gfMulLoop n i 0 a b ^^^ gfMulLoop n i 0 c b := by
  induction n generalizing i a c with
  | zero => simp [gfMulLoop]
  | succ n ih =>
    simp only [gfMulLoop_succ, xtime_additive a c, ih]
    split
    · ac_rfl
    · simp

theorem gfMulLoop_right (n i : Nat) (a b c : Byte) :
    gfMulLoop n i 0 a (b ^^^ c) = gfMulLoop n i 0 a b ^^^ gfMulLoop n i 0 a c := by
  induction n generalizing i a with
  | zero => simp [gfMulLoop]
  | succ n ih =>
    have h : ∀ p q : Bool, (if xor p q then a else 0) = (if p then a else 0) ^^^ (if q then a else 0) := by
      intro p q
      cases p <;> cases q <;> simp
    simp only [gfMulLoop_succ, ih, BitVec.getLsbD_xor, h]
    ac_rfl

/-- GFMul distributes over XOR from the right. -/
theorem gfMul_xor_left (a c b : Byte) : gfMul (a ^^^ c) b = gfMul a b ^^^ gfMul c b := gfMulLoop_left 8 0 a c b

/-- GFMul distributes over XOR from the left. -/
theorem gfMul_xor_right (a b c : Byte) : gfMul a (b ^^^ c) = gfMul a b ^^^ gfMul a c := gfMulLoop_right 8 0 a b c

theorem gfMul_additive_left (b : Byte) : XorHom (fun a => gfMul a b) := fun a c => gfMul_xor_left a c b

theorem gfMul_additive_right (a : Byte) : XorHom (gfMul a) := gfMul_xor_right a

theorem XorHom.comp {f g : Byte → Byte} (hf : XorHom f) (hg : XorHom g) : XorHom (fun a => f (g a)) := by
  intro a b
  simp only [hg a b, hf (g a) (g b)]

end Sys2Proof.Machine
end

