-- ==== Sys2Proof/Laws/Step.lean ====
section
/-! SUPPORT. What one step can do, said once (20_memory.md R74, R75; 60_exceptions.md R266; 70_reset_and_hazards.md R300):
the lemmas about `step`, `issue` and `exec` that claims about every step are proved from. -/

namespace Sys2Proof.Machine

theorem step_idle {s : State} (h : s.pending = none) (hb : s.bus = []) : step s = .next s := by
  simp [step, advance, h, hb]

theorem step_access {s : State} (h : s.pending = none) {e : BusEvent} {rest : List BusEvent} (hb : s.bus = e :: rest) :
    step s = access e { s with bus := rest } := by
  simp [step, advance, h, hb]

theorem step_goOn {s : State} {p : Pending} (h : s.pending = some p) (hb : ∀ rest, s.bus ≠ .reset :: rest) :
    step s = .next (resample Config.candidatesPerStep p s) := by
  show advance s = _
  unfold advance
  split <;> simp_all

theorem step_reset {s : State} {rest : List BusEvent} (hb : s.bus = .reset :: rest) :
    step s = .next (State.applyReset { s with bus := rest }) := by
  show advance s = _
  unfold advance
  split <;> simp_all [access]

theorem accessRefusal_none {width : Width} {offset : Nat} :
    accessRefusal width offset = none ↔ width = .word ∧ offset % 4 = 0 := by
  unfold accessRefusal
  split
  · simp_all
  · split <;> simp_all

theorem step_read {s : State} (h : s.pending = none) {offset : Nat} {rest : List BusEvent} (ho : offset % 4 = 0)
    (hb : s.bus = .read .word offset :: rest) :
    step s = .next { s with bus := rest, readData := some (s.busRead offset) } := by
  rw [step_access h hb]
  simp only [access, accessRefusal_none.mpr ⟨rfl, ho⟩]
  rfl

theorem step_write {s : State} (h : s.pending = none) {offset : Nat} {v : Word} {rest : List BusEvent}
    (ho : offset % 4 = 0) (h0 : offset ≠ 0x0000) (hb : s.bus = .write .word offset v :: rest) :
    step s = .next (State.busWrite { s with bus := rest, readData := none } offset v) := by
  rw [step_access h hb]
  simp only [access, accessRefusal_none.mpr ⟨rfl, ho⟩, if_neg h0]

theorem step_issue {s : State} (h : s.pending = none) {w : Word} {rest : List BusEvent}
    (hb : s.bus = .write .word 0x0000 w :: rest) :
    step s = issue w { s with bus := rest, readData := none } := by
  rw [step_access h hb]
  rfl

/-- What a step that answers a next state has done: reset, gone on with the command in progress, stayed idle, read,
written, or issued a word. -/
theorem step_cases {s t : State} (h : step s = .next t) :
    (∃ rest, s.bus = .reset :: rest ∧ t = State.applyReset { s with bus := rest }) ∨
    (∃ p, s.pending = some p ∧ (∀ rest, s.bus ≠ .reset :: rest) ∧ t = resample Config.candidatesPerStep p s) ∨
    (s.pending = none ∧ s.bus = [] ∧ t = s) ∨
    (∃ offset rest, s.pending = none ∧ s.bus = .read .word offset :: rest ∧ offset % 4 = 0 ∧
      t = { s with bus := rest, readData := some (s.busRead offset) }) ∨
    (∃ offset v rest, s.pending = none ∧ s.bus = .write .word offset v :: rest ∧ offset % 4 = 0 ∧ offset ≠ 0x0000 ∧
      t = State.busWrite { s with bus := rest, readData := none } offset v) ∨
    ∃ w rest, s.pending = none ∧ s.bus = .write .word 0x0000 w :: rest ∧
      issue w { s with bus := rest, readData := none } = .next t := by
  by_cases hr : ∃ rest, s.bus = .reset :: rest
  · obtain ⟨rest, hr⟩ := hr
    exact .inl ⟨rest, hr, (Host.Outcome.next.inj ((step_reset hr).symm.trans h)).symm⟩
  · have hr : ∀ rest, s.bus ≠ .reset :: rest := fun r e => hr ⟨r, e⟩
    refine .inr ?_
    rcases Option.eq_none_or_eq_some s.pending with hp | ⟨p, hp⟩
    · refine .inr ?_
      rcases hb : s.bus with _ | ⟨e, rest⟩
      · exact .inl ⟨hp, rfl, (Host.Outcome.next.inj ((step_idle hp hb).symm.trans h)).symm⟩
      · refine .inr ?_
        have ha := (step_access hp hb).symm.trans h
        cases e with
        | reset => exact absurd hb (hr rest)
        | read width offset =>
          simp only [access] at ha
          split at ha
          · cases ha
          · rename_i hw
            obtain ⟨rfl, ho⟩ := accessRefusal_none.mp hw
            exact .inl ⟨offset, rest, hp, rfl, ho, (Host.Outcome.next.inj ((step_read hp ho hb).symm.trans h)).symm⟩
        | write width offset v =>
          refine .inr ?_
          simp only [access] at ha
          split at ha
          · cases ha
          · rename_i hw
            obtain ⟨rfl, ho⟩ := accessRefusal_none.mp hw
            split at ha
            · rename_i h0
              subst h0
              exact .inr ⟨v, rest, hp, rfl, ha⟩
            · rename_i h0
              exact .inl ⟨offset, v, rest, hp, rfl, ho, h0, (Host.Outcome.next.inj ha).symm⟩
    · exact .inl ⟨p, hp, hr, (Host.Outcome.next.inj ((step_goOn hp hr).symm.trans h)).symm⟩

/-- What issuing a word can do (R266). -/
theorem issue_cases {w : Word} {s t : State} (h : issue w s = .next t) :
    (s.faultFlag = true ∧ t = s.drop) ∨
    (s.faultFlag = false ∧ ∃ e, decode w = .error e ∧ t = s.faultEntry w (raise .illegalCommand 0)) ∨
    (s.faultFlag = false ∧ ∃ i, decode w = .ok i ∧ exec i s = .next t) := by
  unfold issue at h
  cases hf : s.faultFlag with
  | true =>
    rw [hf, if_pos rfl] at h
    exact .inl ⟨rfl, (Host.Outcome.next.inj h).symm⟩
  | false =>
    rw [hf, if_neg (by decide)] at h
    split at h
    · rename_i e he
      exact .inr (.inl ⟨rfl, e, he, (Host.Outcome.next.inj h).symm⟩)
    · rename_i i hi
      exact .inr (.inr ⟨rfl, i, hi, h⟩)

/-- What the end of a resampling loop writes. -/
theorem deliver_cases (p : Pending) (s : State) :
    (∃ rd, p.sink = .reg rd ∧ p.deliver s = s.writeG rd (zextByte (p.held.headD 0))) ∨
      ∃ base lead, p.sink = .mem base lead ∧ p.deliver s = s.memWrite base ((lead ++ p.held).map zextByte) := by
  unfold Pending.deliver
  split
  · exact .inl ⟨_, by assumption, rfl⟩
  · exact .inr ⟨_, _, by assumption, rfl⟩

/-- All that a resampling loop leaves alone, whether it ends or not. -/
theorem resample_frame (n : Nat) (p : Pending) (s : State) :
    (resample n p s).faultFlag = s.faultFlag ∧ (resample n p s).dropFlag = s.dropFlag ∧
      (resample n p s).fie = s.fie ∧ (resample n p s).fcause = s.fcause ∧ (resample n p s).fcmd = s.fcmd ∧
      (resample n p s).fidx = s.fidx ∧ (resample n p s).fgrp = s.fgrp ∧ (resample n p s).fseq = s.fseq ∧
      (resample n p s).bus = s.bus ∧ (resample n p s).readData = s.readData := by
  obtain ⟨q, u, hu, -, -, -, h⟩ := resample_cases n p s
  have e : u = _ := hu
  rcases h with ⟨-, h⟩ | ⟨-, h⟩ <;> rw [h]
  · rcases deliver_cases q { u with pending := none } with ⟨_, -, h⟩ | ⟨_, _, -, h⟩ <;> rw [h, e] <;> simp
  · rw [e]
    simp

/-- A resampling loop that ends has counted the command; one that does not has changed only what its draws change. -/
theorem resample_ends_or_waits (n : Nat) (p : Pending) (s : State) :
    ((resample n p s).pending = none ∧ (resample n p s).cmdcnt = s.cmdcnt + 1) ∨
      ((resample n p s).pending ≠ none ∧
        State.SameButDraws { s with pending := (resample n p s).pending } (resample n p s)) := by
  obtain ⟨q, u, hu, -, -, -, h⟩ := resample_cases n p s
  have e : u = _ := hu
  rcases h with ⟨-, h⟩ | ⟨-, h⟩ <;> rw [h]
  · rcases deliver_cases q { u with pending := none } with ⟨_, -, h⟩ | ⟨_, _, -, h⟩ <;> rw [h, e] <;> simp
  · rw [e]
    simp [State.SameButDraws]

/-- What a command that answers a next state has done to the record, the counter and the command in progress. -/
theorem exec_frame {i : Instr} {s t : State} (h : exec i s = .next t) :
    (∃ f, Raise.fits i f ∧ t = s.faultEntry (encode i) f) ∨
    (t.faultFlag = s.faultFlag ∧ t.dropFlag = s.dropFlag ∧ t.fie = s.fie ∧ t.fcause = s.fcause ∧ t.fcmd = s.fcmd ∧
      t.fidx = s.fidx ∧ t.fgrp = s.fgrp ∧ t.fseq = s.fseq ∧ t.bus = s.bus ∧ t.readData = s.readData ∧
      ((t.cmdcnt = s.cmdcnt + 1 ∧ (t.pending = s.pending ∨ t.pending = none)) ∨
        (i.resamples = true ∧ t.pending ≠ none ∧ State.SameButDraws { s with pending := t.pending } t))) := by
  rcases exec_answers i s with ⟨f, hf, he⟩ | ⟨u, w, hu, -, -, hw, he⟩ | ⟨u, p, hr, hu, -, -, he⟩ <;>
    rw [he] at h <;> cases h
  · exact .inl ⟨f, hf, rfl⟩
  · have e : u = _ := hu
    refine .inr ?_
    rcases hw with ⟨_, _, -, rfl⟩ | ⟨-, _, _, -, rfl⟩ | rfl <;> rw [e] <;> simp
  · have e : u = _ := hu
    refine .inr ?_
    have h1 := resample_frame Config.candidatesPerStep p u
    have h2 := resample_ends_or_waits Config.candidatesPerStep p u
    generalize resample Config.candidatesPerStep p u = t at *
    rw [e] at h1 h2
    refine ⟨h1.1, h1.2.1, h1.2.2.1, h1.2.2.2.1, h1.2.2.2.2.1, h1.2.2.2.2.2.1, h1.2.2.2.2.2.2.1, h1.2.2.2.2.2.2.2.1,
      h1.2.2.2.2.2.2.2.2.1, h1.2.2.2.2.2.2.2.2.2, ?_⟩
    rcases h2 with ⟨h2, h3⟩ | ⟨h2, h3⟩
    · exact .inl ⟨h3, .inr h2⟩
    · exact .inr ⟨hr, h2, h3⟩

/-- What a write to any offset but CMD's leaves alone. -/
theorem busWrite_frame (s : State) (offset : Nat) (v : Word) :
    (s.busWrite offset v).pending = s.pending ∧ (s.busWrite offset v).cmdcnt = s.cmdcnt ∧
      (s.busWrite offset v).bus = s.bus ∧ (s.busWrite offset v).pool = s.pool ∧ (s.busWrite offset v).cur = s.cur ∧
      (s.busWrite offset v).initFlag = s.initFlag ∧ (s.busWrite offset v).entropy = s.entropy ∧
      (s.busWrite offset v).drawn = s.drawn ∧
      (((s.busWrite offset v).faultFlag = s.faultFlag ∧ (s.busWrite offset v).dropFlag = s.dropFlag ∧
          (s.busWrite offset v).fcause = s.fcause ∧ (s.busWrite offset v).fcmd = s.fcmd ∧
          (s.busWrite offset v).fidx = s.fidx ∧ (s.busWrite offset v).fgrp = s.fgrp ∧
          (s.busWrite offset v).fseq = s.fseq) ∨
        (offset = 0x0020 ∧ v.getLsbD 0 = true ∧ s.busWrite offset v = s.clearFault)) := by
  unfold State.busWrite
  split
  · simp
  · split
    · split
      · simp_all
      · simp
    · split
      · simp
      · split <;> simp

end Sys2Proof.Machine
end

