-- ==== Sys2Proof/Machine/HostProcedures.lean ====
section
/-! DEFINITION. The procedures the host runs over the commands (47_host_procedures.md R240 to R252), and the assembler's
aliases and host directives (30_encoding.md R99). Nothing here is the block's: no step of the machine calls it. -/

namespace Sys2Proof.Machine

/-- `RNDELEM gD` (R99). -/
def rndelem (rd : RegNum) : Instr := .rndb rd

/-- `GFNEG gD, gA` (R99). -/
def gfneg (rd ra : RegNum) : Instr := .mov rd ra

/-- A command as the host issues it: its word written to CMD (R34). -/
def busCmd (i : Instr) : BusEvent := .write .word 0x0000 (encode i)

/-- `.SETG gD, v` (R99). -/
def busSetG (i : RegNum) (v : Word) : BusEvent := .write .word (0x0040 + 4 * i.val) v

/-- `.SETM a, v` (R99). -/
def busSetM (a : Nat) (v : Word) : BusEvent := .write .word (0x4000 + 4 * a) v

/-- `.GETG gD` (R99). -/
def busGetG (i : RegNum) : BusEvent := .read .word (0x0040 + 4 * i.val)

/-- `.GETM a` (R99). -/
def busGetM (a : Nat) : BusEvent := .read .word (0x4000 + 4 * a)

/-- `.CLRF` (R99). -/
def busClrF : BusEvent := .write .word 0x0020 1

/-- `.ENTROPY b0, b1, …` (R99): the bytes the source will deliver to the draws that follow. -/
def State.supplyEntropy (s : State) (bs : List Byte) : State := { s with entropy := s.entropy ++ bs }

/-- What a host procedure can fail with. -/
inductive HostFailure where
  /-- The block's fault, as the host reads it from FCAUSE, FIDX and FGRP (R240). -/
  | fault (cause idx grp : Word)
  /-- A failure that the host raises itself, by its cause (R240, R262): InsufficientShareSets, InconsistentMetadata,
  ShareAuthenticationFailed, and the host's own InvalidShare and InsufficientShares (R245, R250). -/
  | raised (c : Cause)
  /-- "inconsistent shares", what verification by redundancy reports (R246). -/
  | inconsistentShares
  /-- The write to CMD has not returned in the time the host waits: a resampling command goes on (R75, R309; log entry
  22). -/
  | commandInProgress
deriving DecidableEq, Repr

/-- A host program (R240): what it returns or fails with, and the state it leaves the block in. -/
abbrev HostProgram (α : Type) := State → Except HostFailure α × State

/-- A program that returns at once. -/
def hostReturn {α : Type} (a : α) : HostProgram α := fun s => (.ok a, s)

/-- A program that fails at once. -/
def hostFail {α : Type} (f : HostFailure) : HostProgram α := fun s => (.error f, s)

/-- One program after another; a failure of the first ends both. -/
def hostThen {α β : Type} (p : HostProgram α) (f : α → HostProgram β) : HostProgram β := fun s =>
  match p s with
  | (.ok a, t) => f a t
  | (.error e, t) => (.error e, t)

/-- A program for each item of a list, in order, with their results; the first failure ends them. -/
def hostEach {α β : Type} (f : α → HostProgram β) : List α → HostProgram (List β)
  | [] => hostReturn []
  | a :: rest => hostThen (f a) fun b => hostThen (hostEach f rest) fun bs => hostReturn (b :: bs)

/-- An access that the host makes on an idle block, and the state after it; an access the spec gives no step changes
nothing. -/
def hostDo (e : BusEvent) (s : State) : State :=
  match access e s with
  | .next t => t
  | .fault _ => s
  | .refused _ => s

/-- Operands placed with bus writes (R240). -/
def hostPlace (es : List BusEvent) : HostProgram Unit := fun s => (.ok (), es.foldl (fun t e => hostDo e t) s)

/-- A bus read, and the data it returns. -/
def hostRead (e : BusEvent) : HostProgram Word := fun s => (.ok ((hostDo e s).readData.getD 0), hostDo e s)

/-- The host waits for its write to CMD to return, which it does when the command has ended (R75): for at most `n` further
steps of a resampling command (R309; log entry 22). -/
def hostAwait : Nat → State → State
  | 0, s => s
  | n + 1, s =>
    match s.pending with
    | none => s
    | some p => hostAwait n (resample Config.candidatesPerStep p s)

/-- What the host does on a fault: it reads FCAUSE, FIDX and FGRP, clears the fault with FCLR, and fails with what it read
(R240, R272). -/
def hostFault {α : Type} : HostProgram α :=
  hostThen (hostRead (.read .word 0x000C)) fun cause =>
  hostThen (hostRead (.read .word 0x0014)) fun idx =>
  hostThen (hostRead (.read .word 0x0018)) fun grp =>
  hostThen (hostPlace [busClrF]) fun _ => hostFail (.fault cause idx grp)

/-- The read of STATUS after a command (R240). -/
def hostStatus : HostProgram Unit :=
  hostThen (hostRead (.read .word 0x0004)) fun status => if status.getLsbD 0 then hostFault else hostReturn ()

/-- A command issued by the host: written to CMD, waited for, STATUS read after it (R240). -/
def hostIssue (patience : Nat) (i : Instr) : HostProgram Unit := fun s =>
  let t := hostAwait patience (hostDo (busCmd i) s)
  if t.pending = none then hostStatus t else (.error .commandInProgress, t)

/-- Operands placed and a command issued. -/
def hostRun (patience : Nat) (es : List BusEvent) (i : Instr) : HostProgram Unit :=
  hostThen (hostPlace es) fun _ => hostIssue patience i

/-- A Share (R243, R17): a pair (x, y), as the two words of R69. -/
structure Share where
  x : Word
  y : Word
deriving DecidableEq, Repr

/-- A share's own validity check: x and y valid field elements, x ≠ 0 (R243). -/
def Share.valid (sh : Share) : Bool := isElem sh.x && isElem sh.y && sh.x != 0

/-- What all ShareSets of one split have in common (R243). The identifier's format is not given (91 N17). -/
structure Metadata where
  threshold : Nat
  totalShares : Nat
  secretLength : Nat
  ident : Nat
deriving DecidableEq, Repr

/-- A ShareSet (R243): one Share per byte position, its metadata, an optional index. -/
structure ShareSet where
  info : Metadata
  index : Option Nat
  shares : List Share
deriving DecidableEq, Repr

/-- A ShareSet in itself (R243): one valid Share per secret-byte position, and its index, if it has one, in 1..N. -/
def ShareSet.ok (t : ShareSet) : Bool :=
  t.shares.length == t.info.secretLength && t.shares.all Share.valid &&
    match t.index with
    | none => true
    | some i => decide (1 ≤ i ∧ i ≤ t.info.totalShares)

/-- The invariant of R243 on the ShareSets of one split: "shares the same metadata". -/
def sameMetadata : List ShareSet → Bool
  | [] => true
  | first :: rest => rest.all (fun t => t.info == first.info)

/-- The invariant of R243 on the ShareSets of one reconstruction attempt: "x values unique", at every byte position. -/
def uniqueXs (sets : List ShareSet) : Bool :=
  sets.all (fun t => decide (∀ p < t.info.secretLength, (sets.filterMap (fun u => (u.shares[p]?).map Share.x)).Nodup))

/-- Accesses that write a share array at word address `a` (R69). -/
def shareArrayEvents : Nat → List Share → List BusEvent
  | _, [] => []
  | a, sh :: rest => busSetM a sh.x :: busSetM (a + 1) sh.y :: shareArrayEvents (a + 2) rest

/-- The word address of the coefficient array of byte position `p` (R241, "for example at base + p·K"). -/
def coefAddr (base : Nat) (K : Word) (p : Nat) : Nat := base + p * K.toNat

/-- `generateMultiplePolynomials` / `generateForByteArray` (R241): one GENPOLY a secret byte, position 0 upward, each with
its own coefficient array; the addresses of the arrays. A fault in any GENPOLY ends the procedure with that failure. A
secret byte is a word here, so that one that is no byte fails as InvalidSecret. -/
def generatePolynomials (patience base : Nat) (K : Word) (secrets : List Word) : HostProgram (List Nat) :=
  hostEach (fun (b, p) =>
    hostThen (hostRun patience [busSetG 1 (indexWord (coefAddr base K p)), busSetG 2 b, busSetG 3 K] (.genpoly 1 2 3))
      fun _ => hostReturn (coefAddr base K p)) secrets.zipIdx

/-- Where the evaluation points of a split come from (R242): GENPTS, or the host, "a pure policy choice at the call site".
That the host's own points are distinct and not 0 is the caller's duty: R242 names no failure for it (log entry 20). -/
inductive PointPlan where
  | drawn (N : Word)
  | chosen (xs : List Word)
deriving DecidableEq, Repr

/-- How many shares a plan asks for. -/
def PointPlan.count : PointPlan → Int
  | .drawn N => sint N
  | .chosen xs => xs.length

/-- The points of a split: those GENPTS writes at `pts`, read back, or the host's own (R242). -/
def splitPoints (patience pts : Nat) : PointPlan → HostProgram (List Word)
  | .drawn N =>
    hostThen (hostRun patience [busSetG 4 (indexWord pts), busSetG 5 N] (.genpts 4 5)) fun _ =>
      hostEach (fun i => hostRead (busGetM (pts + i))) (List.range (sint N).toNat)
  | .chosen xs => hostReturn xs

/-- The share of a point at byte position `p` (R242): PEVAL of that position's polynomial. -/
def evalShare (coef : Nat) (K : Word) (p : Nat) (x : Word) : HostProgram Share :=
  hostThen (hostRun 0 [busSetG 1 (indexWord (coefAddr coef K p)), busSetG 3 K, busSetG 6 x] (.peval 7 1 3 6)) fun _ =>
  hostThen (hostRead (busGetG 7)) fun y => hostReturn ⟨x, y⟩

/-- The N ShareSets of a split (R242, R243): ShareSet i holds the share of point i at every byte position, with the common
metadata and index i + 1. `rows` holds the shares by byte position, then by point. -/
def formShareSets (info : Metadata) (rows : List (List Share)) : List ShareSet :=
  (List.range info.totalShares).map (fun i => ⟨info, some (i + 1), rows.filterMap (fun row => row[i]?)⟩)

/-- The clean-up of R242: WIPE over the coefficient arrays, if there are any, and LI 0 over the registers that held secret
bytes. -/
def splitCleanUp (coef L : Nat) (K : Word) : HostProgram Unit :=
  hostThen (if L = 0 then hostReturn ()
    else hostRun 0 [busSetG 1 (indexWord coef), busSetG 2 (indexWord (L * K.toNat))] (.wipe 1 2)) fun _ =>
  hostThen (hostIssue 0 (.li 2 0)) fun _ => hostIssue 0 (.li 7 0)

/-- The expansion of R242, in its order: the points, the polynomials, the shares position by position, the ShareSets, the
clean-up. A failure of a command ends it, before the clean-up (log entry 20). -/
def splitExpansion (patience coef pts : Nat) (plan : PointPlan) (secret : List Word) (K : Word) (ident : Nat) :
    HostProgram (List ShareSet) :=
  hostThen (splitPoints patience pts plan) fun xs =>
  hostThen (generatePolynomials patience coef K secret) fun _ =>
  hostThen (hostEach (fun p => hostEach (evalShare coef K p) xs) (List.range secret.length)) fun rows =>
  hostThen (splitCleanUp coef secret.length K) fun _ =>
    hostReturn (formShareSets ⟨K.toNat, xs.length, secret.length, ident⟩ rows)

/-- `split(secret, threshold, totalShares)` (R242). Two cases are left open, and what the procedure does in each is an
argument, which is given the expansion (`id` goes on with it; `fun _ => hostFail f` fails): `few` where there are fewer
shares than the threshold, `empty` where the secret has no byte (91 N16, 93 U17; log entry 20). Where such a case holds
together with a failure of GENPTS or GENPOLY (N < 1, N > 255, K < 2, K > 256) R242 gives no priority: the model asks the
argument before any command is issued, so the argument decides whether the command's failure is met at all (DESIGN CHOICE,
log entry 20). -/
def split (few empty : HostProgram (List ShareSet) → HostProgram (List ShareSet)) (patience coef pts : Nat)
    (plan : PointPlan) (secret : List Word) (K : Word) (ident : Nat) : HostProgram (List ShareSet) :=
  let body := splitExpansion patience coef pts plan secret K ident
  let body := if secret = [] then empty body else body
  if plan.count < sint K then few body else body

/-- The metadata checks of R244, in SRS's order of mention: InconsistentMetadata unless all ShareSets carry the same
metadata, InsufficientShareSets if they are fewer than the threshold (DESIGN CHOICE, log entry 17). -/
def shareSetChecks (sets : List ShareSet) : Except HostFailure Metadata :=
  match sets with
  | [] => .error (.raised .insufficientShareSets)
  | first :: _ =>
    if sameMetadata sets = false then .error (.raised .inconsistentMetadata)
    else if sets.length < first.info.threshold then .error (.raised .insufficientShareSets)
    else .ok first.info

/-- The share that a ShareSet holds for byte position `p` (R244). A ShareSet with no share there is a case the spec does not
speak of: the model puts (0, 0) in its place, which BRECON faults as InvalidShare at that position (DESIGN CHOICE, log
entry 21). -/
def ShareSet.shareAt (t : ShareSet) (p : Nat) : Share := t.shares.getD p ⟨0, 0⟩

/-- The share array and the descriptor of byte position `p` (R244): the shares of `used` at `arr + 2·p·K`, the descriptor
(array address, K) at `desc + 2p`. -/
def positionEvents (arr desc K : Nat) (used : List ShareSet) (p : Nat) : List BusEvent :=
  let a := arr + 2 * p * K
  shareArrayEvents a (used.map (fun t => t.shareAt p))
    ++ [busSetM (desc + 2 * p) (indexWord a), busSetM (desc + 2 * p + 1) (indexWord K)]

/-- `reconstructFromShareSets` / `reconstruct` (R244): the checks, a share array and a descriptor for each byte position,
one BRECON, and the L secret bytes read from `out` upward, in order. A BRECON fault is the procedure's failure, its FGRP the
byte position. `choose K sets` says which K of the ShareSets are used, which SRS leaves open: the first K, `List.take`, is
"the natural reading" (91 N19; log entry 17). -/
def reconstructFromShareSets (arr desc out : Nat) (choose : Nat → List ShareSet → List ShareSet) (sets : List ShareSet) :
    HostProgram (List Byte) :=
  match shareSetChecks sets with
  | .error f => hostFail f
  | .ok m =>
    hostThen (hostPlace ((List.range m.secretLength).flatMap
      (positionEvents arr desc m.threshold (choose m.threshold sets)))) fun _ =>
    hostThen (hostRun 0 [busSetG 9 (indexWord desc), busSetG 10 (indexWord m.secretLength),
      busSetG 3 (indexWord m.threshold), busSetG 11 (indexWord out)] (.brecon 9 10 3 11)) fun _ =>
    hostEach (fun p => hostThen (hostRead (busGetM (out + p))) fun v => hostReturn (lowByte v)) (List.range m.secretLength)

/-- RECON over `n` shares at `arr` with threshold `K`, as the host runs it, and the byte it gives (R240, R231). -/
def hostRecon (arr n K : Nat) : HostProgram Byte :=
  hostThen (hostRun 0 [busSetG 1 (indexWord arr), busSetG 2 (indexWord n), busSetG 3 (indexWord K)] (.recon 5 1 2 3))
    fun _ => hostThen (hostRead (busGetG 5)) fun v => hostReturn (lowByte v)

/-- What a procedure answers that has to count what it passes over: shares set aside, "never silently" (R245), and failures
ignored, "counted/logged ..., not discarded" (R246). The count is there whether it succeeds or fails. -/
structure Counted (α : Type) where
  ignored : Nat
  result : Except HostFailure α
deriving DecidableEq, Repr

/-- A share as R245 is handed it: its metadata pair and whether it passed the host's authentication check, for which
SRS gives no algorithm (91 N15). -/
structure SecureShare where
  share : Share
  threshold : Nat
  totalShares : Nat
  authentic : Bool
deriving DecidableEq, Repr

/-- The checks of R245 and the shares that are used, exactly the first K authenticated ones, with the threshold; and how
many shares failed the authentication check. `setAside` says whether such a share is set aside or fails the call, which SRS
leaves open (91 N20). The metadata is tested before the authentication, in the order of mention: the spec gives the two no
priority (DESIGN CHOICE, log entry 18). -/
def secureShares (setAside : Bool) (shares : List SecureShare) : Counted (Nat × List Share) :=
  let good := shares.filter (fun t => t.authentic)
  ⟨shares.length - good.length,
    match shares with
    | [] => .error (.raised .insufficientShares)
    | first :: _ =>
      if shares.any (fun t => t.threshold != first.threshold || t.totalShares != first.totalShares) then
        .error (.raised .inconsistentMetadata)
      else if !setAside && shares.any (fun t => !t.authentic) then .error (.raised .shareAuthenticationFailed)
      else if good.length < first.threshold then .error (.raised .insufficientShares)
      else .ok (first.threshold, (good.take first.threshold).map (fun t => t.share))⟩

/-- `reconstructFromSecureShares` (R245): the checks, then the K shares written as a share array at `arr` and
`RECON d, arr, K, K`. The count says how many shares failed the authentication check, whatever the result. -/
def reconstructFromSecureShares (setAside : Bool) (arr : Nat) (shares : List SecureShare) (s : State) :
    Counted Byte × State :=
  let c := secureShares setAside shares
  match c.result with
  | .error f => (⟨c.ignored, .error f⟩, s)
  | .ok (K, used) =>
    match hostThen (hostPlace (shareArrayEvents arr used)) (fun _ => hostRecon arr K K) s with
    | (r, t) => (⟨c.ignored, r⟩, t)

/-- The scan of R246 over the windows `w` of its list: the alternate reconstructions that fault are counted and skipped, one
that disagrees with the primary result ends it. -/
def verifyLoop (arr K : Nat) (primary : Byte) : List Nat → Nat → State → Counted Byte × State
  | [], ignored, s => (⟨ignored, .ok primary⟩, s)
  | w :: rest, ignored, s =>
    match hostRecon (arr + 2 * w) K K s with
    | (.error _, t) => verifyLoop arr K primary rest (ignored + 1) t
    | (.ok a, t) =>
      if a = primary then verifyLoop arr K primary rest ignored t else (⟨ignored, .error .inconsistentShares⟩, t)

/-- `reconstructWithVerification` (R246): the shares stored as one share array at `arr`, the primary reconstruction, whose
fault fails the procedure, then the windows 1 to len − K; the secret or the failure, and how many windows were ignored. R246
is given "more than `threshold` shares"; what it does with `threshold` or fewer is not stated, and is the argument `few` (91
N21; log entry 19). -/
def reconstructWithVerification (few : State → Counted Byte × State) (arr K : Nat) (shares : List Share) (s : State) :
    Counted Byte × State :=
  if shares.length ≤ K then few s
  else
    match hostThen (hostPlace (shareArrayEvents arr shares)) (fun _ => hostRecon arr K K) s with
    | (.error f, t) => (⟨0, .error f⟩, t)
    | (.ok p, t) => verifyLoop arr K p ((List.range (shares.length - K)).map (· + 1)) 0 t

/-- The progressive reconstructor (R250): host state (10_state.md R42). -/
structure Progressive where
  threshold : Nat
  acc : List Share
  isComplete : Bool
  secret : Option Byte
deriving DecidableEq, Repr

/-- A new accumulator, and what its `reset()` leaves: nothing accumulated (R250). -/
def Progressive.empty (threshold : Nat) : Progressive := ⟨threshold, [], false, none⟩

/-- `progress`: min(1, accumulated / threshold) (R250). With threshold 0 the quotient is not defined by the rule: the model
answers 0 (DESIGN CHOICE, log entry 23). -/
def Progressive.progress (p : Progressive) : Rat := min 1 (p.acc.length / p.threshold)

/-- `addShare` (R250), with the share array of the attempt written at `arr`. Its answer `true` for a share it accepts is
"the evident counterpart" of the stated `false` (91 N22; log entry 19). -/
def Progressive.addShare (arr : Nat) (sh : Share) (p : Progressive) : HostProgram (Bool × Progressive) :=
  if sh.valid = false then hostFail (.raised .invalidShare)
  else if p.acc.any (fun t => t.x == sh.x) then hostReturn (false, p)
  else
    let q := { p with acc := p.acc ++ [sh] }
    if p.threshold ≤ q.acc.length ∧ p.isComplete = false then fun s =>
      match hostThen (hostPlace (shareArrayEvents arr (q.acc.take p.threshold)))
          (fun _ => hostRecon arr p.threshold p.threshold) s with
      | (.ok b, t) => (.ok (true, { q with isComplete := true, secret := some b }), t)
      | (.error _, t) => (.ok (true, q), t)
    else hostReturn (true, q)

end Sys2Proof.Machine
end

