-- ==== Sys2Proof/Laws/Host.lean ====
section
/-! SUPPORT. The host programs of 47_host_procedures.md: one program after another, what the host does on a fault, and the
invariant of the ShareSets that a split forms. -/

namespace Sys2Proof.Machine

theorem hostThen_ok {α β : Type} {p : HostProgram α} {f : α → HostProgram β} {a : α} {s t : State}
    (h : p s = (.ok a, t)) : hostThen p f s = f a t := by
  simp only [hostThen, h]

theorem hostThen_error {α β : Type} {p : HostProgram α} {f : α → HostProgram β} {e : HostFailure} {s t : State}
    (h : p s = (.error e, t)) : hostThen p f s = (.error e, t) := by
  simp only [hostThen, h]

/-- The first failure ends a series of programs, with that failure and in that state. -/
theorem hostEach_error {α β : Type} {f : α → HostProgram β} {a : α} {rest : List α} {e : HostFailure} {s t : State}
    (h : f a s = (.error e, t)) : hostEach f (a :: rest) s = (.error e, t) := hostThen_error h

/-- A series of programs that succeeds gives one result an item. -/
theorem hostEach_length {α β : Type} {f : α → HostProgram β} {l : List α} {bs : List β} {s t : State}
    (h : hostEach f l s = (.ok bs, t)) : bs.length = l.length := by
  induction l generalizing s bs t with
  | nil => cases h; rfl
  | cons a rest ih =>
    simp only [hostEach, hostThen, hostReturn] at h
    split at h
    · split at h
      next h2 =>
        cases h
        rw [List.length_cons, List.length_cons, ih h2]
      next => cases h
    · cases h

/-- A read of the host at a mapped or unmapped word offset returns what R40 says and leaves the block as it was. -/
theorem hostRead_word (offset : Nat) (h : offset % 4 = 0) (s : State) :
    hostRead (.read .word offset) s =
      (.ok (s.busRead offset), { s with readData := some (s.busRead offset) }) := by
  simp [hostRead, hostDo, access, accessRefusal, h]

/-- FCLR as the host writes it. -/
theorem hostDo_clrF (s : State) : hostDo busClrF s = State.clearFault { s with readData := none } := by
  simp [hostDo, busClrF, access, accessRefusal, State.busWrite]

/-- What the host does on a fault: it fails with the record as it stands in FCAUSE, FIDX and FGRP, and the fault is cleared
(R240, R272). -/
theorem hostFault_eq {α : Type} (s : State) :
    (hostFault : HostProgram α) s =
      (.error (.fault (s.fcause.setWidth 32) s.fidx s.fgrp), State.clearFault { s with readData := none }) := by
  unfold hostFault
  rw [hostThen_ok (hostRead_word 0x000C (by decide) s), hostThen_ok (hostRead_word 0x0014 (by decide) _),
    hostThen_ok (hostRead_word 0x0018 (by decide) _)]
  simp [hostThen, hostPlace, hostFail, hostDo_clrF, State.busRead, State.clearFault]

/-- After STATUS is read the block has no fault pending: either it had none, or the record is the failure and the fault is
cleared. -/
theorem hostStatus_eq (s : State) :
    hostStatus s =
      if s.faultFlag then
        (.error (.fault (s.fcause.setWidth 32) s.fidx s.fgrp), State.clearFault { s with readData := none })
      else (.ok (), { s with readData := some s.status }) := by
  unfold hostStatus
  rw [hostThen_ok (hostRead_word 0x0004 (by decide) s)]
  have hb : (s.busRead 0x0004).getLsbD 0 = s.faultFlag := by
    simp only [State.busRead, State.status, if_true]
    cases s.faultFlag <;> cases s.dropFlag <;> cases s.initFlag <;> decide
  rw [hb]
  split
  · rw [hostFault_eq]
  · rfl

/-- A command the host issued leaves no fault pending, unless it has not ended (R240). -/
theorem hostIssue_noFault {n : Nat} {i : Instr} {s t : State} {r : Except HostFailure Unit}
    (h : hostIssue n i s = (r, t)) : t.faultFlag = false ∨ r = .error .commandInProgress := by
  simp only [hostIssue] at h
  split at h
  · rw [hostStatus_eq] at h
    split at h
    · cases h; exact .inl rfl
    · next hf => cases h; exact .inl (by simpa using hf)
  · cases h; exact .inr rfl

/-- The ShareSets of a split: N of them, with one metadata and the indexes 1 to N in order (R242, R243). -/
theorem formShareSets_spec (info : Metadata) (rows : List (List Share)) :
    (formShareSets info rows).length = info.totalShares ∧
    (∀ t ∈ formShareSets info rows, t.info = info) ∧
    ∀ i : Nat, i < info.totalShares → ((formShareSets info rows)[i]?).map ShareSet.index = some (some (i + 1)) := by
  refine ⟨by simp [formShareSets], ?_, ?_⟩
  · intro t ht
    simp only [formShareSets, List.mem_map] at ht
    obtain ⟨i, -, rfl⟩ := ht
    rfl
  · intro i hi
    simp [formShareSets, hi]

/-- Each of them holds one share a byte position, when every position has a share for every point. -/
theorem formShareSets_shares {info : Metadata} {rows : List (List Share)}
    (h : ∀ row ∈ rows, info.totalShares ≤ row.length) :
    ∀ t ∈ formShareSets info rows, t.shares.length = rows.length := by
  intro t ht
  simp only [formShareSets, List.mem_map, List.mem_range] at ht
  obtain ⟨i, hi, rfl⟩ := ht
  show (rows.filterMap (fun row => row[i]?)).length = rows.length
  induction rows with
  | nil => rfl
  | cons row rest ih =>
    have hrow : i < row.length := Nat.lt_of_lt_of_le hi (h row (List.mem_cons_self ..))
    rw [List.filterMap_cons, List.getElem?_eq_getElem hrow]
    simp only [List.length_cons]
    rw [ih (fun r hr => h r (List.mem_cons_of_mem _ hr))]

/-- The ShareSets of one split carry the same metadata (R243). -/
theorem formShareSets_sameMetadata (info : Metadata) (rows : List (List Share)) :
    sameMetadata (formShareSets info rows) = true := by
  have h := (formShareSets_spec info rows).2.1
  generalize formShareSets info rows = sets at h
  cases sets with
  | nil => rfl
  | cons first rest =>
    simp only [sameMetadata, List.all_eq_true, beq_iff_eq]
    intro t ht
    rw [h t (List.mem_cons_of_mem _ ht), h first (List.mem_cons_self ..)]

end Sys2Proof.Machine
end

