-- ==== Sys2Proof/Laws/PerInstr.lean ====
section
/-! SUPPORT. Statements about the commands as syntax, one lemma a constructor. -/

namespace Sys2Proof.Laws.OpcodeField

/-- The word of a command carries the command's opcode number in its bits 31:24 (30_encoding.md R91, R92, R94). -/
def Statement (i : Instr) : Prop := bitsOf (encode i) 31 24 = i.opcode.row.op

/-- Bits 31:24 of a format R word. -/
theorem op_formatR {op : Nat} (h : op < 256) (rd ra rb rc re : RegNum) : bitsOf (formatR op rd ra rb rc re) 31 24 = op := by
  simp only [bitsOf, formatR, BitVec.toNat_ofNat]
  omega

/-- Bits 31:24 of a format I word. -/
theorem op_formatI {op : Nat} (h : op < 256) (rd ra : RegNum) (imm : Int) : bitsOf (formatI op rd ra imm) 31 24 = op := by
  have hi := (BitVec.ofInt 16 imm).isLt
  simp only [bitsOf, formatI, BitVec.toNat_ofNat]
  omega

theorem li (rd : RegNum) (imm : Int) : Statement (.li rd imm) := op_formatI (op := 0x01) (by decide) _ _ _

theorem mov (rd ra : RegNum) : Statement (.mov rd ra) := op_formatR (op := 0x02) (by decide) _ _ _ _ _

theorem ldw (rd ra : RegNum) (imm : Int) : Statement (.ldw rd ra imm) := op_formatI (op := 0x03) (by decide) _ _ _

theorem stw (rd ra : RegNum) (imm : Int) : Statement (.stw rd ra imm) := op_formatI (op := 0x04) (by decide) _ _ _

theorem wipe (ra rb : RegNum) : Statement (.wipe ra rb) := op_formatR (op := 0x05) (by decide) _ _ _ _ _

theorem gfadd (rd ra rb : RegNum) : Statement (.gfadd rd ra rb) := op_formatR (op := 0x10) (by decide) _ _ _ _ _

theorem gfsub (rd ra rb : RegNum) : Statement (.gfsub rd ra rb) := op_formatR (op := 0x11) (by decide) _ _ _ _ _

theorem gfmul (rd ra rb : RegNum) : Statement (.gfmul rd ra rb) := op_formatR (op := 0x12) (by decide) _ _ _ _ _

theorem gfinv (rd ra : RegNum) : Statement (.gfinv rd ra) := op_formatR (op := 0x13) (by decide) _ _ _ _ _

theorem gfdiv (rd ra rb : RegNum) : Statement (.gfdiv rd ra rb) := op_formatR (op := 0x14) (by decide) _ _ _ _ _

theorem gfvalid (rd ra : RegNum) : Statement (.gfvalid rd ra) := op_formatR (op := 0x15) (by decide) _ _ _ _ _

theorem peval (rd ra rb rc : RegNum) : Statement (.peval rd ra rb rc) := op_formatR (op := 0x20) (by decide) _ _ _ _ _

theorem pvalid (rd ra rb : RegNum) : Statement (.pvalid rd ra rb) := op_formatR (op := 0x21) (by decide) _ _ _ _ _

theorem genpoly (ra rb rc : RegNum) : Statement (.genpoly ra rb rc) := op_formatR (op := 0x22) (by decide) _ _ _ _ _

theorem genpts (ra rb : RegNum) : Statement (.genpts ra rb) := op_formatR (op := 0x23) (by decide) _ _ _ _ _

theorem lagr (rd ra rb rc re : RegNum) : Statement (.lagr rd ra rb rc re) := op_formatR (op := 0x30) (by decide) _ _ _ _ _

theorem recon (rd ra rb rc : RegNum) : Statement (.recon rd ra rb rc) := op_formatR (op := 0x31) (by decide) _ _ _ _ _

theorem brecon (ra rb rc re : RegNum) : Statement (.brecon ra rb rc re) := op_formatR (op := 0x32) (by decide) _ _ _ _ _

theorem rndb (rd : RegNum) : Statement (.rndb rd) := op_formatR (op := 0x40) (by decide) _ _ _ _ _

theorem rndnz (rd : RegNum) : Statement (.rndnz rd) := op_formatR (op := 0x41) (by decide) _ _ _ _ _

theorem rndint (rd ra : RegNum) : Statement (.rndint rd ra) := op_formatR (op := 0x42) (by decide) _ _ _ _ _

theorem rndfill (ra rb : RegNum) : Statement (.rndfill ra rb) := op_formatR (op := 0x43) (by decide) _ _ _ _ _

theorem rnduniq (ra rb rc : RegNum) : Statement (.rnduniq ra rb rc) := op_formatR (op := 0x44) (by decide) _ _ _ _ _

theorem rndclr : Statement .rndclr := op_formatR (op := 0x45) (by decide) _ _ _ _ _

theorem rndseed : Statement .rndseed := op_formatR (op := 0x46) (by decide) _ _ _ _ _

end Sys2Proof.Laws.OpcodeField
end

