-- ==== Sys2Proof/Laws/Resample.lean ====
section
/-! SUPPORT. The resampling loop over the sequence of its candidates (44_csprng.md R195, R196; 45_generation.md R220, R221;
70_reset_and_hazards.md R309): it ends with the first candidate that makes its exit test true, in the step that accepted
the command or in a later one. -/

namespace Sys2Proof.Machine

/-- A command in progress after the candidates `bs`. -/
def Pending.after (p : Pending) (bs : List Byte) : Pending := bs.foldl Pending.offer p

@[simp] theorem Pending.after_nil (p : Pending) : p.after [] = p := rfl

@[simp] theorem Pending.after_cons (p : Pending) (b : Byte) (bs : List Byte) :
    p.after (b :: bs) = (p.offer b).after bs := rfl

theorem Pending.after_append (p : Pending) (bs cs : List Byte) : p.after (bs ++ cs) = (p.after bs).after cs :=
  List.foldl_append

theorem Pending.after_eq (p : Pending) (bs : List Byte) :
    (p.after bs).sampler = p.sampler ∧ (p.after bs).goal = p.goal ∧ (p.after bs).sink = p.sink := by
  induction bs generalizing p with
  | nil => simp
  | cons b bs ih =>
    have h := Pending.offer_eq p b
    have h2 := ih (p.offer b)
    exact ⟨h2.1.trans h.1, h2.2.1.trans h.2.1, h2.2.2.trans h.2.2⟩

/-- The exit test is true after the `k`-th candidate for the first time. -/
def Pending.endsAt (p : Pending) (bs : List Byte) : Prop :=
  (p.after bs).done = true ∧ ∀ j < bs.length, (p.after (bs.take j)).done = false

/-- The exit test is not true after any of the candidates, nor before the first. -/
def Pending.waits (p : Pending) (bs : List Byte) : Prop := ∀ j ≤ bs.length, (p.after (bs.take j)).done = false

theorem Pending.endsAt_cons {p : Pending} {b : Byte} {bs : List Byte} (h : p.endsAt (b :: bs)) :
    p.done = false ∧ (p.offer b).endsAt bs := by
  refine ⟨h.2 0 (by simp), h.1, fun j hj => ?_⟩
  exact h.2 (j + 1) (by simpa using hj)

theorem Pending.waits_cons {p : Pending} {b : Byte} {bs : List Byte} (h : p.waits (b :: bs)) :
    p.done = false ∧ (p.offer b).waits bs := by
  refine ⟨h 0 (by simp), fun j hj => ?_⟩
  exact h (j + 1) (by simpa using hj)

/-- With fuel enough the loop ends with the candidate that makes its exit test true. -/
theorem resample_endsAt {fuel : Nat} {p : Pending} {s u : State} {bs : List Byte} (hf : bs.length ≤ fuel)
    (hb : s.nextBytes bs.length = (bs, u)) (h : p.endsAt bs) :
    resample fuel p s = ((p.after bs).deliver { u with pending := none }).complete := by
  induction bs generalizing fuel p s with
  | nil =>
    cases hb
    exact resample_done h.1 _ _
  | cons b bs ih =>
    obtain ⟨h0, h1⟩ := Pending.endsAt_cons h
    rw [List.length_cons, State.nextBytes_succ, Prod.mk.injEq, List.cons.injEq] at hb
    obtain ⟨⟨e1, e2⟩, e3⟩ := hb
    cases fuel with
    | zero => simp at hf
    | succ fuel =>
      rw [resample_succ, h0, if_neg (by decide), e1]
      exact ih (by simpa using hf) (Prod.ext e2 e3) h1

/-- With no candidate that makes the exit test true the command stays in progress. -/
theorem resample_waits {p : Pending} {s u : State} {bs : List Byte} (hb : s.nextBytes bs.length = (bs, u))
    (h : p.waits bs) : resample bs.length p s = { u with pending := some (p.after bs) } := by
  induction bs generalizing p s with
  | nil =>
    cases hb
    have h0 : p.done = false := h 0 (Nat.le_refl 0)
    simp [resample, h0]
  | cons b bs ih =>
    obtain ⟨h0, h1⟩ := Pending.waits_cons h
    rw [List.length_cons, State.nextBytes_succ, Prod.mk.injEq, List.cons.injEq] at hb
    obtain ⟨⟨e1, e2⟩, e3⟩ := hb
    rw [List.length_cons, resample_succ, h0, if_neg (by decide), e1]
    exact ih (Prod.ext e2 e3) h1

theorem State.nextBytes_pending (n : Nat) (s : State) (x : Option Pending) :
    State.nextBytes n { s with pending := x } = ((s.nextBytes n).1, { (s.nextBytes n).2 with pending := x }) := by
  have h := State.nextBytes_congr n (show s.SameSource { s with pending := x } from ⟨rfl, rfl, rfl, rfl, rfl⟩)
  have h1 := State.nextBytes_frame n { s with pending := x }
  have h2 := State.nextBytes_frame n s
  simp only [State.SameButDraws] at h1 h2
  obtain ⟨ha, hb, hc, hd, he, hg⟩ := h
  refine Prod.ext ha ?_
  rw [h1, hb, hc, hd, he, hg]
  exact (congrArg (fun w : State => { w with pending := x }) h2).symm

/-- `goOn_endsAt` for a step that draws `N` candidates, whatever `N` is. -/
theorem goOn_endsAt_of {N : Nat} (hN : 0 < N)
    (hstep : ∀ (p : Pending) (s : State), s.pending = some p → (∀ rest, s.bus ≠ .reset :: rest) →
      step s = .next (resample N p s))
    {p : Pending} {s u : State} {bs : List Byte} (hr : ∀ rest, s.bus ≠ .reset :: rest)
    (hb : s.nextBytes bs.length = (bs, u)) (h : p.endsAt bs) :
    ∃ n, State.goOn n { s with pending := some p } = some (((p.after bs).deliver { u with pending := none }).complete) := by
  induction hk : bs.length using Nat.strong_induction_on generalizing p s bs with
  | _ k ih =>
    have hs : step { s with pending := some p } =
        .next (resample N p { s with pending := some p }) := hstep p _ rfl hr
    have hb' : State.nextBytes bs.length { s with pending := some p } = (bs, { u with pending := some p }) := by
      rw [State.nextBytes_pending, hb]
    by_cases hf : bs.length ≤ N
    · have he := resample_endsAt hf hb' h
      refine ⟨2, ?_⟩
      have hp : (((p.after bs).deliver { u with pending := none }).complete).pending = none := by
        rcases deliver_cases (p.after bs) { u with pending := none } with ⟨_, -, h⟩ | ⟨_, _, -, h⟩ <;> rw [h] <;> rfl
      have he : resample N p { s with pending := some p } =
          ((p.after bs).deliver { u with pending := none }).complete := he
      simp only [State.goOn, hs, he, hp, reduceCtorEq, if_false, if_true]
    · obtain ⟨m, hm⟩ := Nat.exists_eq_add_of_le (Nat.le_of_lt (Nat.lt_of_not_le hf))
      have ha := State.nextBytes_add N m s
      rw [← hm, hb] at ha
      obtain ⟨e1, e2⟩ := Prod.mk.inj ha
      generalize hv : (s.nextBytes N).2 = v at *
      generalize hx : (s.nextBytes N).1 = xs at *
      have hxl : xs.length = N := by rw [← hx, State.nextBytes_length]
      have hyl : (v.nextBytes m).1.length = m := State.nextBytes_length m v
      generalize hy : (v.nextBytes m).1 = ys at *
      have hw : p.waits xs := by
        intro j hj
        have := h.2 j (by rw [e1, List.length_append]; omega)
        rwa [e1, List.take_append_of_le_length hj] at this
      have hsx : State.nextBytes xs.length { s with pending := some p } = (xs, { v with pending := some p }) := by
        rw [State.nextBytes_pending, hxl, hx, hv]
      have hres : resample N p { s with pending := some p } =
          { v with pending := some (p.after xs) } := by
        have h3 := resample_waits hsx hw
        rwa [hxl] at h3
      have hend : (p.after xs).endsAt ys := by
        refine ⟨by rw [← Pending.after_append, ← e1]; exact h.1, fun j hj => ?_⟩
        have := h.2 (xs.length + j) (by rw [e1, List.length_append]; omega)
        rwa [e1, List.take_length_add_append, Pending.after_append] at this
      have hvb : ∀ rest, v.bus ≠ .reset :: rest := by
        have := State.nextBytes_frame N s
        rw [hv] at this
        have hbus : v.bus = s.bus := by rw [this]
        rw [hbus]
        exact hr
      obtain ⟨n, hn⟩ := ih m (by omega) hvb
        (show v.nextBytes ys.length = (ys, u) from by rw [hyl]; exact Prod.ext hy e2.symm) hend hyl
      refine ⟨n + 1, ?_⟩
      simp only [State.goOn, hs, hres, reduceCtorEq, if_false]
      rw [hn, ← Pending.after_append, ← e1]

/-- `endsIn_of_endsAt` for a step that draws `N` candidates, whatever `N` is. -/
theorem endsIn_of_endsAt_of {N : Nat} (hN : 0 < N)
    (hstep : ∀ (p : Pending) (s : State), s.pending = some p → (∀ rest, s.bus ≠ .reset :: rest) →
      step s = .next (resample N p s))
    {i : Instr} {s u v : State} {p : Pending} {bs : List Byte}
    (he : exec i s = .next (resample N p u)) (hr : ∀ rest, u.bus ≠ .reset :: rest)
    (hb : u.nextBytes bs.length = (bs, v)) (h : p.endsAt bs) :
    EndsIn i s (((p.after bs).deliver { v with pending := none }).complete) := by
  have hp : (((p.after bs).deliver { v with pending := none }).complete).pending = none := by
    rcases deliver_cases (p.after bs) { v with pending := none } with ⟨_, -, h⟩ | ⟨_, _, -, h⟩ <;> rw [h] <;> rfl
  by_cases hf : bs.length ≤ N
  · refine ⟨_, 0, he, ?_⟩
    rw [resample_endsAt hf hb h]
    simp only [State.goOn, hp, if_true]
  · obtain ⟨m, hm⟩ := Nat.exists_eq_add_of_le (Nat.le_of_lt (Nat.lt_of_not_le hf))
    have ha := State.nextBytes_add N m u
    rw [← hm, hb] at ha
    obtain ⟨e1, e2⟩ := Prod.mk.inj ha
    have hxl := State.nextBytes_length N u
    have hfr := State.nextBytes_frame N u
    generalize hw : (u.nextBytes N).2 = w at *
    generalize hx : (u.nextBytes N).1 = xs at *
    have hyl : (w.nextBytes m).1.length = m := State.nextBytes_length m w
    generalize hy : (w.nextBytes m).1 = ys at *
    have hwait : p.waits xs := by
      intro j hj
      have := h.2 j (by rw [e1, List.length_append]; omega)
      rwa [e1, List.take_append_of_le_length hj] at this
    have hres : resample N p u = { w with pending := some (p.after xs) } := by
      have h3 := resample_waits (s := u) (u := w) (bs := xs) (by rw [hxl, ← hx, ← hw]) hwait
      rwa [hxl] at h3
    have hend : (p.after xs).endsAt ys := by
      refine ⟨by rw [← Pending.after_append, ← e1]; exact h.1, fun j hj => ?_⟩
      have := h.2 (xs.length + j) (by rw [e1, List.length_append]; omega)
      rwa [e1, List.take_length_add_append, Pending.after_append] at this
    have hvb : ∀ rest, w.bus ≠ .reset :: rest := by
      have hbus : w.bus = u.bus := by rw [hfr]
      rw [hbus]
      exact hr
    obtain ⟨n, hn⟩ := goOn_endsAt_of hN hstep hvb (show w.nextBytes ys.length = (ys, v) from by rw [hyl]; exact Prod.ext hy e2.symm) hend
    refine ⟨_, n, he, ?_⟩
    rw [hres, hn, ← Pending.after_append, ← e1]

/-- A command in progress ends with the candidate that makes its exit test true, after as many steps as it takes, if no
reset stands next in the queue (R309). -/
theorem goOn_endsAt {p : Pending} {s u : State} {bs : List Byte} (hr : ∀ rest, s.bus ≠ .reset :: rest)
    (hb : s.nextBytes bs.length = (bs, u)) (h : p.endsAt bs) :
    ∃ n, State.goOn n { s with pending := some p } = some (((p.after bs).deliver { u with pending := none }).complete) :=
  goOn_endsAt_of (N := Config.candidatesPerStep) (by decide) (fun _ _ hp hb => step_goOn hp hb) hr hb h

/-- A command that starts its loop in state `u` ends as R309 says. -/
theorem endsIn_of_endsAt {i : Instr} {s u v : State} {p : Pending} {bs : List Byte}
    (he : exec i s = .next (resample Config.candidatesPerStep p u)) (hr : ∀ rest, u.bus ≠ .reset :: rest)
    (hb : u.nextBytes bs.length = (bs, v)) (h : p.endsAt bs) :
    EndsIn i s (((p.after bs).deliver { v with pending := none }).complete) :=
  endsIn_of_endsAt_of (N := Config.candidatesPerStep) (by decide) (fun _ _ hp hb => step_goOn hp hb) he hr hb h

end Sys2Proof.Machine
end

