-- ==== Sys2Proof/Machine/Assembly.lean ====
section
/-! DEFINITION. The assembler's text of a command (30_encoding.md R98): mnemonic, then destination and sources. -/

namespace Sys2Proof

/-- `g0` to `g15` (R98). -/
def regText (r : RegNum) : String := "g" ++ toString r.val

/-- Register operands separated by commas (R98). -/
def regsText : List RegNum → String
  | [] => ""
  | [r] => regText r
  | r :: rest => regText r ++ ", " ++ regsText rest

/-- A memory operand, `imm(gA)` (R98). -/
def memText (ra : RegNum) (imm : Int) : String := toString imm ++ "(" ++ regText ra ++ ")"

/-- A command of register operands only. -/
def lineText (o : Opcode) (regs : List RegNum) : String :=
  if regs = [] then o.row.name else o.row.name ++ " " ++ regsText regs

/-- A command as R98 writes it. -/
def Instr.text : Instr → String
  | .li rd imm => "LI " ++ regText rd ++ ", " ++ toString imm
  | .mov rd ra => lineText .mov [rd, ra]
  | .ldw rd ra imm => "LDW " ++ regText rd ++ ", " ++ memText ra imm
  | .stw rd ra imm => "STW " ++ regText rd ++ ", " ++ memText ra imm
  | .wipe ra rb => lineText .wipe [ra, rb]
  | .gfadd rd ra rb => lineText .gfadd [rd, ra, rb]
  | .gfsub rd ra rb => lineText .gfsub [rd, ra, rb]
  | .gfmul rd ra rb => lineText .gfmul [rd, ra, rb]
  | .gfinv rd ra => lineText .gfinv [rd, ra]
  | .gfdiv rd ra rb => lineText .gfdiv [rd, ra, rb]
  | .gfvalid rd ra => lineText .gfvalid [rd, ra]
  | .peval rd ra rb rc => lineText .peval [rd, ra, rb, rc]
  | .pvalid rd ra rb => lineText .pvalid [rd, ra, rb]
  | .genpoly ra rb rc => lineText .genpoly [ra, rb, rc]
  | .genpts ra rb => lineText .genpts [ra, rb]
  | .lagr rd ra rb rc re => lineText .lagr [rd, ra, rb, rc, re]
  | .recon rd ra rb rc => lineText .recon [rd, ra, rb, rc]
  | .brecon ra rb rc re => lineText .brecon [ra, rb, rc, re]
  | .rndb rd => lineText .rndb [rd]
  | .rndnz rd => lineText .rndnz [rd]
  | .rndint rd ra => lineText .rndint [rd, ra]
  | .rndfill ra rb => lineText .rndfill [ra, rb]
  | .rnduniq ra rb rc => lineText .rnduniq [ra, rb, rc]
  | .rndclr => lineText .rndclr []
  | .rndseed => lineText .rndseed []

end Sys2Proof
end

