-- ==== Sys2Proof/Tests/Slice0.lean ====
section
/-! SUPPORT. Tests: expected values from spec/95_test_vectors.md, 96_vectors_arithmetic.md and
97_vectors_random_recon_faults.md (each theorem names its vector), and for every obligation that has hypotheses a witness
that they can be met. Every test of the block runs one step. -/

namespace Sys2Proof.Tests

open Sys2Proof Sys2Proof.Machine

-- One theorem after another: a thread for each of them at once would not fit the memory limit of check.sh.
set_option Elab.async false

/-! ## Helpers -/

/-- The reset state with registers and scratchpad words placed. -/
def place (gs : List (RegNum × Word)) (ms : List (Nat × List Word)) : State :=
  ms.foldl (fun s m => s.memWrite m.1 m.2) (gs.foldl (fun s g => s.writeG g.1 g.2) State.reset)

/-- The "zero-pool trick" of 95_test_vectors.md: INIT = 1, a pool of zeros, and for each byte `f` that `NextByte()` is
to return the pair (f, 0) from the entropy source. -/
def fed (fs : List Byte) (s : State) : State :=
  { s with initFlag := true, entropy := fs.flatMap (fun f => [f, 0]) }

/-- A state with one access of the host waiting. -/
def host (e : BusEvent) (s : State) : State := { s with bus := [e] }

/-- The state with FAULT 1, as after a DivisionByZero. -/
def faulted : State := State.reset.faultEntry 0x13310000 ⟨.divisionByZero, 0, 0⟩

/-- One step on a state with the command word `w` next. -/
def run (w : Nat) (s : State) : Outcome := step (s.withFetchWord 32 w)

/-- The state a step answers. -/
def next : Outcome → Option State
  | .next t => some t
  | .fault _ => none
  | .refused _ => none

/-- The refusal a step answers. -/
def refusal : Outcome → Option Refusal
  | .next _ => none
  | .fault _ => none
  | .refused r => some r

/-- The state after a command that completed and was counted as the first. -/
def completed (o : Outcome) : Option State :=
  (next o).bind (fun t => if t.faultFlag = false ∧ t.pending = none ∧ t.cmdcnt = 1 then some t else none)

/-- Register `r` after a command that completed. -/
def gives (o : Outcome) (r : RegNum) : Option Word := (completed o).map (fun t => t.readG r)

/-- Words of the scratchpad after a command that completed. -/
def stores (o : Outcome) (a n : Nat) : Option (List Word) := (completed o).map (fun t => t.memRead a n)

/-- FCAUSE, FIDX, FGRP after a command that faulted, its FSEQ being 0 and its CMDCNT 1. -/
def record (o : Outcome) : Option (Nat × Word × Word) :=
  (next o).bind (fun t =>
    if t.faultFlag ∧ t.fseq = 0 ∧ t.cmdcnt = 1 then some (t.fcause.toNat, t.fidx, t.fgrp) else none)

/-- What the host reads in one access. -/
def reads (s : State) : Option Word := (next (step s)).bind (fun t => t.readData)

/-! ## Well-formedness and encoding -/

/-- R93: −32768 and 32767 are the ends of the immediate's range. -/
theorem test_li_wellFormed : (Instr.li 3 (-32768)).wellFormed = true ∧ (Instr.li 3 32767).wellFormed = true := by decide

/-- R93: outside them there is no encoding. -/
theorem test_li_illFormed : (Instr.li 3 32768).wellFormed = false ∧ (Instr.li 3 (-32769)).wellFormed = false := by
  decide

theorem test_ldw_illFormed : (Instr.ldw 4 1 32768).wellFormed = false ∧ (Instr.ldw 4 1 (-32769)).wellFormed = false := by
  decide

theorem test_stw_illFormed : (Instr.stw 5 1 32768).wellFormed = false ∧ (Instr.stw 5 1 (-32769)).wellFormed = false := by
  decide

/-- The words of the rules R120 to R124, and vectors DM3, DM11, DM18. -/
theorem test_decode_movement :
    [0x013000C8, 0x01308000, 0x02210000, 0x0341FFFF, 0x0451FF00, 0x05012000].map (decodeTableWord 32) =
    [some (.li 3 200), some (.li 3 (-32768)), some (.mov 2 1), some (.ldw 4 1 (-1)), some (.stw 5 1 (-256)),
      some (.wipe 1 2)] := by decide +kernel

/-- The words of the rules R150 to R155. -/
theorem test_decode_field :
    [0x10312000, 0x11312000, 0x12312000, 0x13310000, 0x14312000, 0x15310000].map (decodeTableWord 32) =
    [some (.gfadd 3 1 2), some (.gfsub 3 1 2), some (.gfmul 3 1 2), some (.gfinv 3 1), some (.gfdiv 3 1 2),
      some (.gfvalid 3 1)] := by decide +kernel

/-- The words of the rules R171, R222, R220, R221, R181, R231, R232. -/
theorem test_decode_sharing :
    [0x20412300, 0x21413000, 0x22012300, 0x23012000, 0x30512340, 0x31512300, 0x32012340].map (decodeTableWord 32) =
    [some (.peval 4 1 2 3), some (.pvalid 4 1 3), some (.genpoly 1 2 3), some (.genpts 1 2), some (.lagr 5 1 2 3 4),
      some (.recon 5 1 2 3), some (.brecon 1 2 3 4)] := by decide +kernel

/-- The words of the rules R200 to R207. -/
theorem test_decode_random :
    [0x40300000, 0x41300000, 0x42310000, 0x43012000, 0x44012300, 0x45000000, 0x46000000].map (decodeTableWord 32) =
    [some (.rndb 3), some (.rndnz 3), some (.rndint 3 1), some (.rndfill 1 2), some (.rnduniq 1 2 3), some .rndclr,
      some .rndseed] := by decide +kernel

/-- The legal words of 97 §3.8 with every register field 15. -/
theorem test_decode_all_fields :
    [0x01F0FFFF, 0x02FF0000, 0x03FFFFFF, 0x10FFF000, 0x20FFFF00, 0x30FFFFF0, 0x31FFFF00, 0x320FFFF0, 0x40F00000].map
      (decodeTableWord 32) =
    [some (.li 15 (-1)), some (.mov 15 15), some (.ldw 15 15 (-1)), some (.gfadd 15 15 15), some (.peval 15 15 15 15),
      some (.lagr 15 15 15 15 15), some (.recon 15 15 15 15), some (.brecon 15 15 15 15), some (.rndb 15)] := by
  decide +kernel

/-- The illegal words IL1 to IL22. -/
theorem test_illegal_words :
    [0x00000000, 0xFFFFFFFF, 0x06000000, 0x0F000000, 0x16000000, 0x24000000, 0x33000000, 0x47000000, 0x10312001,
      0x10312100, 0x10312010, 0x01310000, 0x02210001, 0x05112000, 0x13312000, 0x22112300, 0x23012300, 0x31512310,
      0x32112340, 0x40310000, 0x45000001, 0x46000100].all (fun w => decodeTableWord 32 w == none) = true := by
  decide +kernel

/-- IL9: FCMD holds the illegal word. -/
theorem test_illegal_record :
    record (run 0x10312001 State.reset) = some (15, 0, 0) ∧
    (next (run 0x10312001 State.reset)).map (fun t => t.fcmd) = some 0x10312001 := by decide +kernel

/-- R98, R99: the text of a command, and the aliases' words. -/
theorem test_assembly :
    (Instr.lagr 5 1 2 3 4).text = "LAGR g5, g1, g2, g3, g4" ∧ (Instr.ldw 4 1 (-1)).text = "LDW g4, -1(g1)" ∧
    encode (gfneg 2 1) = 0x02210000 ∧ encode (rndelem 3) = 0x40300000 := by decide +kernel

/-! ## The commands -/

/-- DM3, DM4. -/
theorem test_li : gives (run 0x01308000 State.reset) 3 = some 0xFFFF8000 ∧
    gives (run 0x01307FFF State.reset) 3 = some 0x00007FFF := by decide +kernel

/-- CMDCNT wraps (97 §3.9, last paragraph). -/
theorem test_cmdcnt_wraps :
    (next (run 0x01100001 { State.reset with cmdcnt := 0xFFFFFFFF })).map (fun t => (t.cmdcnt, t.readG 1)) = some (0, 1) ∧
    (next (run 0 { State.reset with cmdcnt := 0xFFFFFFFF })).map (fun t => (t.cmdcnt, t.fseq)) =
      some (0, 0xFFFFFFFF) := by decide +kernel

/-- DM7. -/
theorem test_mov : gives (run 0x02210000 (place [(1, 0x12345678)] [])) 2 = some 0x12345678 := by decide +kernel

/-- DM11, DM16: the address wraps modulo 2^32. -/
theorem test_ldw : gives (run 0x0341FFFF (place [(1, 1)] [(0, [0xDEADBEEF])])) 4 = some 0xDEADBEEF ∧
    gives (run 0x03410011 (place [(1, 0xFFFFFFFF)] [(0x10, [0x99])])) 4 = some 0x99 := by decide +kernel

/-- DM12. -/
theorem test_ldw_faults : record (run 0x0341FFFF State.reset) = some (16, 0, 0) := by decide +kernel

/-- DM18, DM20. -/
theorem test_stw : stores (run 0x0451FF00 (place [(1, 0x100), (5, 0xFFFFFFFF)] [])) 0 1 = some [0xFFFFFFFF] ∧
    stores (run 0x0451FFFF (place [(1, 0x1000), (5, 0xC8)] [])) 0xFFF 1 = some [0xC8] := by decide +kernel

/-- DM19. -/
theorem test_stw_faults : record (run 0x04517FFF (place [(5, 0xC8)] [])) = some (16, 0, 0) := by decide +kernel

/-- DM21, with the words on both sides. -/
theorem test_wipe : stores (run 0x05012000 (place [(1, 0x100), (2, 3)] [(0xFF, [9, 9, 9, 9, 9])])) 0xFF 5 =
    some [9, 0, 0, 0, 9] := by decide +kernel

/-- DM25, DM28. -/
theorem test_wipe_faults : record (run 0x05012000 (place [(1, 0xFFE), (2, 3)] [(0xFFE, [7, 7])])) = some (16, 0, 0) ∧
    record (run 0x05012000 (place [(1, 0x2000), (2, 0)] [])) = some (1, 0, 0) := by decide +kernel

/-- FA1; FF2. -/
theorem test_gfadd : gives (run 0x10312000 (place [(1, 0x57), (2, 0x83), (3, 0xEE)] [])) 3 = some 0xD4 ∧
    record (run 0x10312000 (place [(1, 1), (2, 0x100), (3, 0xEE)] [])) = some (2, 1, 0) := by decide +kernel

/-- FA7; FF3. -/
theorem test_gfsub : gives (run 0x11312000 (place [(1, 0), (2, 1), (3, 0xEE)] [])) 3 = some 1 ∧
    record (run 0x11312000 (place [(1, 0xFFFFFFFF), (2, 0x100), (3, 0xEE)] [])) = some (2, 0, 0) := by decide +kernel

/-- FA8, FA21: the sources are read before the destination is written. -/
theorem test_gfmul : gives (run 0x12312000 (place [(1, 0x57), (2, 0x83), (3, 0xEE)] [])) 3 = some 0xC1 ∧
    gives (run 0x12111000 (place [(1, 0x10)] [])) 1 = some 0x1B := by decide +kernel

/-- FF4. -/
theorem test_gfmul_faults : record (run 0x12312000 (place [(1, 0), (2, 0x1FF), (3, 0xEE)] [])) = some (2, 1, 0) := by
  decide +kernel

/-- FA25, FA29. -/
theorem test_gfinv : gives (run 0x13310000 (place [(1, 0x53), (3, 0xEE)] [])) 3 = some 0xCA ∧
    gives (run 0x13110000 (place [(1, 0x8D)] [])) 1 = some 2 := by decide +kernel

/-- FF5, FF6. -/
theorem test_gfinv_faults : record (run 0x13310000 (place [(1, 0), (3, 0xEE)] [])) = some (12, 0, 0) ∧
    record (run 0x13310000 (place [(1, 0x100), (3, 0xEE)] [])) = some (2, 0, 0) := by decide +kernel

/-- FA30, FA34. -/
theorem test_gfdiv : gives (run 0x14312000 (place [(1, 0xC1), (2, 0x83), (3, 0xEE)] [])) 3 = some 0x57 ∧
    gives (run 0x14312000 (place [(1, 1), (2, 2), (3, 0xEE)] [])) 3 = some 0x8D := by decide +kernel

/-- FF8, FF9. -/
theorem test_gfdiv_faults : record (run 0x14312000 (place [(1, 0), (2, 0), (3, 0xEE)] [])) = some (12, 0, 0) ∧
    record (run 0x14312000 (place [(1, 0x1FF), (2, 0), (3, 0xEE)] [])) = some (2, 0, 0) := by decide +kernel

/-- FA39, FA40, FA42. -/
theorem test_gfvalid : gives (run 0x15310000 (place [(1, 0xFF), (3, 0xEEEEEEEE)] [])) 3 = some 1 ∧
    gives (run 0x15310000 (place [(1, 0x100), (3, 0xEEEEEEEE)] [])) 3 = some 0 ∧
    gives (run 0x15310000 (place [(1, 0x80000000), (3, 0xEEEEEEEE)] [])) 3 = some 0 := by decide +kernel

/-- PE4; PE12: the destination is the point's register. -/
theorem test_peval :
    gives (run 0x20412300 (place [(1, 0x100), (2, 3), (3, 3), (4, 0xEE)] [(0x100, [0xC8, 0x1D, 0x4F])])) 4 =
      some 0x87 ∧
    gives (run 0x20312300 (place [(1, 0x100), (2, 3), (3, 3)] [(0x100, [0xC8, 0x1D, 0x4F])])) 3 = some 0x87 := by
  decide +kernel

/-- PE19, PE21: the point is checked before the coefficients. -/
theorem test_peval_faults :
    record (run 0x20412300 (place [(1, 0x100), (2, 3), (3, 3), (4, 0xEE)] [(0x100, [0xC8, 0x100, 0x4F])])) =
      some (2, 1, 0) ∧
    record (run 0x20412300 (place [(1, 0x100), (2, 3), (3, 0x100), (4, 0xEE)] [(0x100, [0x1C8, 0x1D, 0x4F])])) =
      some (2, 0xFFFFFFFF, 0) := by decide +kernel

/-- PV3, PV4, PV5, PV6. -/
theorem test_pvalid :
    gives (run 0x21412000 (place [(1, 0x100), (2, 1), (4, 0xEE)] [(0x100, [0])])) 4 = some 1 ∧
    gives (run 0x21412000 (place [(1, 0x100), (2, 2), (4, 0xEE)] [(0x100, [5, 0])])) 4 = some 0 ∧
    gives (run 0x21412000 (place [(1, 0x100), (2, 3), (4, 0xEE)] [(0x100, [5, 0, 7])])) 4 = some 1 ∧
    gives (run 0x21412000 (place [(1, 0x100), (2, 2), (4, 0xEE)] [(0x100, [5, 0x100])])) 4 = some 0 := by
  decide +kernel

/-- PV13, PV14. -/
theorem test_pvalid_faults : record (run 0x21412000 (place [(1, 0x100), (2, 0x101), (4, 0xEE)] [])) = some (1, 0, 0) ∧
    record (run 0x21412000 (place [(1, 0xFFF), (2, 2), (4, 0xEE)] [])) = some (16, 0, 0) := by decide +kernel

/-- LG1; LG7: x = 0 is a point like any other. -/
theorem test_lagr :
    gives (run 0x30512340 (place [(1, 0x200), (2, 3), (3, 0x210), (4, 3), (5, 0xEE)]
      [(0x200, [1, 3, 5]), (0x210, [0x9A, 0x87, 0x72])])) 5 = some 0xC8 ∧
    gives (run 0x30512340 (place [(1, 0x200), (2, 2), (3, 0x210), (4, 2), (5, 0xEE)]
      [(0x200, [0, 3]), (0x210, [0xC8, 0x87])])) 5 = some 0xC8 := by decide +kernel

/-- LF5, LF7, LF10, LF13: the order of the checks. -/
theorem test_lagr_faults :
    record (run 0x30512340 (place [(1, 0x200), (2, 0xFFFFFFFF), (3, 0x210), (4, 0)] [])) = some (1, 0, 0) ∧
    record (run 0x30512340 (place [(1, 0x200), (2, 3), (3, 0x210), (4, 2)]
      [(0x200, [1, 1, 5]), (0x210, [0x9A, 0x87])])) = some (13, 0, 0) ∧
    record (run 0x30512340 (place [(1, 0x200), (2, 4), (3, 0x210), (4, 4)]
      [(0x200, [1, 3, 3, 1]), (0x210, [1, 2, 2, 1])])) = some (7, 2, 0) ∧
    record (run 0x30512340 (place [(1, 0x200), (2, 3), (3, 0x210), (4, 3)]
      [(0x200, [1, 1, 5]), (0x210, [1, 0xFFFFFFFF, 3])])) = some (2, 1, 0) := by decide +kernel

/-- RC1, RC9. -/
theorem test_recon :
    gives (run 0x31512300 (place [(1, 0x200), (2, 3), (3, 3), (5, 0xEE)] [(0x200, [1, 0x9A, 3, 0x87, 5, 0x72])])) 5 =
      some 0xC8 ∧
    gives (run 0x31512300 (place [(1, 0x200), (2, 1), (3, 0), (5, 0xEE)] [(0x200, [7, 0x33])])) 5 = some 0x33 := by
  decide +kernel

/-- RC22, RC23. -/
theorem test_recon_faults :
    record (run 0x31512300 (place [(1, 0x200), (2, 3), (3, 3), (5, 0xEE)] [(0x200, [1, 0x9A, 1, 0x9A, 0, 0x72])])) =
      some (3, 2, 0) ∧
    record (run 0x31512300 (place [(1, 0x200), (2, 4), (3, 2), (5, 0xEE)] [(0x200, [1, 1, 2, 2, 2, 3, 1, 4])])) =
      some (7, 2, 0) := by decide +kernel

/-- The base state of the BRECON vectors (97 §3.7) with its result array at `ob`. -/
def breconBase (ob : Word) : State :=
  place [(1, 0x220), (2, 2), (3, 2), (4, ob)]
    [(0x220, [0x240, 2, 0x250, 2]), (0x240, [1, 0x4B, 2, 0x18]), (0x250, [2, 0xE4, 3, 0x1B]), (0x260, [0xEE, 0xEE])]

/-- BR1; BR17: the results overwrite the descriptors after all were read. -/
theorem test_brecon : stores (run 0x32012340 (breconBase 0x260)) 0x260 2 = some [0x7A, 1] ∧
    stores (run 0x32012340 (breconBase 0x220)) 0x220 2 = some [0x7A, 1] := by decide +kernel

/-- BR5, and BR2: no result word is written. -/
theorem test_brecon_faults :
    record (run 0x32012340 ((breconBase 0x260).writeSpm 0x252 0)) = some (3, 1, 1) ∧
    record (run 0x32012340 ((breconBase 0x260).writeSpm 0x223 1)) = some (8, 0, 1) ∧
    (next (run 0x32012340 ((breconBase 0x260).writeSpm 0x223 1))).map (fun t => t.memRead 0x260 2) =
      some [0xEE, 0xEE] := by decide +kernel

/-- RN1. -/
theorem test_rndb :
    (completed (run 0x40300000 (fed [0xB4] (place [(3, 0xEE)] [])))).map
      (fun t => (t.readG 3, t.drawn, t.cur, t.initFlag)) = some (0xB4, 2, 1, true) := by decide +kernel

/-- RN38: the pool is filled first; the first bytes of table V8 and its last. -/
theorem test_rndb_fills_the_pool :
    (completed (run 0x40300000
      { State.reset with entropy := (List.range 256).map (fun i => BitVec.ofNat 8 (0x11 + i)) ++ [0xA5, 0x3C] })).map
      (fun t => ([t.readG 3, t.cur.setWidth 32], t.drawn, t.initFlag, t.pool.take 4 ++ t.pool.drop 255)) =
      some ([0xB4, 1], 258, true, [0x3D, 0x06, 0x07, 0x04, 0x13]) := by decide +kernel

/-- RN3, RN4. -/
theorem test_rndnz :
    (completed (run 0x41300000 (fed [0, 7] State.reset))).map (fun t => (t.readG 3, t.drawn, t.cur)) = some (7, 4, 2) ∧
    (completed (run 0x41300000 (fed [0, 0, 0, 0xFF] State.reset))).map (fun t => (t.readG 3, t.drawn, t.cur)) =
      some (0xFF, 8, 4) := by decide +kernel

/-- RN7: 0xFC and 0xFF are rejected; RN9: max = 256 rejects nothing. -/
theorem test_rndint :
    (completed (run 0x42310000 (fed [0xFC, 0xFF, 0] (place [(1, 6)] [])))).map (fun t => (t.readG 3, t.drawn)) =
      some (0, 6) ∧
    (completed (run 0x42310000 (fed [0xFF] (place [(1, 0x100)] [])))).map (fun t => (t.readG 3, t.drawn)) =
      some (0xFF, 2) := by decide +kernel

/-- RN13, RN14, RN15. -/
theorem test_rndint_faults : record (run 0x42310000 State.reset) = some (1, 0, 0) ∧
    record (run 0x42310000 (place [(1, 0xFFFFFFFF)] [])) = some (1, 0, 0) ∧
    record (run 0x42310000 (place [(1, 0x101)] [])) = some (1, 0, 0) := by decide +kernel

/-- RN16. -/
theorem test_rndfill : stores (run 0x43012000 (fed [0x21, 0x43] (place [(1, 0x300), (2, 2)] []))) 0x300 3 =
    some [0x21, 0x43, 0] := by decide +kernel

/-- RN18, RN20: no byte is drawn. -/
theorem test_rndfill_faults :
    record (run 0x43012000 (fed [1] (place [(1, 0x300), (2, 0)] []))) = some (1, 0, 0) ∧
    record (run 0x43012000 (fed [1] (place [(1, 0xFFF), (2, 2)] []))) = some (16, 0, 0) ∧
    (next (run 0x43012000 (fed [1] (place [(1, 0xFFF), (2, 2)] [])))).map (fun t => t.drawn) = some 0 := by
  decide +kernel

/-- RN22; RN29: a count of 0 completes before the limit is looked at. -/
theorem test_rnduniq :
    stores (run 0x44012300 (fed [2, 2, 0xFF, 0, 5, 4] (place [(1, 0x300), (2, 3), (3, 3)] []))) 0x300 3 =
      some [0, 1, 2] ∧
    stores (run 0x44012300 (place [(1, 0x300), (2, 0), (3, 0x12C)] [])) 0x300 1 = some [0] := by decide +kernel

/-- RN28, RN30, RN32. -/
theorem test_rnduniq_faults :
    record (run 0x44012300 (place [(1, 0x300), (2, 0xFFFFFFFF), (3, 0xFFFFFFFE)] [])) = some (1, 0, 0) ∧
    record (run 0x44012300 (place [(1, 0x300), (2, 2), (3, 0x12C)] [])) = some (1, 1, 0) ∧
    record (run 0x44012300 (place [(1, 0xFFF), (2, 2), (3, 4)] [])) = some (16, 0, 0) := by decide +kernel

/-- RN34, RN42. -/
theorem test_rndclr :
    (completed (run 0x45000000 { fed [] State.reset with cur := 1, pool := List.replicate 256 7 })).map
      (fun t => (t.initFlag, t.cur, t.pool, t.drawn)) = some (false, 0, List.replicate 256 0, 0) := by decide +kernel

/-- RN39. -/
theorem test_rndseed :
    (completed (run 0x46000000
      { State.reset with entropy := (List.range 256).map (fun i => BitVec.ofNat 8 (0x11 + i)) })).map
      (fun t => (t.initFlag, t.cur, t.drawn, t.pool)) =
      some (true, 0, 256, (List.range 256).map (fun i => BitVec.ofNat 8 (0x11 + i))) := by decide +kernel

/-- GN1, GN2. -/
theorem test_genpoly :
    stores (run 0x22012300 (fed [0xAA, 0, 0, 0x9C] (place [(1, 0x100), (2, 5), (3, 4)] []))) 0x100 4 =
      some [5, 0xAA, 0, 0x9C] ∧
    stores (run 0x22012300 (fed [0, 0, 0x1D] (place [(1, 0x100), (2, 0xC8), (3, 2)] []))) 0x100 2 =
      some [0xC8, 0x1D] := by decide +kernel

/-- GN8, GN9, GN13. -/
theorem test_genpoly_faults :
    record (run 0x22012300 (place [(1, 0x100), (2, 0x100), (3, 1)] [])) = some (5, 0, 0) ∧
    record (run 0x22012300 (place [(1, 0x100), (2, 0x100), (3, 0x12C)] [])) = some (6, 0, 0) ∧
    record (run 0x22012300 (place [(1, 0xFFE), (2, 0x100), (3, 3)] [])) = some (4, 0, 0) := by decide +kernel

/-- GN15. -/
theorem test_genpts : stores (run 0x23012000 (fed [5, 0, 5, 2, 0xF0] (place [(1, 0x180), (2, 3)] []))) 0x180 3 =
    some [2, 5, 0xF0] := by decide +kernel

/-- GN17, GN19, GN20. -/
theorem test_genpts_faults : record (run 0x23012000 (place [(1, 0x180), (2, 0)] [])) = some (1, 0, 0) ∧
    record (run 0x23012000 (place [(1, 0x180), (2, 0x100)] [])) = some (1, 0, 0) ∧
    record (run 0x23012000 (place [(1, 0xFFF), (2, 2)] [])) = some (16, 0, 0) := by decide +kernel

/-! ## The host's side: accesses of the sequence of 97 §3.9 -/

/-- Steps 12 to 18: what the host reads after a fault. -/
theorem test_host_reads_the_record :
    [0x0004, 0x000C, 0x0010, 0x0014, 0x0018, 0x001C, 0x0024].map
      (fun off => reads (host (.read .word off)
        (State.reset.faultEntry 0x10312000 ⟨.invalidElement, 1, 0⟩))) =
    [some 1, some 2, some 0x10312000, some 1, some 0, some 0, some 1] := by decide +kernel

/-- Steps 6 and 7: CTRL keeps bit 0. -/
theorem test_host_writes_ctrl :
    (next (step (host (.write .word 0x0008 0xFFFFFFFF) State.reset))).map (fun t => t.ctrl) = some 1 := by decide +kernel

/-- Steps 20 and 21, and 24: a legal and an illegal word are dropped alike. -/
theorem test_host_command_dropped :
    (next (step (host (.write .word 0 0x013000C8) faulted))).map (fun t => (t.status, t.cmdcnt, t.readG 3)) =
      some (3, 1, 0) ∧
    (next (step (host (.write .word 0 0xFFFFFFFF) faulted))).map (fun t => (t.status, t.fcause)) = some (3, 12) := by
  decide +kernel

/-- Steps 35 and 40: FCLR acts on bit 0 alone, and keeps CMDCNT. -/
theorem test_host_clears_the_fault :
    (next (step (host (.write .word 0x0020 0xFFFFFFFE) faulted))).map (fun t => (t.status, t.fcause)) = some (1, 12) ∧
    (next (step (host (.write .word 0x0020 1) faulted))).map (fun t => (t.status, t.fcause, t.fcmd, t.cmdcnt)) =
      some (0, 0, 0, 1) := by decide +kernel

/-- Steps 59, 60 and 8, 10. -/
theorem test_host_memory_and_registers :
    (next (step (host (.write .word 0x4400 0xDEADBEEF) State.reset))).map (fun t => t.readSpm 0x100) = some 0xDEADBEEF ∧
    reads (host (.read .word 0x4400) (place [] [(0x100, [0xDEADBEEF])])) = some 0xDEADBEEF ∧
    reads (host (.read .word 0x0044) (place [(1, 0x57)] [])) = some 0x57 := by decide +kernel

/-- Steps 64 to 70: unmapped offsets and write-only registers. -/
theorem test_host_unmapped :
    [0x0028, 0x0080, 0x003C, 0x8000, 0x0000, 0x0020].map
      (fun off => reads (host (.read .word off) (place [(0, 5)] [(0, [9]), (4095, [9])]))) = List.replicate 6 (some 0) ∧
    next (step (host (.write .word 0x8000 7) State.reset)) = some State.reset := by decide +kernel

/-- R63, U6: accesses without a step. -/
theorem test_host_refused :
    refusal (step (host (.read .byte 0) State.reset)) = some .narrowAccess ∧
    refusal (step (host (.write .half 2 7) State.reset)) = some .narrowAccess ∧
    refusal (step (host (.read .word 2) State.reset)) = some .misalignedAccess := by decide +kernel

/-! ## The host's procedures over the block -/

/-- R241: the secret's second byte is none, so its GENPOLY fails with InvalidSecret and ends the procedure; the fault is
cleared and nothing was dropped. -/
theorem test_generatePolynomials_fails :
    let r := generatePolynomials 0 0x100 2 [0x05, 0x100, 0x07] (fed [1] State.reset)
    r.1 = .error (.fault 4 0 0) ∧ (r.2.status, r.2.cmdcnt) = (4, 2) := by decide +kernel

/-- R242: shares of 0xC8 + 0x1D·x at x = 1 (0xC8 XOR 0x1D) and x = 3 (vector PE10), and the coefficients wiped. -/
theorem test_split :
    let r := split id id 0 0x100 0x180 (.chosen [1, 3]) [0xC8] 2 9 (fed [0x1D] State.reset)
    r.1 = .ok [⟨⟨2, 2, 1, 9⟩, some 1, [⟨1, 0xD5⟩]⟩, ⟨⟨2, 2, 1, 9⟩, some 2, [⟨3, 0xEF⟩]⟩] ∧ r.2.spm = [] := by
  decide +kernel

/-- R242: the points are those of GENPTS (GN15's first two); its failure is the procedure's. -/
theorem test_splitPoints :
    (splitPoints 0 0x180 (.drawn 2) (fed [5, 0, 5, 2] State.reset)).1 = .ok [2, 5] ∧
    (split id id 0 0x100 0x180 (.drawn 0x100) [0xC8] 2 9 State.reset).1 = .error (.fault 1 0 0) := by decide +kernel

/-- The ShareSets of the two secrets of 97's BRECON vectors, the second's second x being `x`. -/
def twoSets (x : Word) : List ShareSet :=
  [⟨⟨2, 2, 2, 0⟩, some 1, [⟨1, 0x4B⟩, ⟨2, 0xE4⟩]⟩, ⟨⟨2, 2, 2, 0⟩, some 2, [⟨2, 0x18⟩, ⟨x, 0x1B⟩]⟩]

/-- R244: BR1's bytes; and a duplicate x at position 1 is the block's DuplicateXCoordinate with FGRP = 1. -/
theorem test_reconstructFromShareSets :
    (reconstructFromShareSets 0x240 0x220 0x260 List.take (twoSets 3) State.reset).1 = .ok [0x7A, 0x01] ∧
    (reconstructFromShareSets 0x240 0x220 0x260 List.take (twoSets 2) State.reset).1 = .error (.fault 7 1 1) ∧
    uniqueXs (twoSets 3) = true ∧ uniqueXs (twoSets 2) = false := by decide +kernel

/-- R244: the host's own checks. -/
theorem test_shareSetChecks :
    shareSetChecks ((twoSets 3).take 1) = .error (.raised .insufficientShareSets) ∧
    shareSetChecks ((twoSets 3) ++ [⟨⟨2, 2, 3, 0⟩, none, []⟩]) = .error (.raised .inconsistentMetadata) := by
  decide +kernel

/-- R245: RC1's shares with an unauthentic one among them; and too few left, the one set aside being counted. -/
theorem test_reconstructFromSecureShares :
    let a := fun (x y : Word) (ok : Bool) => (⟨⟨x, y⟩, 3, 5, ok⟩ : SecureShare)
    (reconstructFromSecureShares true 0x200 [a 1 0x9A true, a 9 9 false, a 3 0x87 true, a 5 0x72 true] State.reset).1 =
      ⟨1, .ok 0xC8⟩ ∧
    (reconstructFromSecureShares true 0x200 [a 1 0x9A true, a 9 9 false, a 3 0x87 true] State.reset).1 =
      ⟨1, .error (.raised .insufficientShares)⟩ := by decide +kernel

/-- R246: RC5's shares; a malformed one is counted, then a wrong one is found, with the count. -/
theorem test_reconstructWithVerification :
    let few := fun s : State => ((⟨0, .error .inconsistentShares⟩ : Counted Byte), s)
    (reconstructWithVerification few 0x200 3 [⟨1, 0x9A⟩, ⟨2, 0xD5⟩, ⟨3, 0x87⟩, ⟨4, 0x20⟩] State.reset).1 = ⟨0, .ok 0xC8⟩ ∧
    (reconstructWithVerification few 0x200 2 [⟨1, 0x9A⟩, ⟨3, 0x87⟩, ⟨3, 0x87⟩, ⟨5, 0x00⟩] State.reset).1 =
      ⟨1, .error .inconsistentShares⟩ := by decide +kernel

/-- R250: with threshold 2 the second share completes it; a share with an x already held changes nothing. -/
theorem test_addShare :
    (Progressive.addShare 0x200 ⟨3, 0xEF⟩ ⟨2, [⟨1, 0xD5⟩], false, none⟩ State.reset).1 =
      .ok (true, ⟨2, [⟨1, 0xD5⟩, ⟨3, 0xEF⟩], true, some 0xC8⟩) ∧
    (Progressive.addShare 0x200 ⟨1, 7⟩ ⟨2, [⟨1, 0xD5⟩], false, none⟩ State.reset).1 =
      .ok (false, ⟨2, [⟨1, 0xD5⟩], false, none⟩) := by decide +kernel

/-- R182's example of too few points. -/
theorem test_too_few_points : lagrange0 [(1, 0x9A), (2, 0xD5)] = 0x56 := by decide +kernel

/-! ## Witnesses: that the hypotheses of each obligation can be met, clause by clause, at the ends of the ranges -/

/-- A step answers a state with the property `P`. -/
theorem answers {o : Outcome} {P : State → Prop} [∀ t, Decidable (P t)]
    (h : (next o).any (fun t => decide (P t)) = true) : ∃ t, o = .next t ∧ P t := by
  cases o with
  | next t => exact ⟨t, rfl, by simpa [next] using h⟩
  | fault _ => simp [next] at h
  | refused _ => simp [next] at h

/-- A command that its loop will end at once: RNDNZ in progress, with a byte that it accepts. -/
def waiting : State := { fed [7] State.reset with pending := some ⟨.nonZero, 1, [], .reg 3⟩ }

/-- No reset stands next in an empty queue. -/
theorem no_reset {s : State} (h : s.bus = []) : ∀ rest, s.bus ≠ .reset :: rest := by
  intro rest hr
  rw [h] at hr
  cases hr

theorem stirPool_zeros : stirPool (List.replicate 256 0) = List.replicate 256 0 := by decide +kernel

theorem getD_zeros (m k : Nat) : (List.replicate m (0 : Byte)).getD k 0 = 0 := by
  rw [List.getD_eq_getElem?_getD, List.getElem?_replicate]
  split <;> rfl

theorem set_zeros (m k : Nat) : (List.replicate m (0 : Byte)).set k 0 = List.replicate m 0 := by
  apply List.ext_getElem?
  intro j
  rw [List.getElem?_set]
  simp only [List.length_replicate, List.getElem?_replicate]
  split <;> simp_all

/-- From a pool of zeros a source of zeros gives outputs of zeros (the zero-pool trick). -/
theorem zeros_nextBytes (n : Nat) (s : State) (rest : List Byte) (hi : s.initFlag = true)
    (hp : s.pool = List.replicate 256 0) (he : s.entropy = List.replicate (2 * n) 0 ++ rest) :
    (s.nextBytes n).1 = List.replicate n 0 ∧ (s.nextBytes n).2.initFlag = true ∧
      (s.nextBytes n).2.pool = List.replicate 256 0 ∧ (s.nextBytes n).2.entropy = rest := by
  induction n generalizing s with
  | zero => exact ⟨rfl, hi, hp, he⟩
  | succ n ih =>
    have h2 : 2 * (n + 1) = 2 * n + 1 + 1 := by omega
    rw [h2, List.replicate_succ, List.replicate_succ] at he
    have h1 : s.nextByte = (0, { s with
        pool := List.replicate 256 0, cur := s.cur + 1, entropy := List.replicate (2 * n) 0 ++ rest
        drawn := s.drawn + 1 + 1 }) := by
      simp only [State.nextByte, State.ensureInit, hi, if_true, State.entropyByte, he, List.cons_append, State.mix, hp,
        stirPool_zeros, getD_zeros, show (0 : Byte) ^^^ 0 = 0 from by decide, set_zeros]
    have h3 := ih s.nextByte.2 (by rw [h1]; exact hi) (by rw [h1]) (by rw [h1])
    rw [State.nextBytes_succ]
    refine ⟨?_, h3.2⟩
    rw [h3.1, h1]
    rfl

/-- A command that draws zeros waiting for a byte that is not 0 is still in progress after them. -/
theorem zeros_wait (n : Nat) (p : Pending) (s : State) (rest : List Byte) (hp : p.sampler = .nonZero)
    (hd : p.done = false) (hi : s.initFlag = true) (hz : s.pool = List.replicate 256 0)
    (he : s.entropy = List.replicate (2 * n) 0 ++ rest) :
    (resample n p s).pending ≠ none := by
  have ha : ∀ m : Nat, p.after (List.replicate m 0) = p := by
    intro m
    induction m with
    | zero => rfl
    | succ m ih =>
      rw [List.replicate_succ, Pending.after_cons]
      have h0 : p.offer 0 = p := by simp [Pending.offer, Sampler.accept, hp]
      rw [h0]
      exact ih
  have h := resample_waits (p := p) (s := s) (u := (s.nextBytes n).2) (bs := List.replicate n 0)
    (by rw [List.length_replicate, ← (zeros_nextBytes n s rest hi hz he).1])
    (by intro j _; rw [List.take_replicate, ha]; exact hd)
  rw [List.length_replicate] at h
  rw [h]
  exact Option.some_ne_none _

theorem witness_DecodeOfEncode :
    (Instr.stw 15 15 (-32768)).wellFormed = true ∧
    (Instr.li 15 32767).wellFormed = true ∧
    (Instr.lagr 15 0 15 0 15).wellFormed = true := by decide +kernel

theorem witness_EncodeOfDecode :
    decode 0x01F0FFFF = .ok (.li 15 (-1)) ∧
    decode 0x46000000 = .ok .rndseed := by decide +kernel

theorem witness_DecodeFollowsMaskAndMatch :
    (∀ o : Opcode, o.row.op ≠ bitsOf 0x00FFFFFF 31 24) ∧
    (∀ o : Opcode, o.row.op ≠ bitsOf 0x47000000 31 24) ∧
    (Opcode.gfadd.row.op = bitsOf 0x10312001 31 24 ∧ 0x10312001 &&& Opcode.gfadd.row.mask ≠ Opcode.gfadd.row.pattern) ∧
    (Opcode.gfadd.row.op = bitsOf 0x10FFF000 31 24 ∧ 0x10FFF000 &&& Opcode.gfadd.row.mask = Opcode.gfadd.row.pattern) := by
  exact ⟨(fun o => by cases o <;> decide),
    (fun o => by cases o <;> decide),
    by decide +kernel,
    by decide +kernel⟩

theorem witness_IllegalWordsRaiseIllegalCommand :
    (∃ e, decode 0x47000000 = .error e) ∧
    (host (.write .word 0 0x47000000) State.reset).pending = none ∧
    (host (.write .word 0 0x47000000) State.reset).faultFlag = false ∧
    (host (.write .word 0 0x47000000) State.reset).bus = .write .word 0x0000 0x47000000 :: [] ∧
    [0x06FFFFFF, 0x0F000000, 0x16000000, 0x1F000000, 0x24000000, 0x2F000000, 0x33000000, 0x3F000000, 0x47000000].map
      (fun w => bitsOf w 31 24) = [0x06, 0x0F, 0x16, 0x1F, 0x24, 0x2F, 0x33, 0x3F, 0x47] ∧
    (Opcode.wipe.row.op = bitsOf 0x05112000 31 24 ∧ Opcode.wipe.row.usesRd = false ∧ bitsOf 0x05112000 23 20 ≠ 0) ∧
    (Opcode.brecon.row.op = bitsOf 0x32012341 31 24 ∧ Opcode.brecon.row.format = .R ∧ bitsOf 0x32012341 3 0 ≠ 0) ∧
    (bitsOf 0x01310000 31 24 = 0x01 ∧ bitsOf 0x01310000 19 16 ≠ 0) := by
  exact ⟨⟨.unassignedOpcode 0x47, by decide +kernel⟩,
    rfl,
    rfl,
    rfl,
    by decide +kernel,
    by decide +kernel,
    by decide +kernel,
    by decide +kernel⟩

theorem witness_StepRunsTheDecodedCommand :
    (host (.write .word 0 0x02550000) State.reset).pending = none ∧
    (host (.write .word 0 0x02550000) State.reset).faultFlag = false ∧
    (host (.write .word 0 0x02550000) State.reset).bus = .write .word 0x0000 0x02550000 :: [] ∧
    decode 0x02550000 = .ok (.mov 5 5) ∧
    (Instr.mov 5 5).wellFormed = true := by
  exact ⟨rfl,
    rfl,
    rfl,
    by decide +kernel,
    by decide +kernel⟩

theorem witness_LockDropsCommands :
    faulted.faultFlag = true ∧
    faulted.pending = none ∧
    (host (.write .word 0 0) faulted).bus = .write .word 0x0000 0 :: [] ∧
    (host (.write .word 0x7FFC 1) faulted).bus = .write .word 0x7FFC 1 :: [] ∧
    (host (.read .word 0x7FFC) faulted).bus = .read .word 0x7FFC :: [] ∧
    ((0x7FFC : Nat) ≠ 0x0000 ∧ 0x7FFC % 4 = 0) := by
  exact ⟨rfl,
    rfl,
    rfl,
    rfl,
    rfl,
    by decide +kernel⟩

theorem witness_ResetEvent :
    ((host .reset waiting).bus = .reset :: [] ∧ (host .reset waiting).pending ≠ none) ∧
    (host .reset faulted).bus = .reset :: [] := by
  exact ⟨⟨rfl, by decide +kernel⟩,
    rfl⟩

theorem witness_WindowFollowsTheRegisterMap :
    State.reset.pending = none ∧
    State.reset.spm.wf = true ∧
    [0x0000, 0x0004, 0x0008, 0x000C, 0x001C, 0x0020, 0x0024, 0x0028, 0x003C, 0x0040, 0x007C, 0x0080, 0x3FFC, 0x4000,
      0x7FFC, 0x8000].all (fun off : Nat => off % 4 == 0) = true ∧
    ((0x007C : Nat) = 0x0040 + 4 * (15 : RegNum).val ∧ (0x7FFC : Nat) = 0x4000 + 4 * 4095 ∧ 4095 < Config.spmWords ∧
      0x4000 + 4 * Config.spmWords ≤ 0x8000) ∧
    ((0xFFFFFFFF : Word).getLsbD 0 = true ∧ (0xFFFFFFFE : Word).getLsbD 0 = false) := by
  exact ⟨rfl,
    rfl,
    by decide +kernel,
    by decide +kernel,
    by decide +kernel⟩

theorem witness_ControlAndInterrupt :
    (host (.write .word 0x0008 0xFFFFFFFF) State.reset).pending = none ∧
    (host (.write .word 0x0008 0xFFFFFFFF) State.reset).bus = .write .word 0x0008 0xFFFFFFFF :: [] ∧
    (∃ t, exec .rndclr { State.reset with fie := true } = .next t ∧ t.fie = true) := by
  exact ⟨rfl,
    rfl,
    answers (by decide +kernel)⟩

theorem witness_FclrClearsTheFault :
    faulted.pending = none ∧
    (host (.write .word 0x0020 3) faulted).bus = .write .word 0x0020 3 :: [] ∧
    (host (.read .word 0x0020) faulted).bus = .read .word 0x0020 :: [] ∧
    (3 : Word).getLsbD 0 = true ∧
    (0xFFFFFFFE : Word).getLsbD 0 = false := by
  exact ⟨rfl,
    rfl,
    rfl,
    by decide +kernel,
    by decide +kernel⟩

theorem witness_AccessesWaitForTheCommand :
    (host (.read .word 0) waiting).pending = some ⟨.nonZero, 1, [], .reg 3⟩ ∧
    (∀ rest, (host (.read .word 0) waiting).bus ≠ .reset :: rest) := by
  exact ⟨rfl,
    (fun rest h => by cases h)⟩

theorem witness_OnlyIllFormedAccessesAreRefused :
    (host (.read .byte 0) State.reset).pending = none ∧
    Width.byte ≠ .word ∧
    Width.half ≠ .word ∧
    3 % 4 ≠ 0 ∧
    (host (.read .byte 0) State.reset).bus = .read .byte 0 :: [] ∧
    (host (.write .half 0 1) State.reset).bus = .write .half 0 1 :: [] ∧
    (host (.read .word 3) State.reset).bus = .read .word 3 :: [] ∧
    (host (.write .word 0x4001 1) State.reset).bus = .write .word 0x4001 1 :: [] ∧
    refusal (step { State.reset with bus := [.read .byte 0, .reset] }) = some .narrowAccess ∧
    refusal (step { State.reset with bus := [.write .word 0x4001 1, .read .byte 0] }) = some .misalignedAccess ∧
    (host (.write .word 0x7FFC 1) State.reset).legalHost = true := by
  exact ⟨rfl,
    by decide +kernel,
    by decide +kernel,
    by decide +kernel,
    rfl,
    rfl,
    rfl,
    rfl,
    by decide +kernel,
    by decide +kernel,
    by decide +kernel⟩

theorem witness_StatusIsSetAndClearedOnlySo :
    State.reset.faultFlag = false ∧
    (∃ t, step (host (.write .word 0 0) State.reset) = .next t ∧ t.faultFlag = true) ∧
    (∃ t, step (host (.write .word 0 0) faulted) = .next t ∧ faulted.dropFlag = false ∧ t.dropFlag = true) ∧
    (∃ t, step (host (.write .word 0x0020 1) faulted.drop) = .next t ∧ t.faultFlag = false ∧ t.dropFlag = false) ∧
    (∃ t, step (host .reset faulted.drop) = .next t ∧ t.faultFlag = false ∧ t.dropFlag = false) ∧
    (host (.write .word 0x0004 0) faulted).bus = .write .word 0x0004 0 :: [] ∧
    (∃ t, exec (.gfinv 3 1) faulted = .next t ∧ t.cmdcnt = 2) ∧
    decode 0x02210000 = .ok (.mov 2 1) := by
  exact ⟨rfl,
    answers (by decide +kernel),
    answers (by decide +kernel),
    answers (by decide +kernel),
    answers (by decide +kernel),
    rfl,
    answers (by decide +kernel),
    by decide +kernel⟩

theorem witness_FaultChangesOnlyTheRecord :
    (∃ t, issue 0x13310000 State.reset = .next t ∧ State.reset.faultFlag = false ∧ t.faultFlag = true) ∧
    (∃ t, issue 0xFFFFFFFF State.reset = .next t ∧ t.faultFlag = true) := by
  exact ⟨answers (by decide +kernel),
    answers (by decide +kernel)⟩

theorem witness_CausesFollowTheTable :
    (∃ t, issue 0x13310000 State.reset = .next t ∧ decode 0x13310000 = .ok (.gfinv 3 1) ∧ t.faultFlag = true) ∧
    (∃ t, issue 0x44012300 (place [(2, 2), (3, 0x12C)] []) = .next t ∧ t.faultFlag = true ∧ t.fidx = 1) ∧
    (∃ t, issue 0x32012340 ((breconBase 0x260).writeSpm 0x223 1) = .next t ∧ t.faultFlag = true ∧ t.fgrp = 1) ∧
    (∃ t, exec (.gfvalid 3 1) State.reset = .next t ∧ (Instr.gfvalid 3 1).opcode = .gfvalid) ∧
    (∃ t, step (host (.write .word 0 0x04517FFF) State.reset) = .next t ∧ t.faultFlag = true ∧ t.fcause = 16) := by
  exact ⟨answers (by decide +kernel),
    answers (by decide +kernel),
    answers (by decide +kernel),
    answers (by decide +kernel),
    answers (by decide +kernel)⟩

theorem witness_CompletionKeepsTheRecord :
    (∃ t, exec (.gfadd 3 1 2) State.reset = .next t ∧ t.faultFlag = false ∧ t.pending = none) ∧
    (∃ t, step waiting = .next t ∧ waiting.pending = some ⟨.nonZero, 1, [], .reg 3⟩ ∧ t.pending = none) ∧
    (∀ rest, waiting.bus ≠ .reset :: rest) := by
  exact ⟨answers (by decide +kernel),
    answers (by decide +kernel),
    no_reset rfl⟩

theorem witness_CmdcntCountsAcceptedCommands :
    (∃ t, step (host (.write .word 0 0x01100001) State.reset) = .next t ∧ t.pending = none) ∧
    (∃ t, step waiting = .next t ∧ waiting.pending ≠ none ∧ t.pending = none) ∧
    (∃ t, step (host (.write .word 0 0x01100001) faulted) = .next t ∧ t.cmdcnt = 1) ∧
    (∃ t, issue 0x13310000 State.reset = .next t ∧ State.reset.faultFlag = false ∧ t.faultFlag = true) ∧
    (∀ rest, (host (.write .word 0 0x01100001) State.reset).bus ≠ .reset :: rest) ∧
    (∀ rest, waiting.bus ≠ .reset :: rest) := by
  exact ⟨answers (by decide +kernel),
    answers (by decide +kernel),
    answers (by decide +kernel),
    answers (by decide +kernel),
    (fun rest h => by cases h),
    no_reset rfl⟩

theorem witness_OtherCommandsLeaveThePool :
    (Instr.stw 5 1 0).usesPool = false ∧
    (∃ t, exec (.stw 5 1 0) (fed [1] (place [(5, 1)] [])) = .next t ∧ t.readSpm 0 = 1) := by
  exact ⟨by decide +kernel,
    answers (by decide +kernel)⟩

theorem witness_PoolIsHidden :
    (host (.write .word 0 0x02210000) (fed [] State.reset)).hidePool =
      { host (.write .word 0 0x02210000) (fed [] State.reset) with
        cur := 9, pool := List.replicate 256 1 }.hidePool ∧
    (host (.write .word 0 0x02210000) (fed [] State.reset)).pending = none ∧
    (∀ (w : Word) (rest : List BusEvent) (i : Instr),
      (host (.write .word 0 0x02210000) (fed [] State.reset)).bus = .write .word 0x0000 w :: rest → decode w = .ok i →
      i.usesPool = false) ∧
    (∃ t, step (host (.write .word 0 0x02210000) (fed [] State.reset)) = .next t ∧ t.cmdcnt = 1) := by
  exact ⟨rfl,
    rfl,
    fun w rest i h hd => by
      have hb : (0x02210000 : Word) = w := by
        have h' : [BusEvent.write .word 0x0000 0x02210000] = .write .word 0x0000 w :: rest := h
        injection h' with h1 _
        injection h1
      rw [← hb, show decode 0x02210000 = .ok (.mov 2 1) from by decide +kernel] at hd
      injection hd with hi
      rw [← hi]
      rfl,
    answers (by decide +kernel)⟩

theorem witness_StepKeepsInvariant :
    waiting.inv = true ∧
    (∃ t, step waiting = .next t ∧ t.readG 3 = 7) ∧
    (host (.write .word 0x7FFC 1) faulted).inv = true ∧
    (∃ t, step (host (.write .word 0x7FFC 1) faulted) = .next t ∧ t.readSpm 4095 = 1) := by
  exact ⟨by decide +kernel,
    answers (by decide +kernel),
    by decide +kernel,
    answers (by decide +kernel)⟩

theorem witness_CommandsWriteOnlyTheirRegister :
    (∃ t, exec (.gfadd 3 1 2) (place [(1, 1)] []) = .next t ∧ (Instr.gfadd 3 1 2).dest ≠ some 15) ∧
    (∃ t, exec (.gfinv 3 1) State.reset = .next t ∧ State.reset.faultFlag = false ∧ t.faultFlag = true) ∧
    (∃ t, step waiting = .next t ∧ waiting.pending = some ⟨.nonZero, 1, [], .reg 3⟩ ∧ Sink.reg 3 ≠ .reg 2) ∧
    (∀ rest, waiting.bus ≠ .reset :: rest) ∧
    (∃ t, issue 0x01100001 faulted = .next t ∧ faulted.faultFlag = true) ∧
    (host (.write .word 0x007C 9) State.reset).bus = .write .word (0x0040 + 4 * (15 : RegNum).val) 9 :: [] ∧
    (host (.read .word 0x0040) State.reset).bus = .read .word (0x0040 + 4 * (0 : RegNum).val) :: [] := by
  exact ⟨answers (by decide +kernel),
    answers (by decide +kernel),
    answers (by decide +kernel),
    no_reset rfl,
    answers (by decide +kernel),
    rfl,
    rfl⟩

theorem witness_CommandsThatDoNotStoreKeepTheScratchpad :
    (∃ t, exec (.recon 5 1 2 3) (place [(1, 0x200), (2, 1)] [(0x200, [7, 0x33])]) = .next t ∧ t.readG 5 = 0x33) ∧
    (Instr.recon 5 1 2 3).stores = false ∧
    (∃ t, exec (.wipe 1 2) State.reset = .next t ∧ State.reset.faultFlag = false ∧ t.faultFlag = true) := by
  exact ⟨answers (by decide +kernel),
    by decide +kernel,
    answers (by decide +kernel)⟩

theorem witness_LiLoadsTheImmediate :
    ((-32768 : Int) ≤ -32768 ∧ (-32768 : Int) ≤ 32767 ∧ (-32768 : Int) ≤ 32767 ∧ (32767 : Int) ≤ 32767) := by
  decide +kernel

theorem witness_LdwLoadsOrFaults :
    ((-32768 : Int) ≤ -1 ∧ (-1 : Int) ≤ 32767) ∧
    ((((place [(1, 0xFFF)] []).readG 1).toNat + (0 : Int)) % 4294967296).toNat < Config.spmWords ∧
    Config.spmWords ≤ ((((place [(1, 0x1000)] []).readG 1).toNat + (0 : Int)) % 4294967296).toNat ∧
    Config.spmWords ≤ (((State.reset.readG 1).toNat + (-1 : Int)) % 4294967296).toNat ∧
    ((((place [(1, 0xFFFFFFFF)] []).readG 1).toNat + (1 : Int)) % 4294967296).toNat < Config.spmWords := by decide +kernel

theorem witness_StwStoresOrFaults :
    ((-32768 : Int) ≤ -1 ∧ (-1 : Int) ≤ 32767 ∧ (place [(1, 0xFFF)] []).spm.wf = true) ∧
    ((((place [(1, 0xFFF)] []).readG 1).toNat + (0 : Int)) % 4294967296).toNat < Config.spmWords ∧
    Config.spmWords ≤ ((((place [(1, 0x1000)] []).readG 1).toNat + (0 : Int)) % 4294967296).toNat ∧
    Config.spmWords ≤ (((State.reset.readG 1).toNat + (-1 : Int)) % 4294967296).toNat ∧
    ((((place [(1, 0xFFFFFFFF)] []).readG 1).toNat + (1 : Int)) % 4294967296).toNat < Config.spmWords := by decide +kernel

theorem witness_WipeZeroesTheRangeOrFaults :
    (place [(1, 0xFFF), (2, 1)] []).spm.wf = true ∧
    (State.reset.readG 2).toInt ≤ 0 ∧
    ((place [(2, 0xFFFFFFFF)] []).readG 2).toInt ≤ 0 ∧
    (Config.spmWords : Int) < ((place [(1, 0xFFF), (2, 2)] []).readG 1).toNat + ((place [(1, 0xFFF), (2, 2)] []).readG 2).toInt ∧
    (0 < ((place [(1, 0xFFF), (2, 1)] []).readG 2).toInt ∧
      ((place [(1, 0xFFF), (2, 1)] []).readG 1).toNat + ((place [(1, 0xFFF), (2, 1)] []).readG 2).toInt ≤
        (Config.spmWords : Int)) := by decide +kernel

theorem witness_GfaddAndGfsubAreXor :
    256 ≤ ((place [(1, 0x100), (2, 0x100)] []).readG 1).toNat ∧
    (((place [(1, 0xFF), (2, 0x100)] []).readG 1).toNat < 256 ∧ 256 ≤ ((place [(1, 0xFF), (2, 0x100)] []).readG 2).toNat) ∧
    (((place [(1, 0xFF), (2, 0xFF)] []).readG 1).toNat < 256 ∧ ((place [(1, 0xFF), (2, 0xFF)] []).readG 2).toNat < 256) := by decide +kernel

theorem witness_GfmulMultiplies :
    256 ≤ ((place [(1, 0x100), (2, 0x100)] []).readG 1).toNat ∧
    (((place [(1, 0xFF), (2, 0x100)] []).readG 1).toNat < 256 ∧ 256 ≤ ((place [(1, 0xFF), (2, 0x100)] []).readG 2).toNat) ∧
    (((place [(1, 0xFF), (2, 0xFF)] []).readG 1).toNat < 256 ∧ ((place [(1, 0xFF), (2, 0xFF)] []).readG 2).toNat < 256) := by decide +kernel

theorem witness_GfinvInvertsOrFaults :
    256 ≤ ((place [(1, 0x100)] []).readG 1).toNat ∧
    State.reset.readG 1 = 0 ∧
    (((place [(1, 0xFF)] []).readG 1).toNat < 256 ∧ (place [(1, 0xFF)] []).readG 1 ≠ 0) := by decide +kernel

theorem witness_GfdivDividesOrFaults :
    256 ≤ ((place [(1, 0x100)] []).readG 1).toNat ∧
    (((place [(1, 0xFF), (2, 0x100)] []).readG 1).toNat < 256 ∧ 256 ≤ ((place [(1, 0xFF), (2, 0x100)] []).readG 2).toNat) ∧
    (((place [(1, 0xFF)] []).readG 1).toNat < 256 ∧ (place [(1, 0xFF)] []).readG 2 = 0) ∧
    (((place [(1, 0), (2, 1)] []).readG 1).toNat < 256 ∧ ((place [(1, 0), (2, 1)] []).readG 2).toNat < 256 ∧
      (place [(1, 0), (2, 1)] []).readG 2 ≠ 0) := by decide +kernel

theorem witness_PevalEvaluatesOrFaults :
    (State.reset.readG 2).toInt ≤ 0 ∧
    256 < ((place [(2, 0x101)] []).readG 2).toInt ∧
    (Config.spmWords : Int) < ((place [(1, 0xF01), (2, 0x100)] []).readG 1).toNat + ((place [(1, 0xF01), (2, 0x100)] []).readG 2).toInt ∧
    (((place [(1, 0xF00), (2, 0x100)] []).readG 1).toNat + ((place [(1, 0xF00), (2, 0x100)] []).readG 2).toInt ≤
      (Config.spmWords : Int) ∧ ((place [(1, 0xF00), (2, 0x100)] []).readG 2).toInt ≤ 256) ∧
    256 ≤ ((place [(2, 1), (3, 0x100)] []).readG 3).toNat ∧
    (256 ≤ ((place [(2, 2)] [(0, [0xFF, 0x100])]).readSpm 1).toNat ∧
      ∀ k < 1, ((place [(2, 2)] [(0, [0xFF, 0x100])]).readSpm (0 + k)).toNat < 256) ∧
    (∀ j < 2, ((place [(2, 2)] [(0, [0xFF, 0xFF])]).readSpm (0 + j)).toNat < 256) := by decide +kernel

theorem witness_PvalidTestsTheArrayOrFaults :
    (State.reset.readG 2).toInt ≤ 0 ∧
    256 < ((place [(2, 0x101)] []).readG 2).toInt ∧
    (Config.spmWords : Int) < ((place [(1, 0xFFF), (2, 2)] []).readG 1).toNat + ((place [(1, 0xFFF), (2, 2)] []).readG 2).toInt ∧
    ((place [(2, 1)] []).readG 2).toInt = 1 ∧ ((place [(2, 1)] []).readSpm 0).toNat < 256 ∧
    (∀ j < 2, ((place [(2, 2)] [(0, [0, 0xFF])]).readSpm (0 + j)).toNat < 256) ∧ (place [(2, 2)] [(0, [0, 0xFF])]).readSpm 1 ≠ 0 ∧
    ¬((∀ j < 2, ((place [(2, 2)] [(0, [1, 0])]).readSpm (0 + j)).toNat < 256) ∧
      (((place [(2, 2)] [(0, [1, 0])]).readG 2).toInt = 1 ∨ (place [(2, 2)] [(0, [1, 0])]).readSpm 1 ≠ 0)) := by decide +kernel

theorem witness_LagrInterpolatesOrFaults :
    ((place [(2, 0xFFFFFFFF)] []).readG 2).toInt < 0 ∧
    ((State.reset.readG 2).toInt = 0 ∧ (0 : Int) ≤ (State.reset.readG 4).toInt) ∧
    (0 < ((place [(1, 0xFFF), (2, 2), (4, 2)] []).readG 2).toInt ∧
      (Config.spmWords : Int) < ((place [(1, 0xFFF), (2, 2), (4, 2)] []).readG 1).toNat +
        ((place [(1, 0xFFF), (2, 2), (4, 2)] []).readG 2).toInt) ∧
    (((place [(1, 0xFFF), (2, 1), (4, 1)] []).readG 1).toNat + ((place [(1, 0xFFF), (2, 1), (4, 1)] []).readG 2).toInt ≤
      (Config.spmWords : Int)) ∧
    (256 ≤ ((place [] [(0, [1, 2]), (8, [0xFF, 0x100])]).readSpm (8 + 1)).toNat ∧
      ∀ k < 1, ((place [] [(0, [1, 2]), (8, [0xFF, 0x100])]).readSpm (0 + k)).toNat < 256 ∧
        ((place [] [(0, [1, 2]), (8, [0xFF, 0x100])]).readSpm (8 + k)).toNat < 256) ∧
    ((∃ i < 2, (place [] [(0, [1, 3, 1])]).readSpm (0 + 2) = (place [] [(0, [1, 3, 1])]).readSpm (0 + i)) ∧
      ∀ k < 2, ∀ i < k, (place [] [(0, [1, 3, 1])]).readSpm (0 + k) ≠ (place [] [(0, [1, 3, 1])]).readSpm (0 + i)) ∧
    (∀ j < 3, ∀ i < j, (place [] [(0, [0, 3, 0xFF])]).readSpm (0 + j) ≠ (place [] [(0, [0, 3, 0xFF])]).readSpm (0 + i)) := by decide +kernel

theorem witness_ReconFollowsItsChecks :
    ((0 : Int) < 2 ∧ (2 : Int) < 3 ∧ (0 : Int) < 1 ∧ (-1 : Int) ≤ 1) ∧
    ((Config.spmWords : Int) < (0xFFF : Word).toNat + 2 * 1 ∧ (0xFFE : Word).toNat + 2 * 1 ≤ (Config.spmWords : Int)) ∧
    ((place [] [(0, [1, 5, 0, 5])]).readSpm (0 + 2 * 1) = 0 ∧
      ∀ k < 1, ((place [] [(0, [1, 5, 0, 5])]).readSpm (0 + 2 * k)).toNat < 256 ∧
        ((place [] [(0, [1, 5, 0, 5])]).readSpm (0 + 2 * k + 1)).toNat < 256 ∧
        (place [] [(0, [1, 5, 0, 5])]).readSpm (0 + 2 * k) ≠ 0) ∧
    ((∃ i < 1, (place [] [(0, [1, 5, 1, 6])]).readSpm (0 + 2 * 1) = (place [] [(0, [1, 5, 1, 6])]).readSpm (0 + 2 * i)) ∧
      ∀ k < 1, ∀ i < k,
        (place [] [(0, [1, 5, 1, 6])]).readSpm (0 + 2 * k) ≠ (place [] [(0, [1, 5, 1, 6])]).readSpm (0 + 2 * i)) ∧
    (∀ j < 2, ∀ i < j,
      (place [] [(0, [1, 5, 0xFF, 6])]).readSpm (0 + 2 * j) ≠ (place [] [(0, [1, 5, 0xFF, 6])]).readSpm (0 + 2 * i)) := by decide +kernel

theorem witness_ReconCommandReturnsRecon :
    State.reset.recon (State.reset.readG 1) (State.reset.readG 2).toInt (State.reset.readG 3).toInt 0 =
      .error ⟨.emptyShares, 0, 0⟩ ∧
    (place [] [(0, [7, 0x33])]).recon 0 1 0 0 = .ok 0x33 := by decide +kernel

theorem witness_BreconReconstructsEveryGroupOrFaults :
    (breconBase 0x260).spm.wf = true ∧
    (State.reset.readG 2).toInt ≤ 0 ∧
    (Config.spmWords : Int) < ((place [(2, 1), (4, 0x1000)] []).readG 4).toNat + ((place [(2, 1), (4, 0x1000)] []).readG 2).toInt ∧
    ((0xFFE : Word).toNat + 2 * 1 ≤ (Config.spmWords : Int) ∧ (0xFFF : Word).toNat + 1 ≤ (Config.spmWords : Int)) ∧
    (((breconBase 0x260).writeSpm 0x223 1).recon 0x250 1 2 1 = .error ⟨.insufficientShares, 0, 1⟩ ∧
      ∀ k < 1, ((breconBase 0x260).writeSpm 0x223 1).recon 0x240 2 2 k = .ok 0x7A) ∧
    ((breconBase 0x260).recon 0x240 2 2 0 = .ok 0x7A ∧ (breconBase 0x260).recon 0x250 2 2 1 = .ok 1) := by decide +kernel

theorem witness_DrawsTakeTheSourceInOrder :
    (0 : Nat) < 1 ∧
    (fed [] State.reset).initFlag = true ∧
    State.reset.initFlag = false := by decide +kernel

theorem witness_MixFollowsTheRule :
    State.reset.pool.length = 256 ∧
    { fed [1] State.reset with cur := 255 }.pool.length = 256 := by decide +kernel

theorem witness_RndbDrawsOneByte :
    (fed [0xB4] State.reset).initFlag = true ∧
    (fed [0xB4] State.reset).draws 2 = ([0xB4, 0], ((fed [0xB4] State.reset).draws 2).2) ∧
    (({ State.reset with entropy := List.replicate 256 1 ++ [2, 3] }).draws 258 =
      (List.replicate 256 1 ++ [2, 3], (({ State.reset with entropy := List.replicate 256 1 ++ [2, 3] }).draws 258).2)) := by
  exact ⟨rfl,
    by decide +kernel,
    by decide +kernel⟩

theorem witness_RndnzDrawsUntilNonZero :
    (∀ z ∈ ([0, 0] : List Byte), z = 0) ∧
    (fed [0, 0, 7] State.reset).nextBytes 3 = ([0, 0] ++ [7], ((fed [0, 0, 7] State.reset).nextBytes 3).2) ∧
    ([0, 0] : List Byte).length < Config.candidatesPerStep ∧
    (∀ rest, (fed [0, 0, 7] State.reset).bus ≠ .reset :: rest) := by
  exact ⟨by decide +kernel,
    by decide +kernel,
    by decide +kernel,
    no_reset rfl⟩

theorem witness_RndintDrawsBelowMaxOrFaults :
    (State.reset.readG 1).toInt ≤ 0 ∧
    256 < ((place [(1, 0x101)] []).readG 1).toInt ∧
    (0 < ((place [(1, 6)] []).readG 1).toInt ∧ ((place [(1, 0x100)] []).readG 1).toInt ≤ 256) ∧
    (∀ z ∈ ([0xFC, 0xFF] : List Byte), 256 - 256 % 6 ≤ z.toNat) ∧
    ((0xFB : Byte).toNat < 256 - 256 % 6 ∧ (0xFF : Byte).toNat < 256 - 256 % 256) ∧
    (fed [0xFC, 0xFF, 0xFB] (place [(1, 6)] [])).nextBytes 3 = ([0xFC, 0xFF] ++ [0xFB], ((fed [0xFC, 0xFF, 0xFB] (place [(1, 6)] [])).nextBytes 3).2) ∧
    (∀ rest, (fed [0xFC, 0xFF, 0xFB] (place [(1, 6)] [])).bus ≠ .reset :: rest) := by
  exact ⟨by decide +kernel,
    by decide +kernel,
    by decide +kernel,
    by decide +kernel,
    by decide +kernel,
    by decide +kernel,
    no_reset rfl⟩

theorem witness_RndfillFillsTheRangeOrFaults :
    (place [(1, 0xFFF), (2, 1)] []).spm.wf = true ∧
    (State.reset.readG 2).toInt ≤ 0 ∧
    (Config.spmWords : Int) < ((place [(1, 0xFFF), (2, 2)] []).readG 1).toNat + ((place [(1, 0xFFF), (2, 2)] []).readG 2).toInt ∧
    ((place [(1, 0xFFF), (2, 1)] []).readG 1).toNat + ((place [(1, 0xFFF), (2, 1)] []).readG 2).toInt ≤ (Config.spmWords : Int) ∧
    (fed [0] (place [(1, 0xFFF), (2, 1)] [])).nextBytes 1 = ([0], ((fed [0] (place [(1, 0xFFF), (2, 1)] [])).nextBytes 1).2) := by decide +kernel

theorem witness_RnduniqDrawsDistinctValuesOrFaults :
    ((place [(3, 0xFFFFFFFF)] []).readG 3).toInt < ((place [(3, 0xFFFFFFFF)] []).readG 2).toInt ∧
    ((State.reset.readG 2).toInt ≤ (State.reset.readG 3).toInt ∧ (State.reset.readG 2).toInt ≤ 0) ∧
    (((place [(2, 1), (3, 0x101)] []).readG 2).toInt ≤ ((place [(2, 1), (3, 0x101)] []).readG 3).toInt ∧
      256 < ((place [(2, 1), (3, 0x101)] []).readG 3).toInt) ∧
    (Config.spmWords : Int) < ((place [(1, 0xFFF), (2, 2), (3, 2)] []).readG 1).toNat +
      ((place [(1, 0xFFF), (2, 2), (3, 2)] []).readG 2).toInt ∧
    ((place [(1, 0xFFE), (2, 2), (3, 3)] []).spm.wf = true ∧ ((place [(1, 0xFFE), (2, 2), (3, 3)] []).readG 1).toNat +
      ((place [(1, 0xFFE), (2, 2), (3, 3)] []).readG 2).toInt ≤ (Config.spmWords : Int)) ∧
    (fed [2, 2, 0xFF, 0] (place [(1, 0xFFE), (2, 2), (3, 3)] [])).nextBytes 4 = ([2, 2, 0xFF] ++ [0], ((fed [2, 2, 0xFF, 0] (place [(1, 0xFFE), (2, 2), (3, 3)] [])).nextBytes 4).2) ∧
    ((0 : Byte).toNat < 256 - 256 % 3 ∧
      ∀ c ∈ ([2, 2, 0xFF] : List Byte), c.toNat < 256 - 256 % 3 → c.toNat % 3 ≠ (0 : Byte).toNat % 3) ∧
    (([0, 2] : List Byte).length = 2 ∧ ([0, 2] : List Byte).Pairwise (· < ·)) := by decide +kernel

/-- The set of values that the outputs 2, 2, 0xFF (rejected), 0 give for max = 3. -/
theorem witness_RnduniqDrawsDistinctValuesOrFaults_set :
    ∀ v : Byte, v ∈ ([0, 2] : List Byte) ↔
      ∃ c ∈ ([2, 2, 0xFF] : List Byte) ++ [0], c.toNat < 256 - 256 % 3 ∧ c.toNat % 3 = v.toNat := by
  intro v
  have h : (∃ c ∈ ([2, 2, 0xFF] : List Byte) ++ [0], c.toNat < 256 - 256 % 3 ∧ c.toNat % 3 = v.toNat) ↔
      0 = v.toNat ∨ 2 = v.toNat := by
    simp
    omega
  rw [h]
  simp [BitVec.toNat_eq]
  omega

theorem witness_RndclrAndRndseed :
    (({ State.reset with entropy := List.replicate 256 1 }).draws 256 =
      (List.replicate 256 1, (({ State.reset with entropy := List.replicate 256 1 }).draws 256).2)) := by
  decide +kernel

theorem witness_GenpolyDrawsAPolynomialOrFaults :
    ((place [(3, 1)] []).readG 3).toInt < 2 ∧
    256 < ((place [(3, 0x101)] []).readG 3).toInt ∧
    (2 ≤ ((place [(2, 0x100), (3, 2)] []).readG 3).toInt ∧ 256 ≤ ((place [(2, 0x100), (3, 2)] []).readG 2).toNat) ∧
    (((place [(1, 0xF01), (2, 0xFF), (3, 0x100)] []).readG 2).toNat < 256 ∧ (Config.spmWords : Int) <
      ((place [(1, 0xF01), (2, 0xFF), (3, 0x100)] []).readG 1).toNat +
        ((place [(1, 0xF01), (2, 0xFF), (3, 0x100)] []).readG 3).toInt) ∧
    ((place [(1, 0xFFD), (2, 5), (3, 3)] []).spm.wf = true ∧ ((place [(1, 0xFFD), (2, 5), (3, 3)] []).readG 1).toNat +
      ((place [(1, 0xFFD), (2, 5), (3, 3)] []).readG 3).toInt ≤ (Config.spmWords : Int)) ∧
    (fed [0xAA, 0, 0x9C] (place [(1, 0xFFD), (2, 5), (3, 3)] [])).nextBytes (3 - 2) = ([0xAA], ((fed [0xAA, 0, 0x9C] (place [(1, 0xFFD), (2, 5), (3, 3)] [])).nextBytes (3 - 2)).2) ∧
    (((fed [0xAA, 0, 0x9C] (place [(1, 0xFFD), (2, 5), (3, 3)] [])).nextBytes 1).2.nextBytes 2).1 = [0] ++ [0x9C] ∧
    (∀ rest, (fed [0xAA, 0, 0x9C] (place [(1, 0xFFD), (2, 5), (3, 3)] [])).bus ≠ .reset :: rest) := by
  exact ⟨by decide +kernel,
    by decide +kernel,
    by decide +kernel,
    by decide +kernel,
    by decide +kernel,
    by decide +kernel,
    by decide +kernel,
    no_reset rfl⟩

theorem witness_GenptsDrawsDistinctPointsOrFaults :
    (State.reset.readG 2).toInt < 1 ∧
    255 < ((place [(2, 0x100)] []).readG 2).toInt ∧
    (Config.spmWords : Int) < ((place [(1, 0xF02), (2, 0xFF)] []).readG 1).toNat + ((place [(1, 0xF02), (2, 0xFF)] []).readG 2).toInt ∧
    ((place [(1, 0xFFE), (2, 2)] []).spm.wf = true ∧
      ((place [(1, 0xFFE), (2, 2)] []).readG 1).toNat + ((place [(1, 0xFFE), (2, 2)] []).readG 2).toInt ≤
        (Config.spmWords : Int)) ∧
    (fed [0xFF, 0, 0xFF, 1] (place [(1, 0xFFE), (2, 2)] [])).nextBytes 4 = ([0xFF, 0, 0xFF] ++ [1], ((fed [0xFF, 0, 0xFF, 1] (place [(1, 0xFFE), (2, 2)] [])).nextBytes 4).2) ∧
    ((1 : Byte) ≠ 0 ∧ (1 : Byte) ∉ ([0xFF, 0, 0xFF] : List Byte) ∧ ([1, 0xFF] : List Byte).Pairwise (· < ·)) ∧
    (∀ v : Byte, v ∈ ([1, 0xFF] : List Byte) ↔ v ∈ ([0xFF, 0, 0xFF] : List Byte) ++ [1] ∧ v ≠ 0) := by decide +kernel

theorem witness_GfmulIsPolynomialMultiplication :
    let P : Byte → Polynomial (ZMod 2) := fun v =>
      ∑ k ∈ Finset.range 8, if v.getLsbD k then (Polynomial.X : Polynomial (ZMod 2)) ^ k else 0
    P 0xFF = P 0xFF := by
  intro P
  rfl

theorem witness_FieldLaws :
    ((0xFF : Byte) ≠ 0 ∧ gfMul 0x57 0 = 0) := by
  decide +kernel

theorem witness_InverseIsUnique :
    ((0x53 : Byte) ≠ 0 ∧ gfMul 0x53 0xCA = 1) := by
  decide +kernel

theorem witness_EnoughPointsGiveTheConstantTerm :
    (([0xC8, 0x1D, 0x4F] : List Byte) ≠ [] ∧ ([5, 0, 3] : List Byte).Nodup ∧
      ([0xC8, 0x1D, 0x4F] : List Byte).length ≤ ([5, 0, 3] : List Byte).length) := by
  decide +kernel

theorem witness_LagrangeIsTheUniquePolynomialAtZero :
    (([(1, 0x9A), (3, 0x87), (5, 0x72)] : List (Byte × Byte)) ≠ [] ∧
      (([(1, 0x9A), (3, 0x87), (5, 0x72)] : List (Byte × Byte)).map Prod.fst).Nodup) ∧
    (∀ p ∈ ([(1, 0x9A), (3, 0x87), (5, 0x72)] : List (Byte × Byte)), horner [0xC8, 0x1D, 0x4F] p.1 = p.2) ∧
    ([(1, 0x9A), (3, 0x87)] : List (Byte × Byte)).Perm [(3, 0x87), (1, 0x9A)] := by
  have h : horner [0xC8, 0x1D, 0x4F] 1 = 0x9A ∧ horner [0xC8, 0x1D, 0x4F] 3 = 0x87 ∧
      horner [0xC8, 0x1D, 0x4F] 5 = 0x72 := by decide +kernel
  refine ⟨by decide +kernel, ?_, by decide +kernel⟩
  simp only [List.forall_mem_cons]
  exact ⟨h.1, h.2.1, h.2.2, fun p hp => by cases hp⟩

theorem witness_ReconReturnsTheSecret :
    (([0xC8, 0x1D] : List Byte) ≠ [] ∧ ([5, 0xFF] : List Byte).Nodup ∧ (0 : Byte) ∉ ([5, 0xFF] : List Byte)) ∧
    (((place [(1, 0xFFC), (2, 2), (3, 2)] []).readG 2).toInt = 2 ∧ ((place [(1, 0xFFC), (2, 2), (3, 2)] []).readG 3).toInt = 2 ∧
      ((place [(1, 0xFFC), (2, 2), (3, 2)] []).readG 1).toNat + 2 * 2 ≤ Config.spmWords) ∧
    (place [] [(0xFFC, [5, zextByte (horner [0xC8, 0x1D] 5), 0xFF, zextByte (horner [0xC8, 0x1D] 0xFF)])]).holdsShares 0xFFC
      (sharesOf [0xC8, 0x1D] [5, 0xFF]) ∧
    (0 < ((place [(2, 1), (3, 2)] []).readG 2).toInt ∧
      ((place [(2, 1), (3, 2)] []).readG 2).toInt < ((place [(2, 1), (3, 2)] []).readG 3).toInt) := by
  exact ⟨by decide +kernel,
    by decide +kernel,
    ⟨by decide +kernel, by decide +kernel, by decide +kernel, by decide +kernel, trivial⟩,
    by decide +kernel⟩

/-- A source of `n` pairs of zeros, then one byte that RNDNZ accepts, for a state with a filled pool. -/
def slow (n : Nat) : State :=
  { State.reset with initFlag := true, entropy := List.replicate (2 * n) 0 ++ [7, 0] }

/-- RNDNZ on more zeros than one step draws is still in progress after the step that accepted it; and after the next one,
with more zeros still. -/
theorem witness_InProgressChangesOnlyTheDraws :
    (slow Config.candidatesPerStep).pending = none ∧
    (∃ t, exec (.rndnz 3) (slow Config.candidatesPerStep) = .next t ∧ t.pending ≠ none) ∧
    (∃ t, step { slow Config.candidatesPerStep with pending := some ⟨.nonZero, 1, [], .reg 3⟩ } = .next t ∧
      t.pending ≠ none) := by
  generalize hN : Config.candidatesPerStep = n
  have hs : ∀ (p : Pending) (s : State), s.pending = some p → (∀ rest, s.bus ≠ .reset :: rest) →
      step s = .next (resample n p s) := by
    intro p s hp hb
    rw [← hN]
    exact step_goOn hp hb
  have he : exec (.rndnz 3) (slow n) = .next (resample n ⟨.nonZero, 1, [], .reg 3⟩ (slow n)) := by
    rw [← hN]
    rfl
  exact ⟨rfl, ⟨_, he, zeros_wait n _ _ _ rfl rfl rfl rfl rfl⟩,
    ⟨_, hs _ _ rfl (no_reset rfl), zeros_wait n _ _ _ rfl rfl rfl rfl rfl⟩⟩

end Sys2Proof.Tests
end

section
/-! SUPPORT. The encoding read both ways (30_encoding.md R90 to R95): the fields of a word that a format puts together, and
the word that its own fields put together. -/

namespace Sys2Proof

/-! ## The fields of a word of each format -/

section
variable (op : Nat) (rd ra rb rc re : RegNum) (imm : Int)

@[simp] theorem bitsOf_formatR_rd : bitsOf (formatR op rd ra rb rc re) 23 20 = rd.val := by
  simp only [bitsOf, formatR, BitVec.toNat_ofNat]
  omega

@[simp] theorem bitsOf_formatR_ra : bitsOf (formatR op rd ra rb rc re) 19 16 = ra.val := by
  simp only [bitsOf, formatR, BitVec.toNat_ofNat]
  omega

@[simp] theorem bitsOf_formatR_rb : bitsOf (formatR op rd ra rb rc re) 15 12 = rb.val := by
  simp only [bitsOf, formatR, BitVec.toNat_ofNat]
  omega

@[simp] theorem bitsOf_formatR_rc : bitsOf (formatR op rd ra rb rc re) 11 8 = rc.val := by
  simp only [bitsOf, formatR, BitVec.toNat_ofNat]
  omega

@[simp] theorem bitsOf_formatR_re : bitsOf (formatR op rd ra rb rc re) 7 4 = re.val := by
  simp only [bitsOf, formatR, BitVec.toNat_ofNat]
  omega

@[simp] theorem bitsOf_formatR_z : bitsOf (formatR op rd ra rb rc re) 3 0 = 0 := by
  simp only [bitsOf, formatR, BitVec.toNat_ofNat]
  omega

@[simp] theorem bitsOf_formatI_rd : bitsOf (formatI op rd ra imm) 23 20 = rd.val := by
  have hi := (BitVec.ofInt 16 imm).isLt
  simp only [bitsOf, formatI, BitVec.toNat_ofNat]
  omega

@[simp] theorem bitsOf_formatI_ra : bitsOf (formatI op rd ra imm) 19 16 = ra.val := by
  have hi := (BitVec.ofInt 16 imm).isLt
  simp only [bitsOf, formatI, BitVec.toNat_ofNat]
  omega

@[simp] theorem bitsOf_formatI_imm : bitsOf (formatI op rd ra imm) 15 0 = (BitVec.ofInt 16 imm).toNat := by
  have hi := (BitVec.ofInt 16 imm).isLt
  simp only [bitsOf, formatI, BitVec.toNat_ofNat]
  omega

end

@[simp] theorem regOf_val (r : RegNum) : regOf r.val = r := Fin.ofNat_val_eq_self r

/-- An immediate of 16 signed bits is read back from its field (R93). -/
theorem immOf_formatI {imm : Int} (h : immOk imm = true) (op : Nat) (rd ra : RegNum) :
    immOf (formatI op rd ra imm) = imm := by
  simp only [immOk, decide_eq_true_eq] at h
  simp only [immOf, bitsOf_formatI_imm, BitVec.ofNat_toNat, BitVec.setWidth_eq]
  exact BitVec.toInt_ofInt_eq_self (by decide) (by omega) (by omega)

/-! ## Decoding a word that was encoded -/

theorem ofNumber_op (o : Opcode) : Opcode.ofNumber o.row.op = some o := by
  cases o <;> rfl

theorem op_of_ofNumber {n : Nat} {o : Opcode} (h : Opcode.ofNumber n = some o) : o.row.op = n := by
  simpa using List.find?_some h

theorem decode_of_row {w : Word} {o : Opcode} (hop : bitsOf w 31 24 = o.row.op) (hz : unusedZero o.row w = true) :
    decode w = .ok (o.instr w) := by
  simp only [decode, hop, ofNumber_op, hz, if_true]

/-- A word that decodes is a word of its row (R95). -/
theorem decode_ok {w : Word} {i : Instr} (h : decode w = .ok i) :
    ∃ o : Opcode, o.row.op = bitsOf w 31 24 ∧ unusedZero o.row w = true ∧ i = o.instr w := by
  unfold decode at h
  split at h
  · cases h
  · rename_i o ho
    split at h
    · rename_i hz
      exact ⟨o, op_of_ofNumber ho, hz, (Except.ok.inj h).symm⟩
    · cases h

theorem op_encode (i : Instr) : bitsOf (encode i) 31 24 = i.opcode.row.op := by
  cases i with
  | li rd imm => exact Laws.OpcodeField.op_formatI (by decide) rd 0 imm
  | ldw rd ra imm | stw rd ra imm => exact Laws.OpcodeField.op_formatI (by decide) rd ra imm
  | _ => exact Laws.OpcodeField.op_formatR (by decide) ..

theorem unusedZero_encode (i : Instr) : unusedZero i.opcode.row (encode i) = true := by
  cases i <;> simp [unusedZero, Instr.opcode, Opcode.row, encode]

theorem instr_encode {i : Instr} (h : i.wellFormed = true) : i.opcode.instr (encode i) = i := by
  cases i with
  | li rd imm | ldw rd ra imm | stw rd ra imm =>
    simp [Instr.opcode, Opcode.instr, encode, rdOf, raOf, immOf_formatI h]
  | _ => simp [Instr.opcode, Opcode.instr, encode, rdOf, raOf, rbOf, rcOf, reOf]

/-- Every well-formed command is read back from its own word (R90 to R95). -/
theorem decode_encode {i : Instr} (h : i.wellFormed = true) : decode (encode i) = .ok i := by
  rw [decode_of_row (op_encode i) (unusedZero_encode i), instr_encode h]

/-! ## Encoding a word that was decoded -/

theorem formatR_fields {w : Word} (hz : bitsOf w 3 0 = 0) :
    formatR (bitsOf w 31 24) (rdOf w) (raOf w) (rbOf w) (rcOf w) (reOf w) = w := by
  have hw := w.isLt
  apply BitVec.eq_of_toNat_eq
  simp only [formatR, rdOf, raOf, rbOf, rcOf, reOf, regOf, Fin.val_ofNat, bitsOf, BitVec.toNat_ofNat, Nat.reduceSub,
    Nat.reduceAdd, Nat.reducePow, Nat.mod_mod] at hz ⊢
  omega

theorem formatI_fields (w : Word) : formatI (bitsOf w 31 24) (rdOf w) (raOf w) (immOf w) = w := by
  have hw := w.isLt
  apply BitVec.eq_of_toNat_eq
  simp only [formatI, immOf, BitVec.ofInt_toInt, rdOf, raOf, regOf, Fin.val_ofNat, bitsOf, BitVec.toNat_ofNat]
  omega

/-- A register field that is used, or is 0, is the field that the encoding of the command has. -/
theorem regOf_of_unusedZero {used : Bool} {n : Nat} (h : (used || n == 0) = true) :
    (if used then regOf n else 0) = regOf n := by
  cases used with
  | true => rfl
  | false =>
    simp only [Bool.false_or, beq_iff_eq] at h
    simp [h, regOf]

theorem encode_instr_R {o : Opcode} (h : o.row.format = .R) (w : Word) :
    encode (o.instr w) = formatR o.row.op (if o.row.usesRd then rdOf w else 0) (if o.row.usesRa then raOf w else 0)
      (if o.row.usesRb then rbOf w else 0) (if o.row.usesRc then rcOf w else 0) (if o.row.usesRe then reOf w else 0) := by
  cases o with
  | li | ldw | stw => cases h
  | _ => rfl

theorem encode_instr_I {o : Opcode} (h : o.row.format = .I) (w : Word) :
    encode (o.instr w) =
      formatI o.row.op (if o.row.usesRd then rdOf w else 0) (if o.row.usesRa then raOf w else 0) (immOf w) := by
  cases o with
  | li | ldw | stw => rfl
  | _ => cases h

/-- A word that decodes is the word of the command it decodes to (R94, R95). -/
theorem encode_of_decode {w : Word} {i : Instr} (h : decode w = .ok i) : encode i = w := by
  obtain ⟨o, hop, hz, rfl⟩ := decode_ok h
  cases hf : o.row.format with
  | R =>
    simp only [unusedZero, hf, Bool.and_eq_true, beq_iff_eq] at hz
    obtain ⟨⟨hrd, hra⟩, ⟨⟨hrb, hrc⟩, hre⟩, h0⟩ := hz
    rw [encode_instr_R hf, hop, rdOf, raOf, rbOf, rcOf, reOf, regOf_of_unusedZero hrd, regOf_of_unusedZero hra,
      regOf_of_unusedZero hrb, regOf_of_unusedZero hrc, regOf_of_unusedZero hre]
    exact formatR_fields h0
  | I =>
    simp only [unusedZero, hf, Bool.and_eq_true] at hz
    obtain ⟨⟨hrd, hra⟩, -⟩ := hz
    rw [encode_instr_I hf, hop, rdOf, raOf, regOf_of_unusedZero hrd, regOf_of_unusedZero hra]
    exact formatI_fields w

end Sys2Proof
end

section
/-! SUPPORT. Updates of the state that a command does not see: what a command answers, registers and scratchpad and
record, does not depend on the fields such an update sets (10_state.md R26, R27, R38; 60_exceptions.md R274). -/

namespace Sys2Proof.Machine

/-! ## What is read of the registers and of the scratchpad alone -/

theorem readG_congr {s t : State} (h : t.g = s.g) (r : RegNum) : t.readG r = s.readG r := by
  simp only [State.readG, h]

theorem readSpm_congr {s t : State} (h : t.spm = s.spm) (a : Nat) : t.readSpm a = s.readSpm a := by
  simp only [State.readSpm, h]

theorem memRead_congr {s t : State} (h : t.spm = s.spm) (a n : Nat) : t.memRead a n = s.memRead a n := by
  simp only [State.memRead, readSpm_congr h]

theorem recon_congr {s t : State} (h : t.spm = s.spm) (base : Word) (n K : Int) (grp : Nat) :
    t.recon base n K grp = s.recon base n K grp := by
  simp only [State.recon, State.shareXs, State.shareYs, readSpm_congr h]

theorem reconGroups_congr {s t : State} (h : t.spm = s.spm) (db : Nat) (K : Int) (gs : List Nat) :
    t.reconGroups db K gs = s.reconGroups db K gs := by
  induction gs with
  | nil => rfl
  | cons grp gs ih => simp only [State.reconGroups, readSpm_congr h, recon_congr h, ih]

/-! ## Updates that the commands outside the CSPRNG do not see -/

/-- An update that leaves the registers and the scratchpad, and commutes with every write a command makes. -/
structure Unseen (f : State → State) : Prop where
  g : ∀ s, (f s).g = s.g
  spm : ∀ s, (f s).spm = s.spm
  writeG : ∀ s rd v, (f s).writeG rd v = f (s.writeG rd v)
  memWrite : ∀ s a vs, (f s).memWrite a vs = f (s.memWrite a vs)
  complete : ∀ s, (f s).complete = f s.complete
  faultEntry : ∀ s w e, (f s).faultEntry w e = f (s.faultEntry w e)

/-- Where `o` answers a next state, `o'` answers that state with the update `f`. -/
def Follows (f : State → State) (o o' : Outcome) : Prop := ∀ t, o = .next t → o' = .next (f t)

section
variable {f : State → State} (hf : Unseen f) {i : Instr} (s : State)
include hf

theorem Unseen.readG (r : RegNum) : (f s).readG r = s.readG r := readG_congr (hf.g s) r

theorem Unseen.readSpm (a : Nat) : (f s).readSpm a = s.readSpm a := readSpm_congr (hf.spm s) a

theorem Unseen.memRead (a n : Nat) : (f s).memRead a n = s.memRead a n := memRead_congr (hf.spm s) a n

theorem Unseen.writeSpm (a : Nat) (v : Word) : (f s).writeSpm a v = f (s.writeSpm a v) := hf.memWrite s a [v]

theorem Unseen.ok (u : State) : Follows f (finish i s (.ok u)) (finish i (f s) (.ok (f u))) := by
  rintro _ ⟨⟩
  exact congrArg _ (hf.complete u)

theorem Unseen.error (e : Raise) : Follows f (finish i s (.error e)) (finish i (f s) (.error e)) := by
  rintro _ ⟨⟩
  exact congrArg _ (hf.faultEntry s _ e)

/-- A check that faults, made on both sides alike. -/
theorem Unseen.check {c : Prop} [Decidable c] {e : Raise} {r r' : Except Raise State}
    (h : Follows f (finish i s r) (finish i (f s) r')) :
    Follows f (finish i s (if c then .error e else r)) (finish i (f s) (if c then .error e else r')) := by
  split
  · exact hf.error s e
  · exact h

theorem Unseen.fieldBinary (rd ra rb : RegNum) (op : Byte → Byte → Except Raise Byte) :
    Follows f (finish i s (fieldBinary s rd ra rb op)) (finish i (f s) (fieldBinary (f s) rd ra rb op)) := by
  simp only [Machine.fieldBinary, hf.readG, hf.writeG]
  refine hf.check s (hf.check s ?_)
  split
  · exact hf.ok s _
  · exact hf.error s _

/-- A command that does not use the pool does the same before and after an update it does not see. -/
theorem exec_unseen (hi : i.usesPool = false) : Follows f (exec i s) (exec i (f s)) := by
  cases i with
  | li rd imm =>
    simp only [exec, execLi, hf.writeG]
    exact hf.ok s _
  | mov rd ra =>
    simp only [exec, execMov, hf.readG, hf.writeG]
    exact hf.ok s _
  | ldw rd ra imm =>
    simp only [exec, execLdw, hf.readG, hf.readSpm, hf.writeG]
    exact hf.check s (hf.ok s _)
  | stw rd ra imm =>
    simp only [exec, execStw, hf.readG, hf.writeSpm]
    exact hf.check s (hf.ok s _)
  | wipe ra rb =>
    simp only [exec, execWipe, hf.readG, hf.memWrite]
    exact hf.check s (hf.check s (hf.ok s _))
  | gfadd rd ra rb | gfsub rd ra rb | gfmul rd ra rb | gfdiv rd ra rb => exact hf.fieldBinary s rd ra rb _
  | gfinv rd ra =>
    simp only [exec, execGfinv, hf.readG, hf.writeG]
    exact hf.check s (hf.check s (hf.ok s _))
  | gfvalid rd ra =>
    simp only [exec, execGfvalid, hf.readG, hf.writeG]
    exact hf.ok s _
  | peval rd ra rb rc =>
    simp only [exec, execPeval, hf.readG, hf.memRead, hf.writeG]
    split
    · exact hf.error s _
    · refine hf.check s ?_
      split
      · exact hf.error s _
      · exact hf.ok s _
  | pvalid rd ra rb =>
    simp only [exec, execPvalid, hf.readG, hf.memRead, hf.writeG]
    split
    · exact hf.error s _
    · exact hf.ok s _
  | lagr rd ra rb rc re =>
    simp only [exec, execLagr, hf.readG, hf.memRead, hf.writeG]
    refine hf.check s (hf.check s (hf.check s (hf.check s ?_)))
    split
    · exact hf.error s _
    · split
      · exact hf.error s _
      · exact hf.ok s _
  | recon rd ra rb rc =>
    simp only [exec, execRecon, hf.readG, recon_congr (hf.spm s), hf.writeG]
    split
    · exact hf.ok s _
    · exact hf.error s _
  | brecon ra rb rc re =>
    simp only [exec, execBrecon, hf.readG, reconGroups_congr (hf.spm s), hf.memWrite]
    refine hf.check s (hf.check s (hf.check s ?_))
    split
    · exact hf.error s _
    · exact hf.ok s _
  | rndb | rndnz | rndint | rndfill | rnduniq | rndclr | rndseed | genpoly | genpts => cases hi

end

/-! ## Updates that no command sees -/

/-- `s` with the pool, its cursor, INIT and the entropy source of `u`. -/
def State.withSource (s u : State) : State :=
  { s with pool := u.pool, cur := u.cur, initFlag := u.initFlag, entropy := u.entropy, drawn := u.drawn }

/-- What draws can make of `s` is `s` with another source. -/
theorem sameButDraws_iff {s u : State} : s.SameButDraws u ↔ u = s.withSource u := Iff.rfl

theorem withSource_congr (s : State) {u v : State} (h : u.SameSource v) : s.withSource v = s.withSource u := by
  obtain ⟨hp, hc, hi, he, hd⟩ := h
  simp only [State.withSource, hp, hc, hi, he, hd]

theorem State.reseed_congr {s t : State} (h : s.SameSource t) : s.reseed.SameSource t.reseed := by
  obtain ⟨hb, -, -, -, he, hd⟩ := State.draws_congr 256 h
  rw [State.reseed_eq, State.reseed_eq]
  generalize s.draws 256 = r at *
  generalize t.draws 256 = q at *
  exact ⟨hb, rfl, rfl, he, hd⟩

/-- What RNDCLR makes of a state (R206). -/
def State.clearPool (s : State) : State := { s with pool := List.replicate 256 0, cur := 0, initFlag := false }

theorem execRndclr_eq (s : State) : execRndclr s = finish .rndclr s (.ok s.clearPool) := rfl

/-- An update that the draws do not see either. -/
structure UnseenByDraws (f : State → State) : Prop extends Unseen f where
  sameSource : ∀ s : State, s.SameSource (f s)
  withSource : ∀ s u : State, (f s).withSource u = f (s.withSource u)
  setPending : ∀ (s : State) x, { f s with pending := x } = f { s with pending := x }

section
variable {f : State → State} (hf : UnseenByDraws f)
include hf

/-- Draws that begin with the same source and come to the same source come to states that differ by the update alone. -/
theorem UnseenByDraws.eq_of_sameSource {s u v : State} (hu : s.SameButDraws u) (hv : (f s).SameButDraws v)
    (h : u.SameSource v) : v = f u :=
  calc v = (f s).withSource v := sameButDraws_iff.mp hv
    _ = (f s).withSource u := withSource_congr _ h
    _ = f (s.withSource u) := hf.withSource s u
    _ = f u := congrArg f (sameButDraws_iff.mp hu).symm

theorem UnseenByDraws.nextByte (s : State) : (f s).nextByte = (s.nextByte.1, f s.nextByte.2) := by
  obtain ⟨hb, hs⟩ := State.nextByte_congr (hf.sameSource s)
  exact Prod.ext hb (hf.eq_of_sameSource (State.nextByte_frame s) (State.nextByte_frame _) hs)

theorem UnseenByDraws.nextBytes (n : Nat) (s : State) : (f s).nextBytes n = ((s.nextBytes n).1, f (s.nextBytes n).2) := by
  obtain ⟨hb, hs⟩ := State.nextBytes_congr n (hf.sameSource s)
  exact Prod.ext hb (hf.eq_of_sameSource (State.nextBytes_frame n s) (State.nextBytes_frame n _) hs)

theorem UnseenByDraws.reseed (s : State) : (f s).reseed = f s.reseed :=
  hf.eq_of_sameSource (State.reseed_frame s) (State.reseed_frame _) (State.reseed_congr (hf.sameSource s))

theorem UnseenByDraws.clearPool (s : State) : (f s).clearPool = f s.clearPool := by
  obtain ⟨-, -, -, he, hd⟩ := hf.sameSource s
  exact hf.eq_of_sameSource (s := s) rfl rfl ⟨rfl, rfl, rfl, he, hd⟩

theorem UnseenByDraws.deliver (p : Pending) (s : State) : p.deliver (f s) = f (p.deliver s) := by
  unfold Pending.deliver
  split
  · exact hf.writeG s _ _
  · exact hf.memWrite s _ _

theorem UnseenByDraws.resample (n : Nat) (p : Pending) (s : State) : resample n p (f s) = f (resample n p s) := by
  induction n generalizing p s with
  | zero =>
    simp only [Machine.resample, hf.setPending, hf.deliver, hf.complete]
    split <;> rfl
  | succ n ih =>
    simp only [resample_succ, hf.setPending, hf.deliver, hf.complete, hf.nextByte, ih]
    split <;> rfl

variable {i : Instr} (s : State)

theorem UnseenByDraws.loop (u : State) (p : Pending) :
    Follows f (finishResample i s (.ok (u, p))) (finishResample i (f s) (.ok (f u, p))) := by
  rintro _ ⟨⟩
  exact congrArg _ (hf.resample _ p u)

theorem UnseenByDraws.checkLoop {c : Prop} [Decidable c] {e : Raise} {r r' : Except Raise (State × Pending)}
    (h : Follows f (finishResample i s r) (finishResample i (f s) r')) :
    Follows f (finishResample i s (if c then .error e else r)) (finishResample i (f s) (if c then .error e else r')) := by
  split
  · exact hf.error s e
  · exact h

/-- Every command does the same before and after an update that neither it nor the draws see. -/
theorem exec_unseenByDraws : Follows f (exec i s) (exec i (f s)) := by
  cases hi : i.usesPool with
  | false => exact exec_unseen hf.toUnseen s hi
  | true =>
    cases i with
    | rndb rd =>
      simp only [exec, execRndb, hf.nextByte, hf.writeG]
      exact hf.ok s _
    | rndnz rd => exact hf.loop (i := .rndnz rd) s s _
    | rndint rd ra =>
      simp only [exec, execRndint, hf.readG]
      exact hf.checkLoop s (hf.loop s s _)
    | rndfill ra rb =>
      simp only [exec, execRndfill, hf.readG, hf.nextBytes, hf.memWrite]
      exact hf.check s (hf.check s (hf.ok s _))
    | rnduniq ra rb rc =>
      simp only [exec, execRnduniq, hf.readG]
      split
      · exact hf.ok s s
      · exact hf.checkLoop s (hf.checkLoop s (hf.checkLoop s (hf.loop s s _)))
    | rndclr =>
      simp only [exec, execRndclr_eq, hf.clearPool]
      exact hf.ok s _
    | rndseed =>
      simp only [exec, execRndseed, hf.reseed]
      exact hf.ok s _
    | genpoly ra rb rc =>
      simp only [exec, execGenpoly, hf.readG, hf.nextBytes]
      exact hf.checkLoop s (hf.checkLoop s (hf.checkLoop s (hf.checkLoop s (hf.loop s _ _))))
    | genpts ra rb =>
      simp only [exec, execGenpts, hf.readG]
      exact hf.checkLoop s (hf.checkLoop s (hf.loop s s _))
    | li | mov | ldw | stw | wipe | gfadd | gfsub | gfmul | gfinv | gfdiv | gfvalid | peval | pvalid | lagr | recon
    | brecon => cases hi

end

/-! ## The pool and its cursor -/

/-- `s` with another pool and cursor: all that `hidePool` strikes out (R38). -/
def State.setPool (p : List Byte) (c : BitVec 8) (s : State) : State := { s with pool := p, cur := c }

theorem hidePool_eq_iff {s₁ s₂ : State} : s₁.hidePool = s₂.hidePool ↔ s₂ = s₁.setPool s₂.pool s₂.cur := by
  constructor <;> intro h
  · simp only [State.hidePool, State.mk.injEq] at h
    simp only [State.setPool, h]
  · rw [h]
    rfl

theorem unseen_setPool (p : List Byte) (c : BitVec 8) : Unseen (State.setPool p c) where
  g _ := rfl
  spm _ := rfl
  writeG _ _ _ := rfl
  memWrite _ _ _ := rfl
  complete _ := rfl
  faultEntry _ _ _ := rfl

theorem busWrite_setPool (p : List Byte) (c : BitVec 8) (s : State) (offset : Nat) (v : Word) :
    (s.setPool p c).busWrite offset v = (s.busWrite offset v).setPool p c := by
  simp only [State.busWrite]
  split_ifs <;> rfl

/-- A word that is dropped, illegal or of a command that does not use the pool is issued alike whatever the pool is. -/
theorem issue_setPool (p : List Byte) (c : BitVec 8) {w : Word} {s : State}
    (hi : ∀ i, decode w = .ok i → i.usesPool = false) :
    Follows (State.setPool p c) (issue w s) (issue w (s.setPool p c)) := by
  intro t h
  rcases issue_cases h with ⟨hf, rfl⟩ | ⟨hf, e, he, rfl⟩ | ⟨hf, i, hd, h⟩
  · simp [issue, State.setPool, hf, State.drop]
  · simp [issue, State.setPool, hf, he, State.faultEntry]
  · have h' : issue w (s.setPool p c) = exec i (s.setPool p c) := by simp [issue, State.setPool, hf, hd]
    rw [h']
    exact exec_unseen (unseen_setPool p c) s (hi i hd) t h

end Sys2Proof.Machine
end

section
/-! SUPPORT. The register window, offset by offset (10_state.md R40), and the command port (60_exceptions.md R266, R269). -/

namespace Sys2Proof.Machine

/-! ## Reads -/

theorem busRead_status (s : State) : s.busRead 0x0004 = s.status := rfl
theorem busRead_ctrl (s : State) : s.busRead 0x0008 = s.ctrl := rfl
theorem busRead_fcause (s : State) : s.busRead 0x000C = s.fcause.setWidth 32 := rfl
theorem busRead_fcmd (s : State) : s.busRead 0x0010 = s.fcmd := rfl
theorem busRead_fidx (s : State) : s.busRead 0x0014 = s.fidx := rfl
theorem busRead_fgrp (s : State) : s.busRead 0x0018 = s.fgrp := rfl
theorem busRead_fseq (s : State) : s.busRead 0x001C = s.fseq := rfl
theorem busRead_cmdcnt (s : State) : s.busRead 0x0024 = s.cmdcnt := rfl

/-- From 0x40 upward a read is one of a general register, of a scratchpad word, or of nothing. -/
theorem busRead_high (s : State) {offset : Nat} (h : 0x0040 ≤ offset) :
    s.busRead offset =
      if offset < 0x0080 then s.readG (regOf ((offset - 0x0040) / 4))
      else if 0x4000 ≤ offset ∧ offset < 0x4000 + 4 * Config.spmWords then s.readSpm ((offset - 0x4000) / 4)
      else 0 := by
  unfold State.busRead
  repeat rw [if_neg (by omega)]
  simp only [h, true_and]

/-- From 0x40 upward a write is one of a general register, of a scratchpad word, or of nothing. -/
theorem busWrite_high (s : State) {offset : Nat} (h : 0x0040 ≤ offset) (v : Word) :
    s.busWrite offset v =
      if offset < 0x0080 then s.writeG (regOf ((offset - 0x0040) / 4)) v
      else if 0x4000 ≤ offset ∧ offset < 0x4000 + 4 * Config.spmWords then s.writeSpm ((offset - 0x4000) / 4) v
      else s := by
  unfold State.busWrite
  repeat rw [if_neg (by omega)]
  simp only [h, true_and]

theorem regOf_gOffset (i : RegNum) : regOf ((0x0040 + 4 * i.val - 0x0040) / 4) = i := by
  rw [show (0x0040 + 4 * i.val - 0x0040) / 4 = i.val by omega, regOf_val]

theorem busRead_g (s : State) (i : RegNum) : s.busRead (0x0040 + 4 * i.val) = s.readG i := by
  rw [busRead_high s (by omega), if_pos (by omega), regOf_gOffset]

theorem busRead_spm (s : State) {a : Nat} (ha : a < Config.spmWords) : s.busRead (0x4000 + 4 * a) = s.readSpm a := by
  rw [busRead_high s (by omega), if_neg (by omega), if_pos (by omega), show (0x4000 + 4 * a - 0x4000) / 4 = a by omega]

theorem busRead_unmapped (s : State) {offset : Nat}
    (h : offset = 0x0000 ∨ offset = 0x0020 ∨ (0x0024 < offset ∧ offset < 0x0040) ∨
      (0x0080 ≤ offset ∧ offset < 0x4000) ∨ 0x4000 + 4 * Config.spmWords ≤ offset) : s.busRead offset = 0 := by
  unfold State.busRead
  repeat rw [if_neg (by omega)]

/-! ## Writes -/

theorem busWrite_g (s : State) (i : RegNum) (v : Word) : s.busWrite (0x0040 + 4 * i.val) v = s.writeG i v := by
  rw [busWrite_high s (by omega), if_pos (by omega), regOf_gOffset]

theorem busWrite_spm (s : State) {a : Nat} (ha : a < Config.spmWords) (v : Word) :
    s.busWrite (0x4000 + 4 * a) v = s.writeSpm a v := by
  rw [busWrite_high s (by omega), if_neg (by omega), if_pos (by omega),
    show (0x4000 + 4 * a - 0x4000) / 4 = a by omega]

theorem busWrite_ctrl (s : State) (v : Word) : s.busWrite 0x0008 v = { s with fie := v.getLsbD 0 } := rfl

theorem busWrite_fclr (s : State) {v : Word} (h : v.getLsbD 0 = true) : s.busWrite 0x0020 v = s.clearFault :=
  if_pos h

theorem busWrite_fclr_clear (s : State) {v : Word} (h : v.getLsbD 0 = false) : s.busWrite 0x0020 v = s :=
  if_neg (ne_true_of_eq_false h)

/-- The read-only and the unmapped offsets. -/
theorem busWrite_ignored (s : State) {offset : Nat} (v : Word)
    (h : 0x0004 = offset ∨ (0x000C ≤ offset ∧ offset ≤ 0x001C) ∨ (0x0024 ≤ offset ∧ offset < 0x0040) ∨
      (0x0080 ≤ offset ∧ offset < 0x4000) ∨ 0x4000 + 4 * Config.spmWords ≤ offset) : s.busWrite offset v = s := by
  unfold State.busWrite
  repeat rw [if_neg (by omega)]

theorem step_writeG {s : State} (h : s.pending = none) {i : RegNum} {v : Word} {rest : List BusEvent}
    (hb : s.bus = .write .word (0x0040 + 4 * i.val) v :: rest) :
    step s = .next (State.writeG { s with bus := rest, readData := none } i v) := by
  rw [step_write h (by omega) (by omega) hb, busWrite_g]

/-! ## The command port -/

theorem issue_locked {s : State} (h : s.faultFlag = true) (w : Word) : issue w s = .next s.drop := by
  simp only [issue, h, if_true]

theorem issue_legal {s : State} (h : s.faultFlag = false) {w : Word} {i : Instr} (hd : decode w = .ok i) :
    issue w s = exec i s := by
  simp only [issue, h, hd, Bool.false_eq_true, if_false]

theorem step_exec {s : State} (hp : s.pending = none) (hf : s.faultFlag = false) {w : Word} {rest : List BusEvent}
    (hb : s.bus = .write .word 0x0000 w :: rest) {i : Instr} (hd : decode w = .ok i) :
    step s = exec i { s with bus := rest, readData := none } :=
  (step_issue hp hb).trans (issue_legal (s := { s with bus := rest, readData := none }) hf hd)

end Sys2Proof.Machine
end

section
/-! SUPPORT. What a command and a step leave of the registers, the flags and the counter (10_state.md R22, R25 to R27, R35 to
R37; 60_exceptions.md R266 to R269). -/

namespace Sys2Proof.Machine

/-! ## CTRL and STATUS -/

theorem ctrl_getLsbD (s : State) (k : Nat) : s.ctrl.getLsbD k = (decide (k = 0) && s.fie) := by
  have h : s.fie.toNat = Nat.bit s.fie 0 := by cases s.fie <;> rfl
  rw [State.ctrl, BitVec.getLsbD_ofNat, h]
  cases k with
  | zero => simp
  | succ k => simp [Nat.testBit_bit_succ]

theorem status_getLsbD (s : State) (k : Nat) : s.status.getLsbD k =
    ((decide (k = 0) && s.faultFlag) || (decide (k = 1) && s.dropFlag) || (decide (k = 2) && s.initFlag)) := by
  have h : s.faultFlag.toNat + 2 * s.dropFlag.toNat + 4 * s.initFlag.toNat =
      Nat.bit s.faultFlag (Nat.bit s.dropFlag (Nat.bit s.initFlag 0)) := by
    cases s.faultFlag <;> cases s.dropFlag <;> cases s.initFlag <;> rfl
  rw [State.status, BitVec.getLsbD_ofNat, h]
  match k with
  | 0 => simp
  | 1 => simp [Nat.testBit_bit_succ]
  | 2 => simp [Nat.testBit_bit_succ]
  | k + 3 => simp [Nat.testBit_bit_succ]

/-! ## What no command reads -/

/-- `s` with FIE and DROP changed. -/
def State.mapFlags (fie drop : Bool → Bool) (s : State) : State :=
  { s with fie := fie s.fie, dropFlag := drop s.dropFlag }

theorem unseenByDraws_mapFlags (fie drop : Bool → Bool) : UnseenByDraws (State.mapFlags fie drop) where
  g _ := rfl
  spm _ := rfl
  writeG _ _ _ := rfl
  memWrite _ _ _ := rfl
  complete _ := rfl
  faultEntry _ _ _ := rfl
  sameSource _ := ⟨rfl, rfl, rfl, rfl, rfl⟩
  withSource _ _ := rfl
  setPending _ _ := rfl

/-- No command writes FIE or DROP (R26, R27). -/
theorem exec_fie_dropFlag {i : Instr} {s t : State} (h : exec i s = .next t) :
    t.fie = s.fie ∧ t.dropFlag = s.dropFlag := by
  rcases exec_frame h with ⟨f, -, rfl⟩ | ⟨-, hd, hf, -⟩
  · exact ⟨rfl, rfl⟩
  · exact ⟨hf, hd⟩

/-! ## The flags -/

/-- What a step does to FAULT and DROP: reset and FCLR clear them, a word written to CMD faults or is dropped, every other
step leaves both. -/
theorem step_flag_cases {s t : State} (h : step s = .next t) :
    (∃ rest, s.bus = .reset :: rest ∧ t.faultFlag = false ∧ t.dropFlag = false) ∨
    (∃ v rest, s.bus = .write .word 0x0020 v :: rest ∧ v.getLsbD 0 = true ∧ t.faultFlag = false ∧ t.dropFlag = false) ∨
    (∃ w rest f, s.bus = .write .word 0x0000 w :: rest ∧
      t = State.faultEntry { s with bus := rest, readData := none } w f) ∨
    (∃ w rest, s.bus = .write .word 0x0000 w :: rest ∧ s.faultFlag = true ∧ t.faultFlag = true ∧ t.dropFlag = true) ∨
    (t.faultFlag = s.faultFlag ∧ t.dropFlag = s.dropFlag) := by
  rcases step_cases h with ⟨rest, hb, rfl⟩ | ⟨p, -, -, rfl⟩ | ⟨-, -, rfl⟩ | ⟨offset, rest, -, -, -, rfl⟩ |
    ⟨offset, v, rest, -, hb, -, -, rfl⟩ | ⟨w, rest, -, hb, hi⟩
  · exact .inl ⟨rest, hb, rfl, rfl⟩
  · obtain ⟨hf, hd, -⟩ := resample_frame Config.candidatesPerStep p s
    exact .inr (.inr (.inr (.inr ⟨hf, hd⟩)))
  · exact .inr (.inr (.inr (.inr ⟨rfl, rfl⟩)))
  · exact .inr (.inr (.inr (.inr ⟨rfl, rfl⟩)))
  · obtain ⟨-, -, -, -, -, -, -, -, hw⟩ := busWrite_frame { s with bus := rest, readData := none } offset v
    rcases hw with ⟨hf, hd, -⟩ | ⟨rfl, hv, hw⟩
    · exact .inr (.inr (.inr (.inr ⟨hf, hd⟩)))
    · rw [hw]
      exact .inr (.inl ⟨v, rest, hb, hv, rfl, rfl⟩)
  · rcases issue_cases hi with ⟨hf, rfl⟩ | ⟨-, e, -, rfl⟩ | ⟨-, i, hd, he⟩
    · exact .inr (.inr (.inr (.inl ⟨w, rest, hb, hf, hf, rfl⟩)))
    · exact .inr (.inr (.inl ⟨w, rest, _, hb, rfl⟩))
    · rcases exec_frame he with ⟨f, -, ht⟩ | ⟨hf, hdrop, -⟩
      · rw [encode_of_decode hd] at ht
        exact .inr (.inr (.inl ⟨w, rest, f, hb, ht⟩))
      · exact .inr (.inr (.inr (.inr ⟨hf, hdrop⟩)))

/-! ## The counter -/

/-- A command ends in the step from `s` to `t`: a word accepted in it completes or faults, or the command in progress
ends (R25). -/
def CommandEnds (s t : State) : Prop :=
  (s.pending = none ∧ s.faultFlag = false ∧ (∃ (w : Word) (rest : List BusEvent), s.bus = .write .word 0x0000 w :: rest) ∧
    t.pending = none) ∨ (s.pending ≠ none ∧ t.pending = none)

/-- With no command in progress, a command ends only with a word written to CMD while FAULT is 0. -/
theorem not_commandEnds {s t : State} (hp : s.pending = none)
    (h : s.faultFlag = true ∨ (∀ (w : Word) (rest : List BusEvent), s.bus ≠ .write .word 0x0000 w :: rest) ∨
      t.pending ≠ none) : ¬CommandEnds s t := by
  rintro (⟨-, hf, ⟨w, rest, hb⟩, ht⟩ | ⟨hp', -⟩)
  · rcases h with h | h | h
    · simp [hf] at h
    · exact h w rest hb
    · exact h ht
  · exact hp' hp

theorem State.SameButDraws.cmdcnt {s u : State} (hu : s.SameButDraws u) : u.cmdcnt = s.cmdcnt := by
  rw [show u = _ from hu]

theorem State.SameButDraws.g {s u : State} (hu : s.SameButDraws u) : u.g = s.g := by
  rw [show u = _ from hu]

/-- A word accepted with no command in progress is counted exactly if it is in progress no more. -/
theorem exec_cmdcnt {i : Instr} {s t : State} (hp : s.pending = none) (h : exec i s = .next t) :
    (t.pending = none ∧ t.cmdcnt = s.cmdcnt + 1) ∨ (t.pending ≠ none ∧ t.cmdcnt = s.cmdcnt) := by
  rcases exec_frame h with ⟨f, -, rfl⟩ | ⟨-, -, -, -, -, -, -, -, -, -, hc⟩
  · exact .inl ⟨hp, rfl⟩
  · rcases hc with ⟨hc, hq⟩ | ⟨-, hq, hu⟩
    · exact .inl ⟨hq.elim (fun e => e.trans hp) id, hc⟩
    · exact .inr ⟨hq, hu.cmdcnt⟩

/-- A step other than reset counts one command if one ends in it, and none else (R25). -/
theorem step_cmdcnt {s t : State} (h : step s = .next t) (hr : ∀ rest, s.bus ≠ .reset :: rest) :
    (CommandEnds s t ∧ t.cmdcnt = s.cmdcnt + 1) ∨ (¬CommandEnds s t ∧ t.cmdcnt = s.cmdcnt) := by
  rcases step_cases h with ⟨rest, hb, -⟩ | ⟨p, hp, -, rfl⟩ | ⟨hp, hb, rfl⟩ | ⟨offset, rest, hp, hb, -, rfl⟩ |
    ⟨offset, v, rest, hp, hb, -, h0, rfl⟩ | ⟨w, rest, hp, hb, hi⟩
  · exact absurd hb (hr rest)
  · have hs : s.pending ≠ none := by simp [hp]
    rcases resample_ends_or_waits Config.candidatesPerStep p s with ⟨hq, hc⟩ | ⟨hq, hu⟩
    · exact .inl ⟨.inr ⟨hs, hq⟩, hc⟩
    · exact .inr ⟨fun he => he.elim (fun e => hs e.1) (fun e => hq e.2), hu.cmdcnt⟩
  · exact .inr ⟨not_commandEnds hp (.inr (.inl (by simp [hb]))), rfl⟩
  · exact .inr ⟨not_commandEnds hp (.inr (.inl (by simp [hb]))), rfl⟩
  · obtain ⟨-, hc, -⟩ := busWrite_frame { s with bus := rest, readData := none } offset v
    exact .inr ⟨not_commandEnds hp (.inr (.inl (by simp [hb, h0]))), hc⟩
  · rcases issue_cases hi with ⟨hf, rfl⟩ | ⟨hf, e, -, rfl⟩ | ⟨hf, i, -, he⟩
    · exact .inr ⟨not_commandEnds hp (.inl hf), rfl⟩
    · exact .inl ⟨.inl ⟨hp, hf, ⟨w, rest, hb⟩, hp⟩, rfl⟩
    · rcases exec_cmdcnt (s := { s with bus := rest, readData := none }) hp he with ⟨hq, hc⟩ | ⟨hq, hc⟩
      · exact .inl ⟨.inl ⟨hp, hf, ⟨w, rest, hb⟩, hq⟩, hc⟩
      · exact .inr ⟨not_commandEnds hp (.inr (.inr hq)), hc⟩

/-- A word that faults records the counter as it was (R32). -/
theorem issue_fseq {w : Word} {s t : State} (hf : s.faultFlag = false) (h : issue w s = .next t)
    (ht : t.faultFlag = true) : t.fseq = s.cmdcnt := by
  rcases issue_cases h with ⟨hf', -⟩ | ⟨-, e, -, rfl⟩ | ⟨-, i, -, he⟩
  · simp [hf] at hf'
  · rfl
  · rcases exec_frame he with ⟨f, -, rfl⟩ | ⟨hf', -⟩
    · rfl
    · simp [hf, ht] at hf'

/-! ## The pool -/

theorem usesPool_of_resamples {i : Instr} (h : i.resamples = true) : i.usesPool = true := by
  cases i with
  | rndnz | rndint | rnduniq | genpoly | genpts => rfl
  | _ => cases h

theorem wrote_source {i : Instr} {u w : State} (h : Wrote i u w) : u.SameSource w ∧ w.pending = u.pending := by
  rcases h with ⟨rd, v, -, rfl⟩ | ⟨-, base, vs, -, rfl⟩ | rfl <;> exact ⟨⟨rfl, rfl, rfl, rfl, rfl⟩, rfl⟩

/-! ## The general registers -/

theorem wrote_readG {i : Instr} {u w : State} {r : RegNum} (h : Wrote i u w) (hr : i.dest ≠ some r) :
    w.readG r = u.readG r := by
  rcases h with ⟨rd, v, hd, rfl⟩ | ⟨-, base, vs, -, rfl⟩ | rfl
  · exact State.readG_writeG_other u v (fun e => hr (hd.trans (congrArg some e.symm)))
  · rfl
  · rfl

/-- A resampling loop leaves every register but the one it delivers to. -/
theorem resample_readG (n : Nat) {p : Pending} {r : RegNum} (s : State) (hr : p.sink ≠ .reg r) :
    (resample n p s).readG r = s.readG r := by
  obtain ⟨q, u, hu, -, -, hs, h⟩ := resample_cases n p s
  have hg : u.readG r = s.readG r := readG_congr hu.g r
  rcases h with ⟨-, h⟩ | ⟨-, h⟩ <;> rw [h]
  · rcases deliver_cases q { u with pending := none } with ⟨rd, hq, h⟩ | ⟨base, lead, -, h⟩ <;> rw [h]
    · have hrd : r ≠ rd := fun e => hr (hs.symm.trans (hq.trans (congrArg Sink.reg e.symm)))
      exact (State.readG_writeG_other _ _ hrd).trans hg
    · exact hg
  · exact hg

theorem starts_sink {i : Instr} {p : Pending} {r : RegNum} (h : Pending.starts i p) (hr : i.dest ≠ some r) :
    p.sink ≠ .reg r := by
  intro hs
  obtain ⟨-, -, hd⟩ := h
  simp only [hs] at hd
  exact hr hd

/-- A command leaves every register but its `rd` (R22). -/
theorem exec_readG {i : Instr} {s t : State} {r : RegNum} (h : exec i s = .next t) (hr : i.dest ≠ some r) :
    t.readG r = s.readG r := by
  rcases exec_answers i s with ⟨f, -, ha⟩ | ⟨u, w, hu, -, -, hw, ha⟩ | ⟨u, p, -, hu, -, hp, ha⟩ <;>
    rw [ha] at h <;> cases h
  · rfl
  · exact (wrote_readG hw hr).trans (readG_congr hu.g r)
  · exact (resample_readG _ u (starts_sink hp hr)).trans (readG_congr hu.g r)

end Sys2Proof.Machine
end

section
/-! SUPPORT. The invariant of the block, operation by operation: what each update of the state, a draw, a resampling loop
and a command make of it (10_state.md R28 to R39; 60_exceptions.md R262; 70_reset_and_hazards.md R309). -/

namespace Sys2Proof.Machine

theorem inv_iff {s : State} :
    s.inv = true ↔ s.spmOk = true ∧ s.poolOk = true ∧ s.recordOk = true ∧ s.pendingOk = true := by
  simp only [State.inv, Bool.and_eq_true, and_assoc]

theorem pendingOk_of_none {s : State} (h : s.pending = none) : s.pendingOk = true := by
  simp only [State.pendingOk, h]

theorem pendingOk_of_some {s : State} {p : Pending} (h : s.pending = some p) :
    s.pendingOk = true ↔ p.ok = true ∧ s.initFlag = true ∧ s.faultFlag = false := by
  simp only [State.pendingOk, h, Bool.and_eq_true, Bool.not_eq_true', and_assoc]

/-! ## Updates -/

theorem inv_reset : State.reset.inv = true :=
  inv_iff.mpr ⟨rfl, clearedPool_poolOk State.reset, rfl, rfl⟩

theorem inv_applyReset (s : State) : s.applyReset.inv = true := inv_reset

theorem inv_writeG {s : State} (h : s.inv = true) (rd : RegNum) (v : Word) : (s.writeG rd v).inv = true := h

theorem inv_complete {s : State} (h : s.inv = true) : s.complete.inv = true := h

theorem spmOk_memWrite {s : State} (h : s.spmOk = true) {a : Nat} {vs : List Word}
    (hr : a + vs.length ≤ Config.spmWords) : (s.memWrite a vs).spmOk = true := by
  simp only [State.spmOk, Bool.and_eq_true] at h ⊢
  exact ⟨Spm.wf_writeList h.1 a vs, Spm.inRange_writeList h.2 hr⟩

theorem inv_memWrite {s : State} (h : s.inv = true) {a : Nat} {vs : List Word}
    (hr : a + vs.length ≤ Config.spmWords) : (s.memWrite a vs).inv = true := by
  obtain ⟨hm, hl, hrec, hp⟩ := inv_iff.mp h
  exact inv_iff.mpr ⟨spmOk_memWrite hm hr, hl, hrec, hp⟩

theorem inv_faultEntry {s : State} (h : s.inv = true) (hp : s.pending = none) (w : Word) {f : Raise}
    (hc : raisedCode f.cause.code = true) : (s.faultEntry w f).inv = true := by
  obtain ⟨hm, hl, -, -⟩ := inv_iff.mp h
  exact inv_iff.mpr ⟨hm, hl, hc, pendingOk_of_none hp⟩

theorem inv_drop {s : State} (h : s.inv = true) (hf : s.faultFlag = true) : s.drop.inv = true := by
  obtain ⟨hm, hl, hr, hp⟩ := inv_iff.mp h
  refine inv_iff.mpr ⟨hm, hl, ?_, hp⟩
  simp only [State.recordOk, hf, if_true] at hr
  simpa [State.recordOk, hf] using hr

theorem inv_clearFault {s : State} (h : s.inv = true) (hp : s.pending = none) : s.clearFault.inv = true := by
  obtain ⟨hm, hl, -, -⟩ := inv_iff.mp h
  exact inv_iff.mpr ⟨hm, hl, rfl, pendingOk_of_none hp⟩

theorem inv_busWrite {s : State} (h : s.inv = true) (hp : s.pending = none) (offset : Nat) (v : Word) :
    (s.busWrite offset v).inv = true := by
  unfold State.busWrite
  split
  · exact h
  · split
    · split
      · exact inv_clearFault h hp
      · exact h
    · split
      · exact inv_writeG h _ v
      · split
        · refine inv_memWrite (vs := [v]) h ?_
          rw [List.length_singleton]
          omega
        · exact h

/-! ## A command in progress -/

/-- The result fits where it will be written (R205, R220, R221). -/
def Pending.sinkOk (p : Pending) : Prop :=
  match p.sink with
  | .reg _ => p.goal = 1
  | .mem base lead => base + lead.length + p.goal ≤ Config.spmWords

/-- What holds of a resampling loop before each exit test: `Pending.ok`, with the goal perhaps reached. -/
structure Pending.Sound (p : Pending) : Prop where
  sampler : p.sampler.ok = true
  length : p.held.length ≤ p.goal
  ascending : ascending p.held = true
  allowed : ∀ v ∈ p.held, p.sampler.allows v = true
  sink : p.sinkOk

theorem Pending.done_eq_false {p : Pending} : p.done = false ↔ p.held.length < p.goal := by
  simp [Pending.done]

theorem Pending.ok_iff {p : Pending} : p.ok = true ↔ p.Sound ∧ p.done = false := by
  have hsink : p.ok = true ↔ p.sampler.ok = true ∧ p.held.length < p.goal ∧ Machine.ascending p.held = true ∧
      (∀ v ∈ p.held, p.sampler.allows v = true) ∧ p.sinkOk := by
    cases h : p.sink <;> simp [Pending.ok, Pending.sinkOk, h, and_assoc]
  rw [hsink, Pending.done_eq_false]
  constructor
  · rintro ⟨h1, h2, h3, h4, h5⟩
    exact ⟨⟨h1, h2.le, h3, h4, h5⟩, h2⟩
  · rintro ⟨⟨h1, -, h3, h4, h5⟩, h2⟩
    exact ⟨h1, h2, h3, h4, h5⟩

theorem Pending.Sound.offer {p : Pending} (h : p.Sound) (hd : p.done = false) (b : Byte) : (p.offer b).Sound := by
  unfold Pending.offer
  split
  · exact h
  · rename_i v hv
    refine ⟨h.sampler, ?_, ascending_insertValue h.ascending, ?_, h.sink⟩
    · have hl := Pending.done_eq_false.mp hd
      show (insertValue v p.held).length ≤ p.goal
      rw [length_insertValue h.ascending]
      split <;> omega
    · intro w hw
      rcases mem_insertValue.mp hw with rfl | hw
      · exact Sampler.accept_allows h.sampler hv
      · exact h.allowed w hw

theorem inv_deliver {p : Pending} (hp : p.Sound) {s : State} (h : s.inv = true) : (p.deliver s).inv = true := by
  rcases deliver_cases p s with ⟨rd, -, hd⟩ | ⟨base, lead, hs, hd⟩
  · rw [hd]
    exact inv_writeG h _ _
  · rw [hd]
    have hl := hp.length
    have hk := hp.sink
    simp only [Pending.sinkOk, hs] at hk
    refine inv_memWrite h ?_
    rw [List.length_map, List.length_append]
    omega

/-- `s` with no command in progress. -/
def State.idle (s : State) : State := { s with pending := none }

theorem inv_iff_idle {s : State} : s.inv = true ↔ s.idle.inv = true ∧ s.pendingOk = true := by
  rw [inv_iff, inv_iff]
  exact ⟨fun ⟨hm, hl, hr, hp⟩ => ⟨⟨hm, hl, hr, rfl⟩, hp⟩, fun ⟨⟨hm, hl, hr, _⟩, hp⟩ => ⟨hm, hl, hr, hp⟩⟩

theorem idle_eq_self {s : State} (h : s.pending = none) : s.idle = s := by
  simp only [State.idle, ← h]

/-- Draws keep the invariant as far as they keep the pool's. -/
theorem inv_draws {s u : State} (hu : s.SameButDraws u) (h : s.idle.inv = true) (hl : u.poolOk = true) :
    u.idle.inv = true := by
  obtain ⟨hm, -, hr, -⟩ := inv_iff.mp h
  refine inv_iff.mpr ⟨?_, hl, ?_, rfl⟩
  · rw [show u = _ from hu]
    exact hm
  · rw [show u = _ from hu]
    exact hr

theorem State.SameButDraws.faultFlag {s u : State} (hu : s.SameButDraws u) : u.faultFlag = s.faultFlag := by
  rw [show u = _ from hu]

theorem nextByte_poolOk {s : State} (h : s.poolOk = true) : s.nextByte.2.poolOk = true :=
  poolOk_of_init (State.nextByte_effect s).1 ((State.nextByte_effect s).2 (poolOk_length h))

theorem poolOk_of_inv {s : State} (h : s.inv = true) : s.poolOk = true := (inv_iff.mp h).2.1

/-- A resampling loop ends in the invariant, or leaves its command in progress in it: a loop that has drawn has filled the
pool (R194). -/
theorem inv_resample (n : Nat) {p : Pending} (hp : p.Sound) {s : State} (h : s.idle.inv = true)
    (hf : s.faultFlag = false) (hi : s.initFlag = true ∨ 0 < n) : (resample n p s).inv = true := by
  induction n generalizing p s with
  | zero =>
    cases hd : p.done with
    | true =>
      rw [resample_done hd]
      exact inv_complete (inv_deliver hp h)
    | false =>
      have hi : s.initFlag = true := hi.resolve_right (by decide)
      simp only [resample, hd, Bool.false_eq_true, if_false]
      exact inv_iff_idle.mpr ⟨h, (pendingOk_of_some rfl).mpr ⟨Pending.ok_iff.mpr ⟨hp, hd⟩, hi, hf⟩⟩
  | succ n ih =>
    cases hd : p.done with
    | true =>
      rw [resample_done hd]
      exact inv_complete (inv_deliver hp h)
    | false =>
      have hu := State.nextByte_frame s
      rw [resample_succ, hd]
      exact ih (hp.offer hd _) (inv_draws hu h (nextByte_poolOk (poolOk_of_inv (s := s.idle) h)))
        (hu.faultFlag.trans hf) (.inl (State.nextByte_effect s).1)

/-! ## Commands and steps -/

/-- No cause a command raises is one of the three of the host's procedures (R262). -/
theorem raisedCode_of_raisedBy {i : Instr} {c : Cause} (h : c ∈ raisedBy i) : raisedCode c.code = true := by
  have hc : c ≠ .insufficientShareSets ∧ c ≠ .inconsistentMetadata ∧ c ≠ .shareAuthenticationFailed := by
    refine ⟨?_, ?_, ?_⟩ <;> rintro rfl <;> cases i <;> simp [raisedBy] at h
  cases c <;> simp_all [raisedCode, Cause.code]

theorem inv_wrote {i : Instr} {u w : State} (h : u.inv = true) (hw : Wrote i u w) : w.inv = true := by
  rcases hw with ⟨rd, v, -, rfl⟩ | ⟨-, base, vs, hr, rfl⟩ | rfl
  · exact inv_writeG h rd v
  · exact inv_memWrite h hr
  · exact h

/-- A command accepted with no fault pending and none in progress keeps the invariant. -/
theorem inv_exec {i : Instr} {s t : State} (h : s.inv = true) (hp : s.pending = none) (hf : s.faultFlag = false)
    (he : exec i s = .next t) : t.inv = true := by
  have hidle : s.idle.inv = true := by rwa [idle_eq_self hp]
  have hl := poolOk_of_inv h
  rcases exec_answers i s with ⟨f, hfit, ha⟩ | ⟨u, w, hu, -, hpool, hw, ha⟩ | ⟨u, p, -, hu, hpool, hstart, ha⟩ <;>
    rw [ha] at he <;> cases he
  · exact inv_faultEntry h hp _ (raisedCode_of_raisedBy hfit.1)
  · have hinv := inv_draws hu hidle (hpool hl)
    have hup : u.pending = none := by rw [show u = _ from hu]; exact hp
    rw [idle_eq_self hup] at hinv
    exact inv_complete (inv_wrote hinv hw)
  · exact inv_resample _ (Pending.ok_iff.mp hstart.1).1 (inv_draws hu hidle (hpool hl))
      (hu.faultFlag.trans hf) (.inr (by decide))

theorem inv_issue {w : Word} {s t : State} (h : s.inv = true) (hp : s.pending = none) (hi : issue w s = .next t) :
    t.inv = true := by
  rcases issue_cases hi with ⟨hf, rfl⟩ | ⟨-, e, -, rfl⟩ | ⟨hf, i, -, he⟩
  · exact inv_drop h hf
  · exact inv_faultEntry h hp w rfl
  · exact inv_exec h hp hf he

end Sys2Proof.Machine
end

section
/-! The obligations about the state (10_state.md), settled from the lemmas above. -/

open Sys2Proof Sys2Proof.Machine

/-- Settles O23: every kind of step answers alike whatever the pool and its cursor are (`step_cases`), a command by
`exec_unseen`. -/
theorem poolIsHidden : Obligations.PoolIsHidden := by
  unfold Obligations.PoolIsHidden
  intro s₁ s₂ t₁ hs hp hcmd h
  rw [hidePool_eq_iff] at hs
  generalize s₂.pool = p, s₂.cur = c at hs
  subst hs
  have hp' : (s₁.setPool p c).pending = none := hp
  rcases step_cases h with ⟨rest, hb, rfl⟩ | ⟨q, hq, -, -⟩ | ⟨-, hb, rfl⟩ | ⟨offset, rest, -, hb, ho, rfl⟩ |
    ⟨offset, v, rest, -, hb, ho, h0, rfl⟩ | ⟨w, rest, -, hb, h⟩
  · exact ⟨_, step_reset hb, rfl⟩
  · simp [hp] at hq
  · exact ⟨_, step_idle hp' hb, rfl⟩
  · exact ⟨_, step_read hp' ho hb, rfl⟩
  · have hw := busWrite_setPool p c { s₁ with bus := rest, readData := none } offset v
    exact ⟨_, step_write hp' ho h0 hb, (congrArg State.hidePool hw).trans rfl⟩
  · have hi := issue_setPool p c (fun i hd => hcmd w rest i hb hd) _ h
    exact ⟨_, (step_issue hp' hb).trans hi, rfl⟩

/-- Settles O25, one lemma of the invariant for each kind of step (`step_cases`). -/
theorem stepKeepsInvariant : Obligations.StepKeepsInvariant := by
  unfold Obligations.StepKeepsInvariant
  intro s t h hs
  rcases step_cases hs with ⟨rest, -, rfl⟩ | ⟨p, hp, -, rfl⟩ | ⟨-, -, rfl⟩ | ⟨offset, rest, -, -, -, rfl⟩ |
    ⟨offset, v, rest, hp, -, -, -, rfl⟩ | ⟨w, rest, hp, -, hi⟩
  · exact inv_applyReset _
  · obtain ⟨hidle, hpend⟩ := inv_iff_idle.mp h
    obtain ⟨hok, hinit, hf⟩ := (pendingOk_of_some hp).mp hpend
    exact inv_resample _ (Pending.ok_iff.mp hok).1 hidle hf (.inl hinit)
  · exact h
  · exact h
  · exact inv_busWrite (s := { s with bus := rest, readData := none }) h hp offset v
  · exact inv_issue (s := { s with bus := rest, readData := none }) h hp hi

/-- Settles O10, one lemma of `busRead` or `busWrite` for each row of the register map. -/
theorem windowFollowsTheRegisterMap : Obligations.WindowFollowsTheRegisterMap := by
  unfold Obligations.WindowFollowsTheRegisterMap
  intro s offset rest hp ho
  refine ⟨⟨s.busRead offset, step_read hp ho, ?_, ?_, ?_, ?_, ?_, ?_, ?_, ?_, ?_, ?_, busRead_unmapped s⟩,
    fun v hb => ⟨?_, ?_, ?_, ?_, ?_, ?_, ?_⟩⟩
  · rintro rfl
    exact busRead_status s
  · rintro rfl
    exact busRead_ctrl s
  · rintro rfl
    exact busRead_fcause s
  · rintro rfl
    exact busRead_fcmd s
  · rintro rfl
    exact busRead_fidx s
  · rintro rfl
    exact busRead_fgrp s
  · rintro rfl
    exact busRead_fseq s
  · rintro rfl
    exact busRead_cmdcnt s
  · rintro i rfl
    exact busRead_g s i
  · rintro a ha rfl
    exact busRead_spm s ha
  · rintro rfl
    exact step_issue hp hb
  · rintro rfl
    rw [step_write hp ho (by decide) hb, busWrite_ctrl]
  · rintro rfl hv
    rw [step_write hp ho (by decide) hb, busWrite_fclr _ hv]
  · rintro rfl hv
    rw [step_write hp ho (by decide) hb, busWrite_fclr_clear _ hv]
  · rintro i rfl
    rw [step_writeG hp hb]
    rfl
  · rintro a hwf ha rfl
    refine ⟨s.spm.write a v, ?_, Spm.read_write hwf a v⟩
    rw [step_write hp ho (by omega) hb, busWrite_spm _ ha]
    rfl
  · intro h
    rw [step_write hp ho (by omega) hb, busWrite_ignored _ v h]

/-- Settles O11; that no command reads FIE is `exec_unseenByDraws`. -/
theorem controlAndInterrupt : Obligations.ControlAndInterrupt := by
  unfold Obligations.ControlAndInterrupt
  refine ⟨ctrl_getLsbD, fun s v rest hp hb => ?_, fun i s t b h => ⟨(exec_fie_dropFlag h).1, ?_⟩, fun s => rfl, rfl⟩
  · exact step_write hp (by decide) (by decide) hb
  · exact exec_unseenByDraws (unseenByDraws_mapFlags (fun _ => b) id) s t h

/-- Settles O15, from what a step does to the two flags (`step_flag_cases`); that no command reads DROP is
`exec_unseenByDraws`. -/
theorem statusIsSetAndClearedOnlySo : Obligations.StatusIsSetAndClearedOnlySo := by
  unfold Obligations.StatusIsSetAndClearedOnlySo
  refine ⟨status_getLsbD, fun s t h hs ht => ?_, fun s t h hs ht => ?_, fun s t h hc => ?_, fun s v rest hp hb => ?_,
    fun i s t b h => ⟨(exec_fie_dropFlag h).2, exec_unseenByDraws (unseenByDraws_mapFlags id (fun _ => b)) s t h⟩,
    fun w s hf => issue_locked hf w, fun w i s hf hd => issue_legal hf hd, rfl⟩
  · rcases step_flag_cases h with ⟨_, -, hf, -⟩ | ⟨_, _, -, -, hf, -⟩ | hw | ⟨_, _, -, hf, -⟩ | ⟨hf, -⟩
    · simp [ht] at hf
    · simp [ht] at hf
    · exact hw
    · simp [hs] at hf
    · simp [hs, ht] at hf
  · rcases step_flag_cases h with ⟨_, -, -, hd⟩ | ⟨_, _, -, -, -, hd⟩ | ⟨_, _, f, -, rfl⟩ | ⟨w, rest, hb, hf, -⟩ | ⟨-, hd⟩
    · simp [ht] at hd
    · simp [ht] at hd
    · simp [hs] at ht
    · exact ⟨hf, w, rest, hb⟩
    · simp [hs, ht] at hd
  · rcases step_flag_cases h with ⟨rest, hb, -⟩ | ⟨v, rest, hb, hv, -⟩ | ⟨_, _, f, -, rfl⟩ | ⟨_, _, -, -, hf, hd⟩ | ⟨hf, hd⟩
    · exact ⟨rest, .inl hb⟩
    · exact ⟨rest, .inr ⟨v, hb, hv⟩⟩
    · simp at hc
    · simp [hf, hd] at hc
    · simp [hf, hd] at hc
  · rw [step_write hp (by decide) (by decide) hb, busWrite_ignored _ v (.inl rfl)]

/-- Settles O19, from the count of one step (`step_cmdcnt`) and the record of a fault (`issue_fseq`). -/
theorem cmdcntCountsAcceptedCommands : Obligations.CmdcntCountsAcceptedCommands := by
  unfold Obligations.CmdcntCountsAcceptedCommands
  refine ⟨fun s t h hr => ?_, fun w s t => issue_fseq, rfl, rfl⟩
  rcases step_cmdcnt h hr with ⟨he, hc⟩ | ⟨he, hc⟩
  · exact ⟨fun _ => hc, fun hn => absurd he hn⟩
  · exact ⟨fun he' => absurd he' he, fun _ => hc⟩

/-- Settles O22: by `exec_answers` such a command draws nothing and starts no resampling loop. -/
theorem otherCommandsLeaveThePool : Obligations.OtherCommandsLeaveThePool := by
  unfold Obligations.OtherCommandsLeaveThePool
  intro i s t hi h
  rcases exec_answers i s with ⟨f, -, ha⟩ | ⟨u, w, -, hu, -, hw, ha⟩ | ⟨u, p, hr, -, -, -, ha⟩ <;> rw [ha] at h <;> cases h
  · exact ⟨rfl, rfl, rfl, rfl, rfl, rfl⟩
  · obtain rfl := hu hi
    obtain ⟨⟨hpool, hcur, hinit, he, hd⟩, hp⟩ := wrote_source hw
    exact ⟨hpool, hcur, hinit, he, hd, hp⟩
  · simp [usesPool_of_resamples hr] at hi

/-- Settles O26: commands by `exec_readG`, a command in progress by `resample_readG`, the host by `step_writeG`. -/
theorem commandsWriteOnlyTheirRegister : Obligations.CommandsWriteOnlyTheirRegister := by
  unfold Obligations.CommandsWriteOnlyTheirRegister
  refine ⟨fun i s t r => exec_readG, fun i s t hs h ht => ?_, fun i s t hp h ht => ?_, fun s t p r hp hr h hc => ?_,
    fun w s t hf h => ?_, fun s i v rest hp hb => ⟨_, step_writeG hp hb, fun j => State.readG_writeG _ i j v⟩,
    fun s i rest hp hb => ⟨_, step_read hp (by omega) hb, congrArg some (busRead_g s i), rfl⟩⟩
  · rcases exec_frame h with ⟨f, -, rfl⟩ | ⟨hf, -⟩
    · rfl
    · simp [hs, ht] at hf
  · rcases exec_frame h with ⟨f, -, rfl⟩ | ⟨-, -, -, -, -, -, -, -, -, -, ⟨-, hq⟩ | ⟨-, -, hu⟩⟩
    · rfl
    · exact absurd (hq.elim (fun e => e.trans hp) id) ht
    · exact hu.g
  · cases h.symm.trans (step_goOn hp hr)
    rcases hc with hc | hc
    · rcases resample_ends_or_waits Config.candidatesPerStep p s with ⟨hq, -⟩ | ⟨-, hu⟩
      · exact absurd hq hc
      · exact readG_congr hu.g r
    · exact resample_readG _ s hc
  · cases h.symm.trans (issue_locked hf w)
    rfl

/-- Settles O6: `issue` runs what a word decodes to, and the word of a well-formed command decodes to it
(`decode_encode`). -/
theorem stepRunsTheDecodedCommand : Obligations.StepRunsTheDecodedCommand := by
  unfold Obligations.StepRunsTheDecodedCommand
  refine ⟨fun s w i rest hp hf hb hd => step_exec hp hf hb hd, fun s i hi hf => ?_⟩
  have hw : BitVec.ofNat 32 ((encode i).toNat % 2 ^ 32) = encode i := by
    rw [Nat.mod_eq_of_lt (encode i).isLt, BitVec.ofNat_toNat, BitVec.setWidth_eq]
  have hs : s.withFetchWord 32 (encode i).toNat =
      { s with pending := none, bus := .write .word 0x0000 (encode i) :: s.bus } := by
    simp only [State.withFetchWord, State.placeCommand, hw, hf, Bool.false_eq_true, if_false]
  rw [hs]
  exact step_exec (s := { s with pending := none, bus := _ }) rfl hf rfl (decode_encode hi)

/-- Settles O8, field by field. -/
theorem resetValues : Obligations.ResetValues := by
  unfold Obligations.ResetValues
  refine ⟨fun i => ?_, rfl, rfl, rfl, rfl, rfl, rfl, rfl, rfl, rfl, rfl, rfl, rfl, List.length_replicate,
    fun b hb => List.eq_of_mem_replicate hb, rfl, fun a _ => rfl, rfl⟩
  simp only [State.readG, State.reset, Fin.getElem_fin, Vector.getElem_replicate]

/-- Settles O12, from what a write to FCLR does for each value of bit 0. -/
theorem fclrClearsTheFault : Obligations.FclrClearsTheFault := by
  unfold Obligations.FclrClearsTheFault
  refine ⟨fun s v rest hp hb => ⟨fun hv => ?_, fun hv => ?_⟩, fun s rest hp hb => ?_⟩
  · rw [step_write hp (by decide) (by decide) hb, busWrite_fclr _ hv]
    rfl
  · rw [step_write hp (by decide) (by decide) hb, busWrite_fclr_clear _ hv]
  · rw [step_read hp (by decide) hb, busRead_unmapped s (.inr (.inl rfl))]

/-- Settles O24: the reset pool is the 256 zeros of `clearedPool_poolOk`, and every other part is clear. -/
theorem invariantAtReset : Obligations.InvariantAtReset := inv_reset

end

section
/-! SUPPORT. What a step takes from the host's queue and which accesses it refuses (20_memory.md R63, R74, R75), and what a
command leaves of the scratchpad, the queue and the read data (R72; 60_exceptions.md R270). -/

namespace Sys2Proof.Machine

/-! ## The scratchpad -/

theorem State.SameButDraws.spm {s u : State} (hu : s.SameButDraws u) : u.spm = s.spm := by
  rw [show u = _ from hu]

theorem wrote_spm {i : Instr} {u w : State} (h : Wrote i u w) (hi : i.stores = false) : w.spm = u.spm := by
  rcases h with ⟨rd, v, -, rfl⟩ | ⟨hs, -⟩ | rfl
  · rfl
  · simp [hi] at hs
  · rfl

theorem starts_sink_reg {i : Instr} {p : Pending} (h : Pending.starts i p) (hi : i.stores = false) :
    ∃ rd, p.sink = .reg rd := by
  obtain ⟨-, -, hs⟩ := h
  cases hp : p.sink with
  | reg rd => exact ⟨rd, rfl⟩
  | mem base lead => simp [hp, hi] at hs

/-- A resampling loop that delivers to a register leaves the scratchpad. -/
theorem resample_spm (n : Nat) {p : Pending} {rd : RegNum} (s : State) (hp : p.sink = .reg rd) :
    (resample n p s).spm = s.spm := by
  obtain ⟨q, u, hu, -, -, hs, h⟩ := resample_cases n p s
  rcases h with ⟨-, h⟩ | ⟨-, h⟩ <;> rw [h]
  · rcases deliver_cases q { u with pending := none } with ⟨_, -, h⟩ | ⟨base, lead, hq, -⟩
    · rw [h]
      exact hu.spm
    · cases hp.symm.trans (hs.symm.trans hq)
  · exact hu.spm

/-- A command that is not one of those that store leaves the scratchpad. -/
theorem exec_spm_of_not_stores {i : Instr} {s t : State} (hi : i.stores = false) (h : exec i s = .next t) :
    t.spm = s.spm := by
  rcases exec_answers i s with ⟨f, -, ha⟩ | ⟨u, w, hu, -, -, hw, ha⟩ | ⟨u, p, -, hu, -, hp, ha⟩ <;>
    rw [ha] at h <;> cases h
  · rfl
  · exact (wrote_spm hw hi).trans hu.spm
  · obtain ⟨rd, hs⟩ := starts_sink_reg hp hi
    exact (resample_spm _ u hs).trans hu.spm

/-- A command that faults leaves the scratchpad (R267). -/
theorem exec_spm_of_faults {i : Instr} {s t : State} (h : exec i s = .next t) (hs : s.faultFlag = false)
    (ht : t.faultFlag = true) : t.spm = s.spm := by
  rcases exec_frame h with ⟨f, -, rfl⟩ | ⟨hf, -⟩
  · rfl
  · simp [hs, ht] at hf

/-- A command left in progress has not stored yet (R309). -/
theorem exec_spm_of_waits {i : Instr} {s t : State} (h : exec i s = .next t) (hp : s.pending = none)
    (ht : t.pending ≠ none) : t.spm = s.spm := by
  rcases exec_frame h with ⟨f, -, rfl⟩ | ⟨-, -, -, -, -, -, -, -, -, -, ⟨-, hq⟩ | ⟨-, -, hu⟩⟩
  · rfl
  · exact absurd (hq.elim (fun e => e.trans hp) id) ht
  · exact hu.spm

/-! ## The queue -/

/-- No command takes an access of the host or returns data. -/
theorem exec_bus_readData {i : Instr} {s t : State} (h : exec i s = .next t) :
    t.bus = s.bus ∧ t.readData = s.readData := by
  rcases exec_frame h with ⟨f, -, rfl⟩ | ⟨-, -, -, -, -, -, -, -, hb, hr, -⟩
  · exact ⟨rfl, rfl⟩
  · exact ⟨hb, hr⟩

theorem resample_bus_readData (n : Nat) (p : Pending) (s : State) :
    (resample n p s).bus = s.bus ∧ (resample n p s).readData = s.readData := by
  obtain ⟨-, -, -, -, -, -, -, -, hb, hr⟩ := resample_frame n p s
  exact ⟨hb, hr⟩

theorem busWrite_bus (s : State) (offset : Nat) (v : Word) : (s.busWrite offset v).bus = s.bus := by
  obtain ⟨-, -, hb, -⟩ := busWrite_frame s offset v
  exact hb

theorem issue_bus {w : Word} {s t : State} (h : issue w s = .next t) : t.bus = s.bus := by
  rcases issue_cases h with ⟨-, rfl⟩ | ⟨-, e, -, rfl⟩ | ⟨-, i, -, he⟩
  · rfl
  · rfl
  · exact (exec_bus_readData he).1

/-- A step takes at most the oldest access, and puts none into the queue (R74). -/
theorem step_bus_suffix {s t : State} (h : step s = .next t) : t.bus <:+ s.bus := by
  rcases step_cases h with ⟨rest, hb, rfl⟩ | ⟨p, -, -, rfl⟩ | ⟨-, -, rfl⟩ | ⟨offset, rest, -, hb, -, rfl⟩ |
    ⟨offset, v, rest, -, hb, -, -, rfl⟩ | ⟨w, rest, -, hb, hi⟩
  · exact hb ▸ List.suffix_cons _ rest
  · rw [(resample_bus_readData _ p s).1]
  · exact List.suffix_rfl
  · exact hb ▸ List.suffix_cons _ rest
  · rw [busWrite_bus]
    exact hb ▸ List.suffix_cons _ rest
  · rw [issue_bus hi]
    exact hb ▸ List.suffix_cons _ rest

theorem step_legalHost {s t : State} (h : step s = .next t) (hs : s.legalHost = true) : t.legalHost = true := by
  rw [State.legalHost, List.all_eq_true] at hs ⊢
  exact fun e he => hs e ((step_bus_suffix h).subset he)

/-! ## Refusals -/

theorem accessRefusal_some {width : Width} {offset : Nat} {r : Refusal} :
    accessRefusal width offset = some r ↔
      (r = .narrowAccess ∧ width ≠ .word) ∨ (r = .misalignedAccess ∧ width = .word ∧ offset % 4 ≠ 0) := by
  unfold accessRefusal
  split
  · simp_all [eq_comm]
  · split <;> simp_all [eq_comm]

/-- Why an access of the host is refused, if it is (R63). -/
def BusEvent.refusal : BusEvent → Option Refusal
  | .read width offset => accessRefusal width offset
  | .write width offset _ => accessRefusal width offset
  | .reset => none

theorem BusEvent.legal_iff {e : BusEvent} : e.legal = true ↔ e.refusal = none := by
  cases e <;> simp [BusEvent.legal, BusEvent.refusal, accessRefusal_none]

/-- Only reads and writes are refused, and for what they are. -/
theorem BusEvent.refusal_some {e : BusEvent} {r : Refusal} (h : e.refusal = some r) :
    ∃ (width : Width) (offset : Nat), (e = .read width offset ∨ ∃ v : Word, e = .write width offset v) ∧
      ((r = .narrowAccess ∧ width ≠ .word) ∨ (r = .misalignedAccess ∧ width = .word ∧ offset % 4 ≠ 0)) := by
  cases e with
  | read width offset => exact ⟨width, offset, .inl rfl, accessRefusal_some.mp h⟩
  | write width offset v => exact ⟨width, offset, .inr ⟨v, rfl⟩, accessRefusal_some.mp h⟩
  | reset => cases h

/-- Every command answers a next state. -/
theorem exec_next (i : Instr) (s : State) : ∃ t, exec i s = .next t := by
  rcases exec_answers i s with ⟨f, -, h⟩ | ⟨u, w, -, -, -, -, h⟩ | ⟨u, p, -, -, -, -, h⟩ <;> exact ⟨_, h⟩

theorem issue_next (w : Word) (s : State) : ∃ t, issue w s = .next t := by
  unfold issue
  split
  · exact ⟨_, rfl⟩
  · split
    · exact ⟨_, rfl⟩
    · exact exec_next _ s

theorem access_refused {e : BusEvent} {r : Refusal} (h : e.refusal = some r) (s : State) : access e s = .refused r := by
  cases e with
  | read width offset | write width offset v =>
    simp only [BusEvent.refusal] at h
    simp only [access, h]
  | reset => cases h

theorem access_next {e : BusEvent} (h : e.refusal = none) (s : State) : ∃ t, access e s = .next t := by
  cases e with
  | reset => exact ⟨_, rfl⟩
  | read width offset =>
    simp only [BusEvent.refusal] at h
    exact ⟨_, by simp only [access, h]; rfl⟩
  | write width offset v =>
    simp only [BusEvent.refusal] at h
    simp only [access, h]
    split
    · exact issue_next v _
    · exact ⟨_, rfl⟩

theorem step_refused {s : State} (hp : s.pending = none) {e : BusEvent} {rest : List BusEvent} (hb : s.bus = e :: rest)
    {r : Refusal} (h : e.refusal = some r) : step s = .refused r :=
  (step_access hp hb).trans (access_refused h _)

/-- A step answers a next state, or refuses the access it would take. -/
theorem step_next_or_refused (s : State) :
    (∃ t, step s = .next t) ∨
      ∃ e rest r, s.pending = none ∧ s.bus = e :: rest ∧ e.refusal = some r ∧ step s = .refused r := by
  cases hb : s.bus with
  | nil =>
    cases hp : s.pending with
    | none => exact .inl ⟨s, step_idle hp hb⟩
    | some p => exact .inl ⟨_, step_goOn hp (by simp [hb])⟩
  | cons e rest =>
    cases hp : s.pending with
    | none =>
      cases hr : e.refusal with
      | none =>
        obtain ⟨t, ht⟩ := access_next hr { s with bus := rest }
        exact .inl ⟨t, (step_access hp hb).trans ht⟩
      | some r => exact .inr ⟨e, rest, r, rfl, rfl, hr, step_refused hp hb hr⟩
    | some p =>
      by_cases he : e = .reset
      · exact .inl ⟨_, step_reset (he ▸ hb)⟩
      · exact .inl ⟨_, step_goOn hp (by simp [hb, he])⟩

end Sys2Proof.Machine
end

section
/-! The obligations about the memory and the order of accesses (20_memory.md), settled from the lemmas above. -/

open Sys2Proof Sys2Proof.Machine

/-- Settles O14: a step answers a next state or refuses the access it would take (`step_next_or_refused`), and it puts no
access into the queue (`step_legalHost`). -/
theorem onlyIllFormedAccessesAreRefused : Obligations.OnlyIllFormedAccessesAreRefused := by
  unfold Obligations.OnlyIllFormedAccessesAreRefused
  refine ⟨fun s width offset rest hp hw hb => step_refused hp hb (accessRefusal_some.mpr (.inl ⟨rfl, hw⟩)),
    fun s width offset v rest hp hw hb => step_refused hp hb (accessRefusal_some.mpr (.inl ⟨rfl, hw⟩)),
    fun s offset rest hp ho hb => step_refused hp hb (accessRefusal_some.mpr (.inr ⟨rfl, rfl, ho⟩)),
    fun s offset v rest hp ho hb => step_refused hp hb (accessRefusal_some.mpr (.inr ⟨rfl, rfl, ho⟩)),
    fun s r h => ?_, fun s => ?_, fun s hs => ?_⟩
  · rcases step_next_or_refused s with ⟨t, ht⟩ | ⟨e, rest, r', hp, hb, hr, hstep⟩
    · cases h.symm.trans ht
    · cases h.symm.trans hstep
      obtain ⟨width, offset, rfl | ⟨v, rfl⟩, hwhy⟩ := BusEvent.refusal_some hr
      · exact ⟨hp, width, offset, rest, .inl hb, hwhy⟩
      · exact ⟨hp, width, offset, rest, .inr ⟨v, hb⟩, hwhy⟩
  · rcases step_next_or_refused s with ht | ⟨-, -, r, -, -, -, hstep⟩
    · exact .inr ht
    · exact .inl ⟨r, hstep⟩
  · rcases step_next_or_refused s with ⟨t, ht⟩ | ⟨e, rest, r, -, hb, hr, -⟩
    · exact ⟨t, ht, step_legalHost ht hs⟩
    · have he : e.legal = true := List.all_eq_true.mp hs e (hb ▸ List.mem_cons_self)
      simp [BusEvent.legal_iff.mp he] at hr

/-- Settles O27: the scratchpad by one lemma for each of the three cases, the rest by the frame of a command. -/
theorem commandsThatDoNotStoreKeepTheScratchpad : Obligations.CommandsThatDoNotStoreKeepTheScratchpad := by
  unfold Obligations.CommandsThatDoNotStoreKeepTheScratchpad
  intro i s t h
  obtain ⟨hbus, hread⟩ := exec_bus_readData h
  obtain ⟨hfie, hdrop⟩ := exec_fie_dropFlag h
  refine ⟨?_, hbus, hread, hfie, hdrop⟩
  rintro (hi | ⟨hs, ht⟩ | ⟨hp, ht⟩)
  · exact exec_spm_of_not_stores hi h
  · exact exec_spm_of_faults h hs ht
  · exact exec_spm_of_waits h hp ht

/-- Settles O13: such a step goes on with the resampling loop, which leaves the queue and the read data. -/
theorem accessesWaitForTheCommand : Obligations.AccessesWaitForTheCommand := by
  unfold Obligations.AccessesWaitForTheCommand
  exact fun s p hp hr => ⟨_, step_goOn hp hr, resample_bus_readData Config.candidatesPerStep p s⟩

end

section
/-! SUPPORT. Which words are legal, said by the map's masks and matches (30_encoding.md R94, R95) and field by field (R96). -/

namespace Sys2Proof

/-! ## Immediates of a decoded word -/

/-- The field `imm16` holds only immediates of 16 signed bits (R93). -/
theorem immOk_immOf (w : Word) : immOk (immOf w) = true := by
  have hlow := BitVec.le_toInt (BitVec.ofNat 16 (bitsOf w 15 0))
  have hhigh := BitVec.toInt_lt (x := BitVec.ofNat 16 (bitsOf w 15 0))
  rw [immOk, decide_eq_true_iff, immOf]
  omega

theorem instr_wellFormed (o : Opcode) (w : Word) : (o.instr w).wellFormed = true := by
  cases o with
  | li | ldw | stw => exact immOk_immOf w
  | _ => rfl

/-! ## Masks made of fields -/

/-- The word with ones in bits `hi` down to `lo`, and zeros elsewhere. -/
def fieldMask (hi lo : Nat) : Word := BitVec.ofNat 32 ((2 ^ (hi - lo + 1) - 1) * 2 ^ lo)

theorem and_fieldMask (w : Word) (hi lo : Nat) : w &&& fieldMask hi lo = BitVec.ofNat 32 (bitsOf w hi lo * 2 ^ lo) := by
  apply BitVec.eq_of_getLsbD_eq
  intro k hk
  simp only [fieldMask, bitsOf, BitVec.getLsbD_and, BitVec.getLsbD_ofNat, Nat.testBit_mul_two_pow,
    Nat.testBit_mod_two_pow, Nat.testBit_div_two_pow, Nat.testBit_two_pow_sub_one]
  by_cases hlo : lo ≤ k
  · rw [Nat.add_comm, Nat.sub_add_cancel hlo, BitVec.testBit_toNat]
    simp [hlo, hk, Bool.and_comm]
  · simp [hlo]

theorem and_fieldMask_eq_zero {w : Word} {hi lo : Nat} : w &&& fieldMask hi lo = 0#32 ↔ bitsOf w hi lo = 0 := by
  have hlt : bitsOf w hi lo * 2 ^ lo < 2 ^ 32 :=
    calc bitsOf w hi lo * 2 ^ lo ≤ w.toNat / 2 ^ lo * 2 ^ lo := Nat.mul_le_mul_right _ (Nat.mod_le _ _)
      _ ≤ w.toNat := Nat.div_mul_le_self _ _
      _ < 2 ^ 32 := w.isLt
  rw [and_fieldMask, ← BitVec.toNat_inj, BitVec.toNat_ofNat, Nat.mod_eq_of_lt hlt]
  simp

theorem and_or_eq_zero {w a b : Word} : w &&& (a ||| b) = 0#32 ↔ w &&& a = 0#32 ∧ w &&& b = 0#32 := by
  rw [BitVec.and_or_distrib_left, BitVec.or_eq_zero_iff]

/-- The mask of a field that is to be 0 unless the command uses it. -/
def unusedMask (used : Bool) (hi lo : Nat) : Word := if used then 0 else fieldMask hi lo

theorem and_unusedMask_eq_zero {w : Word} {used : Bool} {hi lo : Nat} :
    w &&& unusedMask used hi lo = 0#32 ↔ (used || bitsOf w hi lo == 0) = true := by
  cases used with
  | true => simp [unusedMask]
  | false => simp [unusedMask, and_fieldMask_eq_zero]

/-- The bits that a row of the map wants to be 0: the register fields it does not use and, in format R, `z` (R94). -/
def Row.zeroMask (r : Row) : Word :=
  (unusedMask r.usesRd 23 20 ||| unusedMask r.usesRa 19 16) |||
    match r.format with
    | .I => 0
    | .R => ((unusedMask r.usesRb 15 12 ||| unusedMask r.usesRc 11 8) ||| unusedMask r.usesRe 7 4) ||| fieldMask 3 0

theorem and_zeroMask_eq_zero {w : Word} {r : Row} : w &&& r.zeroMask = 0#32 ↔ unusedZero r w = true := by
  cases hf : r.format with
  | I => simp [Row.zeroMask, unusedZero, hf, and_or_eq_zero, and_unusedMask_eq_zero]
  | R => simp [Row.zeroMask, unusedZero, hf, and_or_eq_zero, and_unusedMask_eq_zero, and_fieldMask_eq_zero]

/-! ## The rows of the map -/

/-- The map's column mask: the opcode and the bits that are to be 0. -/
theorem row_mask (o : Opcode) : o.row.mask = fieldMask 31 24 ||| o.row.zeroMask := by
  cases o <;> rfl

/-- The map's column match: the opcode's number in bits 31:24. -/
theorem row_pattern (o : Opcode) : o.row.pattern = BitVec.ofNat 32 (o.row.op * 2 ^ 24) := by
  cases o <;> rfl

theorem zeroMask_and_pattern (o : Opcode) : o.row.zeroMask &&& o.row.pattern = 0#32 := by
  cases o <;> rfl

/-- The numbers that the map assigns (R94). -/
theorem op_assigned (o : Opcode) :
    (0x01 ≤ o.row.op ∧ o.row.op ≤ 0x05) ∨ (0x10 ≤ o.row.op ∧ o.row.op ≤ 0x15) ∨ (0x20 ≤ o.row.op ∧ o.row.op ≤ 0x23) ∨
      (0x30 ≤ o.row.op ∧ o.row.op ≤ 0x32) ∨ (0x40 ≤ o.row.op ∧ o.row.op ≤ 0x46) := by
  cases o <;> decide

theorem op_injective {o p : Opcode} (h : o.row.op = p.row.op) : o = p :=
  Option.some.inj ((ofNumber_op o).symm.trans ((congrArg Opcode.ofNumber h).trans (ofNumber_op p)))

/-- A word with an opcode of the map agrees with its row's match exactly where its unused fields are 0. -/
theorem and_mask_eq_pattern {w : Word} {o : Opcode} (hop : o.row.op = bitsOf w 31 24) :
    w &&& o.row.mask = o.row.pattern ↔ unusedZero o.row w = true := by
  have hsplit : w &&& o.row.mask = o.row.pattern ||| (w &&& o.row.zeroMask) := by
    rw [row_mask, BitVec.and_or_distrib_left, and_fieldMask, ← hop, row_pattern]
  rw [hsplit, ← and_zeroMask_eq_zero]
  refine ⟨fun h => ?_, fun h => by rw [h, BitVec.or_zero]⟩
  calc w &&& o.row.zeroMask = o.row.zeroMask &&& (o.row.pattern ||| (w &&& o.row.zeroMask)) := by
        rw [BitVec.and_or_distrib_left, zeroMask_and_pattern, BitVec.zero_or, BitVec.and_comm w, ← BitVec.and_assoc,
          BitVec.and_self]
    _ = 0#32 := by rw [h, zeroMask_and_pattern]

/-! ## Illegal words -/

theorem decode_illegal_of_no_row {w : Word} (h : ∀ o : Opcode, o.row.op ≠ bitsOf w 31 24) :
    ∃ e, decode w = .error e := by
  cases hd : decode w with
  | error e => exact ⟨e, rfl⟩
  | ok i =>
    obtain ⟨o, hop, -, -⟩ := decode_ok hd
    exact absurd hop (h o)

theorem decode_illegal_of_unused {w : Word} {o : Opcode} (hop : o.row.op = bitsOf w 31 24)
    (hz : unusedZero o.row w ≠ true) : ∃ e, decode w = .error e := by
  cases hd : decode w with
  | error e => exact ⟨e, rfl⟩
  | ok i =>
    obtain ⟨p, hp, hpz, -⟩ := decode_ok hd
    cases op_injective (hop.trans hp.symm)
    exact absurd hpz hz

theorem decode_illegal_of_unassigned {w : Word}
    (h : bitsOf w 31 24 = 0x00 ∨ (0x06 ≤ bitsOf w 31 24 ∧ bitsOf w 31 24 ≤ 0x0F) ∨
      (0x16 ≤ bitsOf w 31 24 ∧ bitsOf w 31 24 ≤ 0x1F) ∨ (0x24 ≤ bitsOf w 31 24 ∧ bitsOf w 31 24 ≤ 0x2F) ∨
      (0x33 ≤ bitsOf w 31 24 ∧ bitsOf w 31 24 ≤ 0x3F) ∨ 0x47 ≤ bitsOf w 31 24) : ∃ e, decode w = .error e := by
  refine decode_illegal_of_no_row fun o hop => ?_
  have ho := op_assigned o
  omega

/-- A register field that the command does not use, or `z`, is not 0 (R96). -/
theorem decode_illegal_of_field {w : Word} {o : Opcode} (hop : o.row.op = bitsOf w 31 24)
    (h : (o.row.usesRd = false ∧ bitsOf w 23 20 ≠ 0) ∨ (o.row.usesRa = false ∧ bitsOf w 19 16 ≠ 0) ∨
      (o.row.format = .R ∧ ((o.row.usesRb = false ∧ bitsOf w 15 12 ≠ 0) ∨ (o.row.usesRc = false ∧ bitsOf w 11 8 ≠ 0) ∨
        (o.row.usesRe = false ∧ bitsOf w 7 4 ≠ 0) ∨ bitsOf w 3 0 ≠ 0))) : ∃ e, decode w = .error e := by
  refine decode_illegal_of_unused hop fun hz => ?_
  simp only [unusedZero, Bool.and_eq_true] at hz
  obtain ⟨⟨hrd, hra⟩, hlow⟩ := hz
  rcases h with ⟨hu, hn⟩ | ⟨hu, hn⟩ | ⟨hf, h⟩
  · simp [hu, hn] at hrd
  · simp [hu, hn] at hra
  · simp only [hf, Bool.and_eq_true] at hlow
    obtain ⟨⟨⟨hrb, hrc⟩, hre⟩, h0⟩ := hlow
    rcases h with ⟨hu, hn⟩ | ⟨hu, hn⟩ | ⟨hu, hn⟩ | hn
    · simp [hu, hn] at hrb
    · simp [hu, hn] at hrc
    · simp [hu, hn] at hre
    · simp [hn] at h0

namespace Machine

theorem issue_illegal {s : State} (h : s.faultFlag = false) {w : Word} {e : Illegal} (hd : decode w = .error e) :
    issue w s = .next (s.faultEntry w (raise .illegalCommand 0)) := by
  simp only [issue, h, hd, Bool.false_eq_true, if_false]

end Machine
end Sys2Proof
end

section
/-! The obligations about the encoding (30_encoding.md), settled from the lemmas above. -/

open Sys2Proof Sys2Proof.Machine

/-- Settles O1: the word of a command has the opcode, the zeros and the fields that its row reads (`decode_encode`). -/
theorem decodeOfEncode : Obligations.DecodeOfEncode := by
  unfold Obligations.DecodeOfEncode
  exact fun i hi => decode_encode hi

/-- Settles O2: a decoded command is one of its row with the word's fields, so its immediate fits, and its word is put
together from these fields (`encode_of_decode`). -/
theorem encodeOfDecode : Obligations.EncodeOfDecode := by
  unfold Obligations.EncodeOfDecode
  intro w i h
  refine ⟨?_, encode_of_decode h⟩
  obtain ⟨o, -, -, rfl⟩ := decode_ok h
  exact instr_wellFormed o w

/-- Settles O3: under the row's mask a word agrees with the row's match where its unused fields are 0
(`and_mask_eq_pattern`). -/
theorem decodeFollowsMaskAndMatch : Obligations.DecodeFollowsMaskAndMatch := by
  unfold Obligations.DecodeFollowsMaskAndMatch
  refine ⟨fun w h => decode_illegal_of_no_row h, fun w o hop => ⟨fun h => ?_, fun h => ?_⟩, fun o p h => op_injective h⟩
  · exact decode_illegal_of_unused hop (mt (and_mask_eq_pattern hop).mpr h)
  · exact decode_of_row hop.symm ((and_mask_eq_pattern hop).mp h)

/-- Settles O5: an issued illegal word takes the fault (`issue_illegal`), and each kind of illegal word has no row or a
field against its row. -/
theorem illegalWordsRaiseIllegalCommand : Obligations.IllegalWordsRaiseIllegalCommand := by
  unfold Obligations.IllegalWordsRaiseIllegalCommand
  refine ⟨fun w e s rest hd hp hf hb => ?_, fun w h => decode_illegal_of_unassigned h,
    fun w o hop h => decode_illegal_of_field hop h, fun w hop hra => ?_, ?_, ?_⟩
  · exact (step_issue hp hb).trans (issue_illegal (s := { s with bus := rest, readData := none }) hf hd)
  · exact decode_illegal_of_field (o := .li) hop.symm (.inr (.inl ⟨rfl, hra⟩))
  · exact decode_illegal_of_unassigned (.inl rfl)
  · exact decode_illegal_of_unassigned (by decide)

end

section
/-! SUPPORT. What LI, MOV, LDW, STW and WIPE answer, one equation for each way a command of theirs ends
(40_data_movement.md R120 to R124). -/

namespace Sys2Proof

/-- The word of a well-formed command decodes to it, for a word that is written out. -/
theorem decode_eq_of_encode_eq {i : Instr} {w : Word} (hw : encode i = w) (hi : i.wellFormed = true) :
    decode w = .ok i :=
  hw ▸ decode_encode hi

theorem immOk_of_range {imm : Int} (hlo : -32768 ≤ imm) (hhi : imm ≤ 32767) : immOk imm = true :=
  decide_eq_true ⟨hlo, hhi⟩

namespace Machine

/-- The word address wraps modulo 2^32, whatever the sign of the immediate (R66). -/
theorem wordAddr_toNat (base : Word) (imm : Int) :
    (wordAddr base imm).toNat = ((base.toNat + imm) % 4294967296).toNat := by
  have hi : ((sextImm imm).toNat : Int) = imm % 4294967296 := by
    rw [sextImm, BitVec.toNat_ofInt]
    exact Int.toNat_of_nonneg (Int.emod_nonneg imm (by decide))
  rw [wordAddr, BitVec.toNat_add]
  omega

/-! ## How each command ends -/

section
variable {rd ra rb : RegNum} {imm : Int} {s : State} {a : Nat}

theorem exec_li : exec (.li rd imm) s = .next (s.writeG rd (sextImm imm)).complete := rfl

theorem exec_mov : exec (.mov rd ra) s = .next (s.writeG rd (s.readG ra)).complete := rfl

theorem exec_ldw_fault (ha : (wordAddr (s.readG ra) imm).toNat = a) (h : Config.spmWords ≤ a) :
    exec (.ldw rd ra imm) s = .next (s.faultEntry (encode (.ldw rd ra imm)) (raise .addressFault 0)) := by
  subst ha
  exact congrArg (finish (.ldw rd ra imm) s) (if_pos h)

theorem exec_ldw_load (ha : (wordAddr (s.readG ra) imm).toNat = a) (h : a < Config.spmWords) :
    exec (.ldw rd ra imm) s = .next (s.writeG rd (s.readSpm a)).complete := by
  subst ha
  exact congrArg (finish (.ldw rd ra imm) s) (if_neg (Nat.not_le.mpr h))

theorem exec_stw_fault (ha : (wordAddr (s.readG ra) imm).toNat = a) (h : Config.spmWords ≤ a) :
    exec (.stw rd ra imm) s = .next (s.faultEntry (encode (.stw rd ra imm)) (raise .addressFault 0)) := by
  subst ha
  exact congrArg (finish (.stw rd ra imm) s) (if_pos h)

theorem exec_stw_store (ha : (wordAddr (s.readG ra) imm).toNat = a) (h : a < Config.spmWords) :
    exec (.stw rd ra imm) s = .next (s.writeSpm a (s.readG rd)).complete := by
  subst ha
  exact congrArg (finish (.stw rd ra imm) s) (if_neg (Nat.not_le.mpr h))

theorem exec_wipe_invalidArgument (hn : (s.readG rb).toInt ≤ 0) :
    exec (.wipe ra rb) s = .next (s.faultEntry (encode (.wipe ra rb)) (raise .invalidArgument 0)) :=
  congrArg (finish (.wipe ra rb) s) (if_pos hn)

theorem exec_wipe_addressFault (hn : 0 < (s.readG rb).toInt)
    (hr : Config.spmWords < (s.readG ra).toNat + (s.readG rb).toInt.toNat) :
    exec (.wipe ra rb) s = .next (s.faultEntry (encode (.wipe ra rb)) (raise .addressFault 0)) :=
  congrArg (finish (.wipe ra rb) s) ((if_neg (not_le.mpr hn)).trans (if_pos (rangeOk_false.mpr hr)))

theorem exec_wipe_zero (hn : 0 < (s.readG rb).toInt)
    (hr : (s.readG ra).toNat + (s.readG rb).toInt.toNat ≤ Config.spmWords) :
    exec (.wipe ra rb) s =
      .next (s.memWrite (s.readG ra).toNat (List.replicate (s.readG rb).toInt.toNat 0)).complete :=
  congrArg (finish (.wipe ra rb) s)
    ((if_neg (not_le.mpr hn)).trans (if_neg (ne_false_of_eq_true (rangeOk_iff.mpr hr))))

end

/-- A range that is written with zeros reads 0, every other word as it was. -/
theorem State.readSpm_memWrite_zeros {s : State} (h : s.spm.wf = true) (base n a : Nat) :
    (s.memWrite base (List.replicate n 0)).readSpm a = if base ≤ a ∧ a < base + n then 0 else s.readSpm a := by
  rw [State.readSpm_memWrite h, List.length_replicate]
  split
  · exact List.getD_replicate _ (by omega)
  · rfl

end Machine
end Sys2Proof
end

section
/-! The obligations about operand movement (40_data_movement.md), settled from the lemmas above. -/

open Sys2Proof Sys2Proof.Machine

/-- Settles O30: the address of the model is the wrapped sum (`wordAddr_toNat`), and the range check splits on it. -/
theorem ldwLoadsOrFaults : Obligations.LdwLoadsOrFaults := by
  unfold Obligations.LdwLoadsOrFaults
  intro rd ra imm s hlo hhi addr word
  have ha : (wordAddr (s.readG ra) imm).toNat = addr := wordAddr_toNat _ _
  exact ⟨decode_encode (i := .ldw rd ra imm) (immOk_of_range hlo hhi), exec_ldw_fault ha, exec_ldw_load ha⟩

/-- Settles O31: the address and the range check are those of LDW, and the scratchpad after the store is read with `Spm.read_write`. -/
theorem stwStoresOrFaults : Obligations.StwStoresOrFaults := by
  unfold Obligations.StwStoresOrFaults
  intro rd ra imm s hlo hhi hwf addr word
  have ha : (wordAddr (s.readG ra) imm).toNat = addr := wordAddr_toNat _ _
  exact ⟨decode_encode (i := .stw rd ra imm) (immOk_of_range hlo hhi), exec_stw_fault ha,
    fun h => ⟨_, exec_stw_store ha h, Spm.read_write hwf addr (s.readG rd)⟩⟩

/-- Settles O32: a count above 0 is its own natural number, so the range of the statement is the range that `rangeOk`
checks and `memWrite` zeroes. -/
theorem wipeZeroesTheRangeOrFaults : Obligations.WipeZeroesTheRangeOrFaults := by
  unfold Obligations.WipeZeroesTheRangeOrFaults
  intro ra rb s hwf base n word
  refine ⟨decode_encode (i := .wipe ra rb) rfl, exec_wipe_invalidArgument, fun hn hr => ?_, fun hn hr => ?_⟩
  · exact exec_wipe_addressFault hn (by omega)
  · refine ⟨_, exec_wipe_zero hn (by omega), fun a => ?_⟩
    exact (State.readSpm_memWrite_zeros hwf base n.toNat a).trans (if_congr (by omega) rfl rfl)

/-- Settles O4: each word is the encoding of its command. -/
theorem exampleWordsDecode : Obligations.ExampleWordsDecode := by
  unfold Obligations.ExampleWordsDecode
  and_intros <;> exact decode_eq_of_encode_eq rfl rfl

/-- Settles O28: `exec_li`, for LI has no check. -/
theorem liLoadsTheImmediate : Obligations.LiLoadsTheImmediate := by
  unfold Obligations.LiLoadsTheImmediate
  exact fun rd imm s hlo hhi => ⟨decode_encode (i := .li rd imm) (immOk_of_range hlo hhi), exec_li⟩

/-- Settles O29: `exec_mov`, for MOV has no check. -/
theorem movCopiesTheRegister : Obligations.MovCopiesTheRegister := by
  unfold Obligations.MovCopiesTheRegister
  exact fun rd ra s => ⟨decode_encode (i := .mov rd ra) rfl, exec_mov⟩

end

section
/-! SUPPORT. GFMul as multiplication of polynomials over GF(2) (41_field_arithmetic.md R141 to R143). The loop of R143 is
followed up to multiples of the modulus, so that each XTime is a multiplication by X; the reduced polynomial is read off at
the end. -/

namespace Sys2Proof.Machine

open Polynomial

/-- The polynomial of a byte, bit k being the coefficient of X^k (R141). -/
noncomputable def bytePoly (v : Byte) : (ZMod 2)[X] := ∑ k ∈ Finset.range 8, if v.getLsbD k then X ^ k else 0

/-- The modulus of R142, x^8 + x^4 + x^3 + x + 1. -/
noncomputable def fieldModulus : (ZMod 2)[X] := X ^ 8 + X ^ 4 + X ^ 3 + X + 1

theorem fieldModulus_degree : fieldModulus.degree = 8 := by
  unfold fieldModulus
  compute_degree!

theorem fieldModulus_monic : fieldModulus.Monic := by
  unfold fieldModulus
  monicity!

/-! ## Bytes and polynomials -/

theorem bytePoly_coeff (v : Byte) (n : Nat) : (bytePoly v).coeff n = if v.getLsbD n then 1 else 0 := by
  have hterm : ∀ k, (if v.getLsbD k then (X : (ZMod 2)[X]) ^ k else 0).coeff n =
      if n = k then (if v.getLsbD n then 1 else 0) else 0 := by
    intro k
    by_cases h : n = k
    · subst h
      simp [apply_ite (fun p : (ZMod 2)[X] => p.coeff n)]
    · simp [apply_ite (fun p : (ZMod 2)[X] => p.coeff n), coeff_X_pow, h]
  simp only [bytePoly, finsetSum_coeff, hterm, Finset.sum_ite_eq, Finset.mem_range]
  split
  · rfl
  · rw [BitVec.getLsbD_of_ge v n (by omega), if_neg Bool.false_ne_true]

theorem bytePoly_injective : Function.Injective bytePoly := by
  intro a b h
  refine BitVec.eq_of_getLsbD_eq fun k _ => ?_
  have hk := congrArg (fun p => p.coeff k) h
  simp only [bytePoly_coeff] at hk
  cases ha : a.getLsbD k <;> cases hb : b.getLsbD k <;> simp [ha, hb] at hk ⊢

@[simp] theorem bytePoly_zero : bytePoly 0#8 = 0 := by
  simp [bytePoly]

/-- The byte that XTime folds in is the modulus without its term x^8 (R142). -/
theorem bytePoly_folded : bytePoly 0x1B = 1 + X + X ^ 3 + X ^ 4 := by
  simp [bytePoly, Finset.sum_range_succ]

theorem bytePoly_xor (a b : Byte) : bytePoly (a ^^^ b) = bytePoly a + bytePoly b := by
  ext n
  rw [coeff_add, bytePoly_coeff, bytePoly_coeff, bytePoly_coeff, BitVec.getLsbD_xor]
  cases a.getLsbD n <;> cases b.getLsbD n <;> decide

/-- The polynomial of a byte is its own remainder. -/
theorem bytePoly_modByMonic (v : Byte) : bytePoly v %ₘ fieldModulus = bytePoly v := by
  rw [modByMonic_eq_self_iff fieldModulus_monic, fieldModulus_degree]
  refine (degree_lt_iff_coeff_zero _ 8).mpr fun n hn => ?_
  rw [bytePoly_coeff, BitVec.getLsbD_of_ge v n hn, if_neg Bool.false_ne_true]

/-! ## The loop of R143, modulo the modulus -/

/-- Shifting a byte multiplies its polynomial by X, less the term X^8. -/
theorem bytePoly_shiftLeft (a : Byte) :
    bytePoly (a <<< 1) = X * bytePoly a + if a.getLsbD 7 then X ^ 8 else 0 := by
  ext n
  rw [coeff_add, bytePoly_coeff, apply_ite (fun p : (ZMod 2)[X] => p.coeff n), coeff_X_pow, coeff_zero]
  cases n with
  | zero => simp
  | succ n =>
    rw [coeff_X_mul, bytePoly_coeff, BitVec.getLsbD_shiftLeft]
    by_cases h : n < 7
    · simp [show n + 1 < 8 by omega, show n ≠ 7 by omega]
    · by_cases h7 : n = 7
      · subst h7
        cases a.getLsbD 7 <;> decide
      · simp [show ¬ n + 1 < 8 by omega, h7, BitVec.getLsbD_of_ge a n (by omega)]

/-- XTime is multiplication by X, up to the modulus folded in for the term X^8 (R142). -/
theorem bytePoly_xtime (a : Byte) :
    bytePoly (xtime a) = X * bytePoly a + if a.getLsbD 7 then fieldModulus else 0 := by
  have hfold : bytePoly (if a.getLsbD 7 then 0x1B else 0) + (if a.getLsbD 7 then X ^ 8 else 0) =
      if a.getLsbD 7 then fieldModulus else 0 := by
    cases a.getLsbD 7
    · simp
    · simp only [if_true, bytePoly_folded, fieldModulus]
      ring
  rw [xtime, bytePoly_xor, bytePoly_shiftLeft, ← hfold]
  ring

/-- Bits `i` to `i + n - 1` of a byte as a polynomial of degree below `n`. -/
noncomputable def bitsPoly (b : Byte) (i n : Nat) : (ZMod 2)[X] :=
  ∑ k ∈ Finset.range n, if b.getLsbD (i + k) then X ^ k else 0

theorem bitsPoly_succ (b : Byte) (i n : Nat) :
    bitsPoly b i (n + 1) = X * bitsPoly b (i + 1) n + if b.getLsbD i then 1 else 0 := by
  simp only [bitsPoly, Finset.sum_range_succ', Finset.mul_sum, mul_ite, mul_zero, pow_zero, Nat.add_zero]
  simp only [pow_succ', Nat.add_assoc, Nat.add_comm 1]

theorem bitsPoly_eq_bytePoly (b : Byte) : bitsPoly b 0 8 = bytePoly b := by
  simp only [bitsPoly, Nat.zero_add, bytePoly]

/-- The loop adds the multiples of `a` that the bits of `b` from `i` on ask for, up to a multiple of the modulus. -/
theorem fieldModulus_dvd_gfMulLoop (n i : Nat) (a b : Byte) :
    fieldModulus ∣ bytePoly (gfMulLoop n i 0 a b) - bytePoly a * bitsPoly b i n := by
  induction n generalizing i a with
  | zero => simp [gfMulLoop, bitsPoly]
  | succ n ih =>
    have hx : fieldModulus ∣ bytePoly (xtime a) - X * bytePoly a := by
      rw [bytePoly_xtime, add_sub_cancel_left]
      split
      · exact dvd_rfl
      · exact dvd_zero _
    have hbit : bytePoly (if b.getLsbD i then a else 0) = bytePoly a * if b.getLsbD i then 1 else 0 := by
      split <;> simp
    convert dvd_add (ih (i + 1) (xtime a)) (hx.mul_right (bitsPoly b (i + 1) n)) using 1
    rw [gfMulLoop_succ, bytePoly_xor, hbit, bitsPoly_succ]
    ring

/-- GFMul is the product of the polynomials, reduced (R141, R142). -/
theorem bytePoly_gfMul (a b : Byte) : bytePoly (gfMul a b) = (bytePoly a * bytePoly b) %ₘ fieldModulus := by
  have h := modByMonic_eq_of_dvd_sub fieldModulus_monic (fieldModulus_dvd_gfMulLoop 8 0 a b)
  rwa [bytePoly_modByMonic, bitsPoly_eq_bytePoly] at h

/-- Of a product of three elements too it is enough to reduce at the end. -/
theorem bytePoly_gfMul_gfMul (a b c : Byte) :
    bytePoly (gfMul (gfMul a b) c) = (bytePoly a * bytePoly b * bytePoly c) %ₘ fieldModulus := by
  rw [mul_modByMonic, bytePoly_modByMonic, bytePoly_gfMul, bytePoly_gfMul]

end Sys2Proof.Machine
end

section
/-! SUPPORT. The laws of the field (41_field_arithmetic.md R144, R145, R147): commutativity and associativity are those of
polynomials, and every other law rests on the inverse. -/

namespace Sys2Proof.Machine

theorem gfMul_comm (a b : Byte) : gfMul a b = gfMul b a := by
  apply bytePoly_injective
  rw [bytePoly_gfMul, bytePoly_gfMul, mul_comm]

theorem gfMul_assoc (a b c : Byte) : gfMul (gfMul a b) c = gfMul a (gfMul b c) := by
  apply bytePoly_injective
  rw [gfMul_comm a (gfMul b c), bytePoly_gfMul_gfMul, bytePoly_gfMul_gfMul, mul_comm _ (bytePoly a), mul_assoc]

@[simp] theorem gfMul_zero (a : Byte) : gfMul a 0 = 0 := (gfMul_additive_right a).map_zero

@[simp] theorem zero_gfMul (b : Byte) : gfMul 0 b = 0 := (gfMul_additive_left b).map_zero

/-- The loop of R143 for b = 1 adds `a` once. -/
@[simp] theorem gfMul_one (a : Byte) : gfMul a 1 = a := by
  simp [gfMul, gfMulLoop]

@[simp] theorem one_gfMul (a : Byte) : gfMul 1 a = a := by
  rw [gfMul_comm, gfMul_one]

theorem xtime_eq_gfMul_two (a : Byte) : xtime a = gfMul a 0x02 := by
  simp [gfMul, gfMulLoop]

/-! ## Powers -/

theorem gfPow_add (x : Byte) (m n : Nat) : gfPow x (m + n) = gfMul (gfPow x m) (gfPow x n) := by
  induction n with
  | zero => exact (gfMul_one _).symm
  | succ n ih => rw [← Nat.add_assoc, gfPow, ih, gfMul_assoc, gfPow]

theorem gfSquare_gfPow (x : Byte) (n : Nat) : gfSquare (gfPow x n) = gfPow x (n + n) := (gfPow_add x n n).symm

theorem gfPow_one (x : Byte) : gfPow x 1 = x := one_gfMul x

/-- The product of squares that computes GFInv is the power 2 + 4 + 8 + 16 + 32 + 64 + 128 (R144, log entry 12). -/
theorem gfInv_eq_gfPow (a : Byte) : gfInv a = gfPow a 254 := by
  conv_lhs => rw [← gfPow_one a]
  simp only [gfInv, gfSquare_gfPow, ← gfPow_add]

/-! ## The inverse -/

/-- Every one of the 255 elements that are not 0 is checked. -/
theorem gfMul_gfInv {a : Byte} (ha : a ≠ 0) : gfMul a (gfInv a) = 1 := by
  revert a
  decide +kernel

theorem gfInv_gfMul {a : Byte} (ha : a ≠ 0) : gfMul (gfInv a) a = 1 := by
  rw [gfMul_comm, gfMul_gfInv ha]

theorem gfMul_gfInv_cancel {b : Byte} (hb : b ≠ 0) (a : Byte) : gfMul (gfMul a (gfInv b)) b = a := by
  rw [gfMul_assoc, gfInv_gfMul hb, gfMul_one]

theorem gfInv_gfMul_cancel {a : Byte} (ha : a ≠ 0) (b : Byte) : gfMul (gfInv a) (gfMul a b) = b := by
  rw [← gfMul_assoc, gfInv_gfMul ha, one_gfMul]

theorem gfMul_eq_one_iff {a b : Byte} (ha : a ≠ 0) : gfMul a b = 1 ↔ b = gfInv a := by
  refine ⟨fun h => ?_, fun h => h ▸ gfMul_gfInv ha⟩
  rw [← gfInv_gfMul_cancel ha b, h, gfMul_one]

theorem gfInv_ne_zero {a : Byte} (ha : a ≠ 0) : gfInv a ≠ 0 := by
  intro h
  have h1 := gfMul_gfInv ha
  rw [h, gfMul_zero] at h1
  exact absurd h1 (by decide)

theorem eq_zero_or_eq_zero_of_gfMul {a b : Byte} (h : gfMul a b = 0) : a = 0 ∨ b = 0 := by
  by_cases ha : a = 0
  · exact .inl ha
  · exact .inr (by rw [← gfInv_gfMul_cancel ha b, h, gfMul_zero])

end Sys2Proof.Machine
end

section
/-! SUPPORT. How the commands of field arithmetic end (41_field_arithmetic.md R150 to R155): the two checks that GFADD, GFSUB,
GFMUL and GFDIV share are followed once, in `fieldBinary`. -/

namespace Sys2Proof.Machine

theorem isElem_false_iff {v : Word} : isElem v = false ↔ 256 ≤ v.toNat := by
  rw [isElem, decide_eq_false_iff_not, Nat.not_lt]

theorem isElem_iff {v : Word} : isElem v = true ↔ v.toNat < 256 := decide_eq_true_iff

theorem truthWord_isElem (v : Word) : truthWord (isElem v) = if v.toNat < 256 then 1 else 0 := by
  simp only [truthWord, isElem, decide_eq_true_eq]

theorem zextByte_lowByte {v : Word} (h : v.toNat < 256) : zextByte (lowByte v) = v := by
  unfold zextByte lowByte
  bv_omega

/-- GFADD and GFSUB XOR the bytes; on elements that is the XOR of the words. -/
theorem zextByte_xor_lowByte {a b : Word} (ha : a.toNat < 256) (hb : b.toNat < 256) :
    zextByte (lowByte a ^^^ lowByte b) = a ^^^ b := by
  have h : zextByte (lowByte a ^^^ lowByte b) = zextByte (lowByte a) ^^^ zextByte (lowByte b) := BitVec.setWidth_xor
  rw [h, zextByte_lowByte ha, zextByte_lowByte hb]

theorem lowByte_ne_zero {v : Word} (h : v.toNat < 256) (h0 : v ≠ 0) : lowByte v ≠ 0 := by
  intro e
  rw [← zextByte_lowByte h, e] at h0
  exact h0 rfl

/-! ## How each command ends -/

section
variable {i : Instr} {s : State} {rd ra rb : RegNum} {f : Byte → Byte → Except Raise Byte}

theorem finish_fieldBinary_first (ha : 256 ≤ (s.readG ra).toNat) :
    finish i s (fieldBinary s rd ra rb f) = .next (s.faultEntry (encode i) (raise .invalidElement 0)) := by
  rw [fieldBinary, if_pos (isElem_false_iff.mpr ha), finish]

theorem finish_fieldBinary_second (ha : (s.readG ra).toNat < 256) (hb : 256 ≤ (s.readG rb).toNat) :
    finish i s (fieldBinary s rd ra rb f) = .next (s.faultEntry (encode i) (raise .invalidElement 1)) := by
  rw [fieldBinary, if_neg (ne_false_of_eq_true (isElem_iff.mpr ha)), if_pos (isElem_false_iff.mpr hb), finish]

theorem fieldBinary_elements (ha : (s.readG ra).toNat < 256) (hb : (s.readG rb).toNat < 256) :
    fieldBinary s rd ra rb f =
      (f (lowByte (s.readG ra)) (lowByte (s.readG rb))).map (fun v => s.writeG rd (zextByte v)) := by
  rw [fieldBinary, if_neg (ne_false_of_eq_true (isElem_iff.mpr ha)), if_neg (ne_false_of_eq_true (isElem_iff.mpr hb))]
  cases f (lowByte (s.readG ra)) (lowByte (s.readG rb)) <;> rfl

theorem finish_fieldBinary_ok {v : Byte} (ha : (s.readG ra).toNat < 256) (hb : (s.readG rb).toNat < 256)
    (hf : f (lowByte (s.readG ra)) (lowByte (s.readG rb)) = .ok v) :
    finish i s (fieldBinary s rd ra rb f) = .next (s.writeG rd (zextByte v)).complete := by
  rw [fieldBinary_elements ha hb, hf]
  rfl

theorem finish_fieldBinary_error {e : Raise} (ha : (s.readG ra).toNat < 256) (hb : (s.readG rb).toNat < 256)
    (hf : f (lowByte (s.readG ra)) (lowByte (s.readG rb)) = .error e) :
    finish i s (fieldBinary s rd ra rb f) = .next (s.faultEntry (encode i) e) := by
  rw [fieldBinary_elements ha hb, hf]
  rfl

theorem exec_gfinv_invalidElement (ha : 256 ≤ (s.readG ra).toNat) :
    exec (.gfinv rd ra) s = .next (s.faultEntry (encode (.gfinv rd ra)) (raise .invalidElement 0)) :=
  congrArg (finish (.gfinv rd ra) s) (if_pos (isElem_false_iff.mpr ha))

theorem exec_gfinv_divisionByZero (ha : s.readG ra = 0) :
    exec (.gfinv rd ra) s = .next (s.faultEntry (encode (.gfinv rd ra)) (raise .divisionByZero 0)) := by
  have he : isElem (s.readG ra) = true := by rw [ha]; rfl
  exact congrArg (finish (.gfinv rd ra) s) ((if_neg (ne_false_of_eq_true he)).trans (if_pos ha))

theorem exec_gfinv_inverse (ha : (s.readG ra).toNat < 256) (h0 : s.readG ra ≠ 0) :
    exec (.gfinv rd ra) s = .next (s.writeG rd (zextByte (gfInv (lowByte (s.readG ra))))).complete :=
  congrArg (finish (.gfinv rd ra) s) ((if_neg (ne_false_of_eq_true (isElem_iff.mpr ha))).trans (if_neg h0))

theorem exec_gfvalid : exec (.gfvalid rd ra) s = .next (s.writeG rd (truthWord (isElem (s.readG ra)))).complete := rfl

end

end Sys2Proof.Machine
end

section
/-! The obligations about field arithmetic (41_field_arithmetic.md), settled from the lemmas above. -/

open Sys2Proof Sys2Proof.Machine

/-- Settles O54: GFMul by `bytePoly_gfMul`, whose loop multiplies by X with `bytePoly_xtime`. -/
theorem gfmulIsPolynomialMultiplication : Obligations.GfmulIsPolynomialMultiplication := by
  unfold Obligations.GfmulIsPolynomialMultiplication
  intro P
  exact ⟨bytePoly_gfMul, fun a => ⟨xtime_eq_gfMul_two a, rfl⟩, fun a b h => bytePoly_injective h,
    fun b h => absurd ((zero_gfMul b).symm.trans h) (by decide)⟩

/-- Settles O55: what holds of polynomials holds of GFMul, and no product is 0 because elements have inverses. -/
theorem fieldLaws : Obligations.FieldLaws := by
  unfold Obligations.FieldLaws
  exact ⟨fun a => ⟨BitVec.xor_self, gfMul_zero a, gfMul_one a⟩, fun a => gfMul_gfInv, gfMul_comm, gfMul_assoc,
    gfMul_xor_right, fun a b => eq_zero_or_eq_zero_of_gfMul⟩

/-- Settles O56: multiplying by the inverse cancels (`gfMul_eq_one_iff`, `gfMul_gfInv_cancel`). -/
theorem inverseIsUnique : Obligations.InverseIsUnique := by
  unfold Obligations.InverseIsUnique
  exact ⟨fun a b => gfMul_eq_one_iff, fun a ha => ⟨gfInv_ne_zero ha, gfInv_eq_gfPow a⟩,
    fun a b hb => ⟨rfl, gfMul_gfInv_cancel hb a, zero_gfMul _, gfMul_gfInv hb⟩⟩

/-- Settles O35: the byte of an element that is not 0 is not 0, so it has one inverse. -/
theorem gfinvInvertsOrFaults : Obligations.GfinvInvertsOrFaults := by
  unfold Obligations.GfinvInvertsOrFaults
  intro rd ra s a word
  refine ⟨decode_encode (i := .gfinv rd ra) rfl, exec_gfinv_invalidElement, exec_gfinv_divisionByZero, fun ha h0 => ?_⟩
  have hbyte : lowByte a ≠ 0 := lowByte_ne_zero ha h0
  exact ⟨gfInv (lowByte a), gfMul_gfInv hbyte, fun u => (gfMul_eq_one_iff hbyte).mp, exec_gfinv_inverse ha h0⟩

/-- Settles O36: the two checks of `fieldBinary`, then the divisor's, whose byte is 0 only if the word is. -/
theorem gfdivDividesOrFaults : Obligations.GfdivDividesOrFaults := by
  unfold Obligations.GfdivDividesOrFaults
  intro rd ra rb s a b word
  refine ⟨decode_encode (i := .gfdiv rd ra rb) rfl, finish_fieldBinary_first, finish_fieldBinary_second,
    fun ha h0 => ?_, fun ha hb h0 => ?_⟩
  · have hb : b.toNat < 256 := by rw [h0]; decide
    have hbyte : lowByte b = 0 := by rw [h0]; rfl
    exact finish_fieldBinary_error ha hb (if_pos hbyte)
  · have hbyte : lowByte b ≠ 0 := lowByte_ne_zero hb h0
    exact ⟨_, rfl, gfMul_gfInv_cancel hbyte _, finish_fieldBinary_ok ha hb (if_neg hbyte)⟩

/-- Settles O33: both commands are `fieldBinary` with XOR. -/
theorem gfaddAndGfsubAreXor : Obligations.GfaddAndGfsubAreXor := by
  unfold Obligations.GfaddAndGfsubAreXor
  intro rd ra rb s a b add sub
  refine ⟨decode_encode (i := .gfadd rd ra rb) rfl, decode_encode (i := .gfsub rd ra rb) rfl,
    fun ha => ⟨finish_fieldBinary_first ha, finish_fieldBinary_first ha⟩,
    fun ha hb => ⟨finish_fieldBinary_second ha hb, finish_fieldBinary_second ha hb⟩, fun ha hb => ?_⟩
  rw [← zextByte_xor_lowByte ha hb]
  exact ⟨finish_fieldBinary_ok ha hb rfl, finish_fieldBinary_ok ha hb rfl⟩

/-- Settles O34: `fieldBinary` with GFMul. -/
theorem gfmulMultiplies : Obligations.GfmulMultiplies := by
  unfold Obligations.GfmulMultiplies
  exact fun rd ra rb s => ⟨decode_encode (i := .gfmul rd ra rb) rfl, finish_fieldBinary_first, finish_fieldBinary_second,
    fun ha hb => finish_fieldBinary_ok ha hb rfl⟩

/-- Settles O37: `exec_gfvalid`, for GFVALID has no check. -/
theorem gfvalidTestsTheElement : Obligations.GfvalidTestsTheElement := by
  unfold Obligations.GfvalidTestsTheElement
  intro rd ra s
  rw [← truthWord_isElem]
  exact ⟨decode_encode (i := .gfvalid rd ra) rfl, exec_gfvalid⟩

end

section
/-! SUPPORT. The value of a polynomial (42_polynomial_eval.md R170): multiplying a sum of terms by the point raises every
exponent by one, which is one round of Horner's loop. -/

namespace Sys2Proof.Machine

theorem polySum_gfMul (x : Byte) (i : Nat) (cs : List Byte) : gfMul (polySum x i cs) x = polySum x (i + 1) cs := by
  induction cs generalizing i with
  | nil => exact zero_gfMul x
  | cons c cs ih => rw [polySum, gfMul_xor_left, ih, gfMul_assoc, polySum, gfPow]

theorem horner_eq_polySum (cs : List Byte) (x : Byte) : horner cs x = polySum x 0 cs := by
  induction cs with
  | nil => rfl
  | cons c cs ih => rw [horner, ih, polySum_gfMul, polySum, gfPow, gfMul_one, BitVec.xor_comm]

@[simp] theorem horner_cons_zero (c : Byte) (cs : List Byte) : horner (c :: cs) 0 = c := by
  rw [horner, gfMul_zero]
  exact BitVec.zero_xor

@[simp] theorem horner_singleton (c x : Byte) : horner [c] x = c := by
  rw [horner, horner, zero_gfMul]
  exact BitVec.zero_xor

end Sys2Proof.Machine
end

section
/-! SUPPORT. How PEVAL ends (42_polynomial_eval.md R171): the count and range checks it shares with PVALID, the search for
the lowest coefficient that is no element, and one equation for each way the command ends. -/

namespace Sys2Proof.Machine

/-! ## The checks of a coefficient array -/

section
variable {base : Word} {n : Int}

theorem coeffChecks_invalidArgument (hn : n ≤ 0 ∨ 256 < n) : coeffChecks base n = some (raise .invalidArgument 0) :=
  if_pos hn

theorem coeffChecks_addressFault (h0 : 0 < n) (h256 : n ≤ 256) (hr : (Config.spmWords : Int) < base.toNat + n) :
    coeffChecks base n = some (raise .addressFault 0) := by
  rw [coeffChecks, if_neg (by omega), if_pos (rangeOk_false.mpr (by omega))]

theorem coeffChecks_none (h0 : 0 < n) (h256 : n ≤ 256) (hr : base.toNat + n ≤ (Config.spmWords : Int)) :
    coeffChecks base n = none := by
  rw [coeffChecks, if_neg (by omega), if_neg (ne_false_of_eq_true (rangeOk_iff.mpr (by omega)))]

end

theorem firstInvalid_memRead_eq_some {s : State} {a n j : Nat} :
    firstInvalid (s.memRead a n) = some j ↔
      j < n ∧ 256 ≤ (s.readSpm (a + j)).toNat ∧ ∀ k < j, (s.readSpm (a + k)).toNat < 256 := by
  simp [firstInvalid, State.memRead, List.findIdx?_eq_some_iff_getElem, isElem_false_iff, and_left_comm]

theorem firstInvalid_memRead_eq_none {s : State} {a n : Nat} :
    firstInvalid (s.memRead a n) = none ↔ ∀ j < n, (s.readSpm (a + j)).toNat < 256 := by
  simp [firstInvalid, State.memRead, isElem_iff]

/-! ## How the command ends -/

section
variable {rd ra rb rc : RegNum} {s : State}

theorem exec_peval_checks {f : Raise} (hc : coeffChecks (s.readG ra) (s.readG rb).toInt = some f) :
    exec (.peval rd ra rb rc) s = .next (s.faultEntry (encode (.peval rd ra rb rc)) f) := by
  simp only [exec, execPeval, sint, hc, finish]

theorem exec_peval_point (hc : coeffChecks (s.readG ra) (s.readG rb).toInt = none) (hx : 256 ≤ (s.readG rc).toNat) :
    exec (.peval rd ra rb rc) s =
      .next (s.faultEntry (encode (.peval rd ra rb rc)) (raise .invalidElement 0xFFFFFFFF)) := by
  simp only [exec, execPeval, sint, hc, if_pos (isElem_false_iff.mpr hx), finish]

theorem exec_peval_coefficient {j : Nat} (hc : coeffChecks (s.readG ra) (s.readG rb).toInt = none)
    (hx : (s.readG rc).toNat < 256)
    (hj : firstInvalid (s.memRead (s.readG ra).toNat (s.readG rb).toInt.toNat) = some j) :
    exec (.peval rd ra rb rc) s =
      .next (s.faultEntry (encode (.peval rd ra rb rc)) (raise .invalidElement (indexWord j))) := by
  simp only [exec, execPeval, sint, hc, if_neg (ne_false_of_eq_true (isElem_iff.mpr hx)), hj, finish]

theorem exec_peval_value (hc : coeffChecks (s.readG ra) (s.readG rb).toInt = none) (hx : (s.readG rc).toNat < 256)
    (hj : firstInvalid (s.memRead (s.readG ra).toNat (s.readG rb).toInt.toNat) = none) :
    exec (.peval rd ra rb rc) s =
      .next (s.writeG rd (zextByte (horner ((s.memRead (s.readG ra).toNat (s.readG rb).toInt.toNat).map lowByte)
        (lowByte (s.readG rc))))).complete := by
  simp only [exec, execPeval, sint, hc, if_neg (ne_false_of_eq_true (isElem_iff.mpr hx)), hj, finish]

end

end Sys2Proof.Machine
end

section
/-! The obligations about polynomial evaluation (42_polynomial_eval.md), settled from the lemmas above. -/

open Sys2Proof Sys2Proof.Machine

/-- Settles O57: Horner's loop gathers the terms one exponent at a time (`horner_eq_polySum`). -/
theorem hornerIsThePolynomialsValue : Obligations.HornerIsThePolynomialsValue := by
  unfold Obligations.HornerIsThePolynomialsValue
  exact ⟨horner_eq_polySum, horner_cons_zero, horner_singleton⟩

/-- Settles O38: once the count and the range are right, the checks pass, and what is left turns on the point and on the
lowest coefficient that is no element. -/
theorem pevalEvaluatesOrFaults : Obligations.PevalEvaluatesOrFaults := by
  unfold Obligations.PevalEvaluatesOrFaults
  intro rd ra rb rc s base n x c word
  refine ⟨decode_encode (i := .peval rd ra rb rc) rfl, fun hn => exec_peval_checks (coeffChecks_invalidArgument hn),
    fun h0 h256 => ⟨fun hr => exec_peval_checks (coeffChecks_addressFault h0 h256 hr), fun hr hx => ?_, fun hr hx => ?_⟩⟩
  · exact exec_peval_point (coeffChecks_none h0 h256 hr) hx
  have hc : coeffChecks (s.readG ra) n = none := coeffChecks_none h0 h256 hr
  refine ⟨fun j hj hbad hlow => ?_, fun hall => ?_⟩
  · have hfirst : firstInvalid (s.memRead base n.toNat) = some j :=
      firstInvalid_memRead_eq_some.mpr ⟨by omega, hbad, hlow⟩
    exact exec_peval_coefficient hc hx hfirst
  · have hnone : firstInvalid (s.memRead base n.toNat) = none :=
      firstInvalid_memRead_eq_none.mpr fun j hj => hall j (by omega)
    have hbytes : (s.memRead base n.toNat).map lowByte = (List.range n.toNat).map (fun j => (c j).setWidth 8) :=
      List.map_map
    rw [← hbytes]
    exact exec_peval_value hc hx hnone

end

section
/-! SUPPORT. The bytes as a field of Mathlib (41_field_arithmetic.md R147): XOR is its addition and GFMul its
multiplication. A copy of the bytes in a field carries the library's polynomials over to the model. -/

namespace Sys2Proof.Machine

/-- `e` names the elements of a field by bytes, its sums by XOR and its products by GFMul. -/
structure FieldCopy {F : Type} [Field F] (e : Byte ≃ F) : Prop where
  xor : ∀ a b, e (a ^^^ b) = e a + e b
  gfMul : ∀ a b, e (gfMul a b) = e a * e b

@[simp] theorem gfInv_zero : gfInv 0 = 0 := by
  rw [gfInv_eq_gfPow, gfPow, gfMul_zero]

/-- The bytes as a field, by the laws of R147. -/
@[reducible] def byteField : Field Byte :=
  @Field.ofMinimalAxioms Byte ⟨(· ^^^ ·)⟩ ⟨gfMul⟩ ⟨id⟩ ⟨gfInv⟩ ⟨0⟩ ⟨1⟩ BitVec.xor_assoc (fun _ => BitVec.zero_xor)
    (fun _ => BitVec.xor_self) gfMul_assoc gfMul_comm one_gfMul (fun _ => gfMul_gfInv) gfInv_zero gfMul_xor_right
    ⟨0, 1, by decide⟩

/-- A field for the library's lemmas; that it is `byteField` need not be known, for its sum and product would hide those
of `BitVec`. -/
theorem exists_fieldCopy : ∃ (F : Type) (_ : Field F) (e : Byte ≃ F), FieldCopy e :=
  ⟨Byte, byteField, Equiv.refl Byte, @FieldCopy.mk Byte byteField _ (fun _ _ => rfl) (fun _ _ => rfl)⟩

namespace FieldCopy

variable {F : Type} [Field F] {e : Byte ≃ F} (he : FieldCopy e)
include he

theorem map_zero : e 0 = 0 := by
  simpa using he.xor 0 0

theorem map_one : e 1 = 1 := by
  have hne : e 1 ≠ 0 := by
    rw [← he.map_zero]
    exact e.injective.ne (by decide)
  exact (mul_eq_left₀ hne).mp (by rw [← he.gfMul, gfMul_one])

/-- XOR is subtraction too. -/
theorem map_xor_sub (a b : Byte) : e (a ^^^ b) = e a - e b :=
  eq_sub_of_add_eq (by rw [← he.xor, BitVec.xor_assoc, BitVec.xor_self, BitVec.xor_zero])

theorem map_gfInv (a : Byte) : e (gfInv a) = (e a)⁻¹ := by
  by_cases ha : a = 0
  · rw [ha, gfInv_zero, he.map_zero, inv_zero]
  · exact eq_inv_of_mul_eq_one_right (by rw [← he.gfMul, gfMul_gfInv ha, he.map_one])

theorem map_gfDiv (a b : Byte) : e (gfDiv a b) = e a / e b := by
  rw [gfDiv, he.gfMul, he.map_gfInv, div_eq_mul_inv]

end FieldCopy

end Sys2Proof.Machine
end

section
/-! SUPPORT. A list of coefficients as a polynomial over a copy of the bytes (42_polynomial_eval.md R170). -/

namespace Sys2Proof.Machine

open Polynomial

variable {F : Type} [Field F] {e : Byte ≃ F}

/-- The polynomial with the coefficients `cs`, c_0 first. -/
noncomputable def coeffPoly (e : Byte ≃ F) : List Byte → F[X]
  | [] => 0
  | c :: cs => coeffPoly e cs * X + C (e c)

theorem eval_coeffPoly (he : FieldCopy e) (cs : List Byte) (x : Byte) :
    (coeffPoly e cs).eval (e x) = e (horner cs x) := by
  induction cs with
  | nil => rw [coeffPoly, horner, eval_zero, he.map_zero]
  | cons c cs ih => simp [coeffPoly, horner, he.xor, he.gfMul, ih]

theorem coeff_coeffPoly (he : FieldCopy e) (cs : List Byte) (k : Nat) : (coeffPoly e cs).coeff k = e (cs.getD k 0) := by
  induction cs generalizing k with
  | nil => rw [coeffPoly, coeff_zero, List.getD_nil, he.map_zero]
  | cons c cs ih => cases k <;> simp [coeffPoly, ih, coeff_C]

theorem degree_coeffPoly_lt (he : FieldCopy e) (cs : List Byte) : (coeffPoly e cs).degree < cs.length := by
  refine (degree_lt_iff_coeff_zero _ _).mpr fun k hk => ?_
  rw [coeff_coeffPoly he, List.getD_eq_default _ _ hk, he.map_zero]

theorem eq_of_coeffPoly_eq (he : FieldCopy e) {cs ds : List Byte} (hlen : cs.length = ds.length)
    (h : coeffPoly e cs = coeffPoly e ds) : cs = ds := by
  refine List.ext_getElem hlen fun k hc hd => e.injective ?_
  have hk := congrArg (fun p => p.coeff k) h
  simpa only [coeff_coeffPoly he, List.getD_eq_getElem _ _ hc, List.getD_eq_getElem _ _ hd] using hk

theorem exists_coeffPoly_eq (he : FieldCopy e) {p : F[X]} {n : Nat} (hp : p.degree < n) :
    ∃ cs : List Byte, cs.length = n ∧ coeffPoly e cs = p := by
  refine ⟨(List.range n).map fun k => e.symm (p.coeff k), by simp, ext fun k => ?_⟩
  rw [coeff_coeffPoly he]
  by_cases hk : k < n
  · simp [hk]
  · rw [List.getD_eq_default _ _ (by simpa using hk), he.map_zero,
      (degree_lt_iff_coeff_zero _ _).mp hp k (Nat.not_lt.mp hk)]

end Sys2Proof.Machine
end

section
/-! SUPPORT. Lagrange0 as the value at 0 of Mathlib's interpolating polynomial (43_lagrange.md R180): the two loops of R180
are its sum and its products. -/

namespace Sys2Proof.Machine

open Polynomial

variable {F : Type} [Field F] {e : Byte ≃ F}

/-- The x of point `i`, in the field. -/
def nodeX (e : Byte ≃ F) (points : List (Byte × Byte)) (i : Nat) : F := e ((points.map Prod.fst).getD i 0)

/-- The y of point `i`, in the field. -/
def nodeY (e : Byte ≃ F) (points : List (Byte × Byte)) (i : Nat) : F := e ((points.map Prod.snd).getD i 0)

/-- The polynomial of degree below n through n points. -/
noncomputable def interpolant (e : Byte ≃ F) (points : List (Byte × Byte)) : F[X] :=
  Lagrange.interpolate (Finset.range points.length) (nodeX e points) (nodeY e points)

/-! ## The loops of R180 -/

/-- The factor of R180 is the library's, taken at 0. -/
theorem map_basisFactor (he : FieldCopy e) (xi xj : Byte) :
    e (gfDiv xj (xj ^^^ xi)) = (Lagrange.basisDivisor (e xi) (e xj)).eval 0 := by
  rw [he.map_gfDiv, he.map_xor_sub, Lagrange.basisDivisor, ← neg_sub (e xj), inv_neg]
  simp [div_eq_inv_mul]

theorem map_basisLoop (he : FieldCopy e) (i j : Nat) (xi basis : Byte) (xs : List Byte) :
    e (basisLoop i xi j basis xs) = e basis * ∏ k ∈ Finset.range xs.length,
      if j + k = i then 1 else (Lagrange.basisDivisor (e xi) (e (xs.getD k 0))).eval 0 := by
  induction xs generalizing j basis with
  | nil => simp [basisLoop]
  | cons x xs ih =>
    rw [basisLoop, ih, List.length_cons, Finset.prod_range_succ', mul_comm (∏ k ∈ _, _), ← mul_assoc]
    congr 1
    · by_cases h : j = i <;> simp [h, he.gfMul, map_basisFactor he]
    · simp [Nat.add_assoc, Nat.add_comm 1]

theorem map_lagrangeLoop (he : FieldCopy e) (all : List Byte) (i : Nat) (result : Byte) (points : List (Byte × Byte)) :
    e (lagrangeLoop all i result points) = e result + ∑ k ∈ Finset.range points.length,
      nodeY e points k * e (basisLoop (i + k) ((points.map Prod.fst).getD k 0) 0 1 all) := by
  induction points generalizing i result with
  | nil => simp [lagrangeLoop]
  | cons p points ih =>
    rw [lagrangeLoop, ih, List.length_cons, Finset.sum_range_succ', he.xor, he.gfMul, add_comm (∑ k ∈ _, _), ← add_assoc]
    simp [nodeY, Nat.add_assoc, Nat.add_comm 1]

/-- Lagrange0 is the value at 0 of the interpolating polynomial. -/
theorem map_lagrange0 (he : FieldCopy e) (points : List (Byte × Byte)) :
    e (lagrange0 points) = (interpolant e points).eval 0 := by
  rw [lagrange0, map_lagrangeLoop he, he.map_zero, zero_add, interpolant, Lagrange.interpolate_apply, eval_finsetSum]
  refine Finset.sum_congr rfl fun i _ => ?_
  rw [eval_mul, eval_C, map_basisLoop he, he.map_one, one_mul, List.length_map, Lagrange.basis, eval_prod]
  simp only [zero_add]
  rw [← Finset.prod_erase (a := i) _ (by simp)]
  exact congrArg _ (Finset.prod_congr rfl fun j hj => if_neg (Finset.ne_of_mem_erase hj))

/-! ## The polynomial through the points -/

omit [Field F] in
/-- The points stand at distinct places of the field. -/
theorem nodeX_injOn {points : List (Byte × Byte)} (hx : (points.map Prod.fst).Nodup) :
    Set.InjOn (nodeX e points) (Finset.range points.length) := by
  intro i hi j hj h
  have hi' : i < (points.map Prod.fst).length := by simpa using hi
  have hj' : j < (points.map Prod.fst).length := by simpa using hj
  have hxs := e.injective h
  rw [List.getD_eq_getElem _ _ hi', List.getD_eq_getElem _ _ hj'] at hxs
  exact (hx.getElem_inj_iff).mp hxs

theorem degree_interpolant_lt {points : List (Byte × Byte)} (hx : (points.map Prod.fst).Nodup) :
    (interpolant e points).degree < points.length := by
  have h := Lagrange.degree_interpolate_lt (nodeY e points) (nodeX_injOn (e := e) hx)
  rwa [Finset.card_range] at h

/-- Coefficients, no more than the points, whose value at each x is its y are those of the interpolating polynomial. -/
theorem coeffPoly_eq_interpolant_iff (he : FieldCopy e) {points : List (Byte × Byte)} {cs : List Byte}
    (hx : (points.map Prod.fst).Nodup) (hlen : cs.length ≤ points.length) :
    coeffPoly e cs = interpolant e points ↔ ∀ p ∈ points, horner cs p.1 = p.2 := by
  have hdeg : (coeffPoly e cs).degree < (Finset.range points.length).card := by
    rw [Finset.card_range]
    exact (degree_coeffPoly_lt he cs).trans_le (by exact_mod_cast hlen)
  rw [interpolant, ← Lagrange.eq_interpolate_iff (nodeY e points) (nodeX_injOn hx), and_iff_right hdeg,
    List.forall_mem_iff_getElem]
  simp +contextual [nodeX, nodeY, eval_coeffPoly he]

/-! ## What is left in the bytes -/

theorem existsUnique_coefficients {points : List (Byte × Byte)} (hx : (points.map Prod.fst).Nodup) :
    ∃! cs : List Byte, cs.length = points.length ∧ ∀ p ∈ points, horner cs p.1 = p.2 := by
  obtain ⟨F, _, e, he⟩ := exists_fieldCopy
  obtain ⟨cs, hlen, hcs⟩ := exists_coeffPoly_eq he (degree_interpolant_lt (e := e) hx)
  refine ⟨cs, ⟨hlen, (coeffPoly_eq_interpolant_iff he hx hlen.le).mp hcs⟩, fun ds ⟨hd, hds⟩ => ?_⟩
  have hpoly : coeffPoly e ds = interpolant e points := (coeffPoly_eq_interpolant_iff he hx hd.le).mpr hds
  exact eq_of_coeffPoly_eq he (hd.trans hlen.symm) (hpoly.trans hcs.symm)

/-- Lagrange0 needs as many points as there are coefficients, or more (R182). -/
theorem lagrange0_eq_horner_zero {points : List (Byte × Byte)} {cs : List Byte} (hx : (points.map Prod.fst).Nodup)
    (hlen : cs.length ≤ points.length) (h : ∀ p ∈ points, horner cs p.1 = p.2) : lagrange0 points = horner cs 0 := by
  obtain ⟨F, _, e, he⟩ := exists_fieldCopy
  apply e.injective
  calc e (lagrange0 points) = (interpolant e points).eval 0 := map_lagrange0 he points
    _ = (coeffPoly e cs).eval 0 := by rw [(coeffPoly_eq_interpolant_iff he hx hlen).mpr h]
    _ = e (horner cs 0) := by rw [← eval_coeffPoly he, he.map_zero]

theorem lagrange0_perm {points points' : List (Byte × Byte)} (hx : (points.map Prod.fst).Nodup)
    (hp : points.Perm points') : lagrange0 points = lagrange0 points' := by
  obtain ⟨cs, ⟨hlen, h⟩, -⟩ := existsUnique_coefficients hx
  rw [lagrange0_eq_horner_zero hx hlen.le h,
    lagrange0_eq_horner_zero ((hp.map _).nodup_iff.mp hx) (hlen.trans hp.length_eq).le
      fun p hmem => h p (hp.mem_iff.mpr hmem)]

theorem lagrange0_singleton (x y : Byte) : lagrange0 [(x, y)] = y := by
  have h : lagrange0 [(x, y)] = horner [y] 0 := lagrange0_eq_horner_zero (by simp) le_rfl (by simp)
  rw [h, horner_singleton]

theorem lagrange0_sharesOf {cs xs : List Byte} (hx : xs.Nodup) (hlen : cs.length ≤ xs.length) :
    lagrange0 (sharesOf cs xs) = horner cs 0 := by
  have hfst : (sharesOf cs xs).map Prod.fst = xs := by
    rw [sharesOf, List.map_map]
    exact List.map_id xs
  refine lagrange0_eq_horner_zero (by rwa [hfst]) (by rwa [sharesOf, List.length_map]) fun p hp => ?_
  obtain ⟨x, -, rfl⟩ := List.mem_map.mp hp
  rfl

end Sys2Proof.Machine
end

section
/-! SUPPORT. How LAGR ends (43_lagrange.md R181): the searches for the lowest point that is no element and for the lowest x
that stands before, and one equation for each way the command ends. -/

namespace Sys2Proof.Machine

/-! ## The searches -/

theorem zip_memRead (s : State) (a b n : Nat) :
    (s.memRead a n).zip (s.memRead b n) = (List.range n).map fun j => (s.readSpm (a + j), s.readSpm (b + j)) :=
  List.zip_map'

theorem pointBytes_memRead (s : State) (a b n : Nat) : pointBytes (s.memRead a n) (s.memRead b n) =
    (List.range n).map fun j => ((s.readSpm (a + j)).setWidth 8, (s.readSpm (b + j)).setWidth 8) := by
  rw [pointBytes, List.zip_map, zip_memRead, List.map_map]
  rfl

theorem firstInvalidPoint_memRead_eq_some {s : State} {a b n j : Nat} :
    firstInvalidPoint ((s.memRead a n).zip (s.memRead b n)) = some j ↔
      j < n ∧ (256 ≤ (s.readSpm (a + j)).toNat ∨ 256 ≤ (s.readSpm (b + j)).toNat) ∧
        ∀ k < j, (s.readSpm (a + k)).toNat < 256 ∧ (s.readSpm (b + k)).toNat < 256 := by
  simp [firstInvalidPoint, zip_memRead, List.findIdx?_eq_some_iff_getElem, isElem_false_iff,
    and_left_comm (b := _ < n)]

theorem firstInvalidPoint_memRead_eq_none {s : State} {a b n : Nat} :
    firstInvalidPoint ((s.memRead a n).zip (s.memRead b n)) = none ↔
      ∀ j < n, (s.readSpm (a + j)).toNat < 256 ∧ (s.readSpm (b + j)).toNat < 256 := by
  simp [firstInvalidPoint, zip_memRead, isElem_iff]

/-- The list of words seen holds `x 0` to `x (j0 - 1)`, and the search finds the first repetition from `j0` on. -/
theorem firstDuplicate_map_range' {x : Nat → Word} {n j0 : Nat} {seen : List Word}
    (hseen : ∀ w, w ∈ seen ↔ ∃ i < j0, w = x i) :
    firstDuplicate seen j0 ((List.range' j0 n).map x) =
      (List.range' j0 n).find? fun j => decide (∃ i < j, x j = x i) := by
  induction n generalizing j0 seen with
  | zero => rfl
  | succ n ih =>
    have hnext : ∀ w, w ∈ x j0 :: seen ↔ ∃ i < j0 + 1, w = x i := by
      intro w
      rw [List.mem_cons, hseen, Nat.exists_lt_succ_right, or_comm]
    rw [List.range'_succ, List.map_cons, firstDuplicate, ih hnext, List.find?_cons]
    by_cases h : ∃ i < j0, x j0 = x i <;> simp [hseen, h]

theorem firstDuplicate_map_range (x : Nat → Word) (n : Nat) :
    firstDuplicate [] 0 ((List.range n).map x) = (List.range n).find? fun j => decide (∃ i < j, x j = x i) := by
  rw [List.range_eq_range']
  exact firstDuplicate_map_range' (by simp)

theorem firstDuplicate_map_range_eq_some {x : Nat → Word} {n j : Nat} :
    firstDuplicate [] 0 ((List.range n).map x) = some j ↔
      j < n ∧ (∃ i < j, x j = x i) ∧ ∀ k < j, ∀ i < k, x k ≠ x i := by
  simp [firstDuplicate_map_range, List.find?_range_eq_some, and_left_comm]

theorem firstDuplicate_map_range_eq_none {x : Nat → Word} {n : Nat} :
    firstDuplicate [] 0 ((List.range n).map x) = none ↔ ∀ j < n, ∀ i < j, x j ≠ x i := by
  simp [firstDuplicate_map_range]

/-! ## What is left once the counts and the ranges are right -/

/-- The last two checks of R181 and the result, over the words of the two arrays. -/
def lagrPoints (rd : RegNum) (s : State) (xs ys : List Word) : Except Raise State :=
  match firstInvalidPoint (xs.zip ys) with
  | some i => .error (raise .invalidElement (indexWord i))
  | none =>
    match firstDuplicate [] 0 xs with
    | some j => .error (raise .duplicateXCoordinate (indexWord j))
    | none => .ok (s.writeG rd (zextByte (lagrange0 (pointBytes xs ys))))

section
variable {rd : RegNum} {s : State} {xs ys : List Word}

theorem lagrPoints_invalidElement {i : Nat} (hi : firstInvalidPoint (xs.zip ys) = some i) :
    lagrPoints rd s xs ys = .error (raise .invalidElement (indexWord i)) := by
  rw [lagrPoints, hi]

variable (hi : firstInvalidPoint (xs.zip ys) = none)
include hi

theorem lagrPoints_duplicate {j : Nat} (hj : firstDuplicate [] 0 xs = some j) :
    lagrPoints rd s xs ys = .error (raise .duplicateXCoordinate (indexWord j)) := by
  rw [lagrPoints, hi, hj]

theorem lagrPoints_value (hj : firstDuplicate [] 0 xs = none) :
    lagrPoints rd s xs ys = .ok (s.writeG rd (zextByte (lagrange0 (pointBytes xs ys)))) := by
  rw [lagrPoints, hi, hj]

end

/-! ## How the command ends -/

section
variable {rd ra rb rc re : RegNum} {s : State} {n : Nat}

theorem exec_lagr_invalidArgument (h : (s.readG rb).toInt < 0 ∨ (s.readG re).toInt < 0) :
    exec (.lagr rd ra rb rc re) s =
      .next (s.faultEntry (encode (.lagr rd ra rb rc re)) (raise .invalidArgument 0)) :=
  congrArg (finish (.lagr rd ra rb rc re) s) (if_pos h)

theorem exec_lagr_emptyInput (hx : 0 ≤ (s.readG rb).toInt) (hy : 0 ≤ (s.readG re).toInt)
    (h : (s.readG rb).toInt = 0 ∨ (s.readG re).toInt = 0 ∨ (s.readG rb).toInt ≠ (s.readG re).toInt) :
    exec (.lagr rd ra rb rc re) s = .next (s.faultEntry (encode (.lagr rd ra rb rc re)) (raise .emptyInput 0)) :=
  congrArg (finish (.lagr rd ra rb rc re) s) ((if_neg (by simp only [sint]; omega)).trans (if_pos h))

variable (hn : 0 < n) (hx : (s.readG rb).toInt = n) (hy : (s.readG re).toInt = n)
include hn hx hy

theorem exec_lagr_ranges : exec (.lagr rd ra rb rc re) s = finish (.lagr rd ra rb rc re) s
    (if rangeOk (s.readG ra) n = false then .error (raise .addressFault 0)
    else if rangeOk (s.readG rc) n = false then .error (raise .addressFault 0)
    else lagrPoints rd s (s.memRead (s.readG ra).toNat n) (s.memRead (s.readG rc).toNat n)) := by
  simp only [exec, execLagr, sint, hx, hy, Int.toNat_natCast]
  rw [if_neg (by omega), if_neg (by omega)]
  rfl

theorem exec_lagr_addressFault
    (hr : Config.spmWords < (s.readG ra).toNat + n ∨ Config.spmWords < (s.readG rc).toNat + n) :
    exec (.lagr rd ra rb rc re) s = .next (s.faultEntry (encode (.lagr rd ra rb rc re)) (raise .addressFault 0)) := by
  rw [exec_lagr_ranges hn hx hy]
  rcases hr with hr | hr
  · rw [if_pos (rangeOk_false.mpr hr), finish]
  · rw [if_pos (rangeOk_false.mpr hr), ite_self, finish]

theorem exec_lagr_points (hrx : (s.readG ra).toNat + n ≤ Config.spmWords)
    (hry : (s.readG rc).toNat + n ≤ Config.spmWords) :
    exec (.lagr rd ra rb rc re) s = finish (.lagr rd ra rb rc re) s
      (lagrPoints rd s (s.memRead (s.readG ra).toNat n) (s.memRead (s.readG rc).toNat n)) := by
  rw [exec_lagr_ranges hn hx hy, if_neg (ne_false_of_eq_true (rangeOk_iff.mpr hrx)),
    if_neg (ne_false_of_eq_true (rangeOk_iff.mpr hry))]

end

end Sys2Proof.Machine
end

section
/-! The obligations about interpolation at zero (43_lagrange.md), settled from the lemmas above. -/

open Sys2Proof Sys2Proof.Machine

/-- Settles O59: over a copy of the bytes in a field, both loops of R180 compute the value at 0 of the library's
interpolating polynomial (`map_lagrange0`), whose coefficients are the ones (`coeffPoly_eq_interpolant_iff`). -/
theorem lagrangeIsTheUniquePolynomialAtZero : Obligations.LagrangeIsTheUniquePolynomialAtZero := by
  unfold Obligations.LagrangeIsTheUniquePolynomialAtZero
  exact ⟨fun points _ hx => existsUnique_coefficients hx,
    fun points cs _ hx hlen h => lagrange0_eq_horner_zero hx hlen.le h, lagrange0_singleton,
    fun points points' hx hp => lagrange0_perm hx hp⟩

/-- Settles O58: K coefficients are those of the interpolating polynomial of any n ≥ K points (`lagrange0_sharesOf`). -/
theorem enoughPointsGiveTheConstantTerm : Obligations.EnoughPointsGiveTheConstantTerm := by
  unfold Obligations.EnoughPointsGiveTheConstantTerm
  refine ⟨fun cs xs hcs hx hlen => ?_, by decide +kernel⟩
  obtain ⟨c, cs, rfl⟩ := List.exists_cons_of_ne_nil hcs
  rw [lagrange0_sharesOf hx hlen, horner_cons_zero, List.headD_cons]

/-- Settles O40: once the counts and the ranges are right, what is left turns on the lowest point that is no element, then
on the lowest x that stands before. -/
theorem lagrInterpolatesOrFaults : Obligations.LagrInterpolatesOrFaults := by
  unfold Obligations.LagrInterpolatesOrFaults
  intro rd ra rb rc re s xb nx yb ny x y word
  refine ⟨decode_encode (i := .lagr rd ra rb rc re) rfl, exec_lagr_invalidArgument, exec_lagr_emptyInput,
    fun h0 heq hr => ?_, fun h0 heq hrx hry => ?_⟩
  · exact exec_lagr_addressFault (n := nx.toNat) (by omega) (by omega) (by omega) (by omega)
  have hexec : exec (.lagr rd ra rb rc re) s = finish (.lagr rd ra rb rc re) s
      (lagrPoints rd s (s.memRead xb nx.toNat) (s.memRead yb nx.toNat)) :=
    exec_lagr_points (by omega) (by omega) (by omega) (by omega) (by omega)
  refine ⟨fun j hj hbad hlow => ?_, fun hall => ?_⟩
  · rw [hexec, lagrPoints_invalidElement (firstInvalidPoint_memRead_eq_some.mpr ⟨by omega, hbad, hlow⟩)]
    rfl
  have hvalid : firstInvalidPoint ((s.memRead xb nx.toNat).zip (s.memRead yb nx.toNat)) = none :=
    firstInvalidPoint_memRead_eq_none.mpr fun j hj => hall j (by omega)
  refine ⟨fun j hj hdup hlow => ?_, fun hdistinct => ?_⟩
  · rw [hexec, lagrPoints_duplicate hvalid (firstDuplicate_map_range_eq_some.mpr ⟨by omega, hdup, hlow⟩)]
    rfl
  · rw [hexec, lagrPoints_value hvalid (firstDuplicate_map_range_eq_none.mpr fun j hj => hdistinct j (by omega)),
      pointBytes_memRead]
    rfl

end

section
/-! SUPPORT. The entropy source byte by byte and the pool index by index (44_csprng.md R190 to R194): what `n` draws, `Mix()`
and `NextByte()` give, as values of the state they start from. -/

namespace Sys2Proof.Machine

/-! ## Draws -/

/-- The byte number `j`, counted from 0, that the entropy source delivers next: one it was told to deliver, then a free
value (R190; log entry 5). -/
def State.sourceByte (s : State) (j : Nat) : Byte :=
  if h : j < s.entropy.length then s.entropy[j] else Config.entropyByte (s.drawn + j)

/-- The source after `n` draws delivers the same bytes, `n` places on. -/
theorem State.sourceByte_of_drawn {s t : State} {n : Nat} (he : t.entropy = s.entropy.drop n)
    (hd : t.drawn = s.drawn + n) (j : Nat) : t.sourceByte j = s.sourceByte (n + j) := by
  simp [State.sourceByte, he, hd, Nat.lt_sub_iff_add_lt', Nat.add_assoc]

theorem State.entropyByte_eq (s : State) :
    s.entropyByte = (s.sourceByte 0, { s with entropy := s.entropy.drop 1, drawn := s.drawn + 1 }) := by
  unfold State.entropyByte
  cases he : s.entropy <;> simp [State.sourceByte, he]

theorem State.sourceByte_entropyByte (s : State) (j : Nat) : s.entropyByte.2.sourceByte j = s.sourceByte (1 + j) := by
  rw [State.entropyByte_eq]
  exact State.sourceByte_of_drawn rfl rfl j

/-- `n` draws take the next `n` bytes of the source in order and touch nothing else. -/
theorem State.draws_eq (n : Nat) (s : State) : s.draws n =
    ((List.range n).map s.sourceByte, { s with entropy := s.entropy.drop n, drawn := s.drawn + n }) := by
  induction n generalizing s with
  | zero => rfl
  | succ n ih =>
    have hshift : s.entropyByte.2.sourceByte = s.sourceByte ∘ Nat.succ :=
      funext fun j => (State.sourceByte_entropyByte s j).trans (congrArg s.sourceByte (Nat.add_comm 1 j))
    rw [State.draws_succ, ih, hshift, List.range_succ_eq_map, List.map_cons, List.map_map]
    simp [State.entropyByte_eq, Nat.add_comm, Nat.add_left_comm]

/-- The bytes that `Reseed()` fills the pool with (R193). -/
def State.freshPool (s : State) : List Byte := (List.range 256).map s.sourceByte

theorem State.reseed_state (s : State) : s.reseed = { s with
    pool := s.freshPool, cur := 0, initFlag := true, entropy := s.entropy.drop 256, drawn := s.drawn + 256 } := by
  rw [State.reseed_eq, State.draws_eq]
  rfl

theorem State.sourceByte_reseed (s : State) (j : Nat) : s.reseed.sourceByte j = s.sourceByte (256 + j) := by
  rw [State.reseed_state]
  exact State.sourceByte_of_drawn rfl rfl j

/-! ## The pool -/

theorem rotatePool_eq_rotate (p : List Byte) : rotatePool p = p.rotate 1 := by
  cases p <;> simp [rotatePool]

theorem getD_rotatePool {p : List Byte} {i : Nat} (hi : i < p.length) :
    (rotatePool p).getD i 0 = p.getD ((i + 1) % p.length) 0 := by
  rw [rotatePool_eq_rotate, List.getD_eq_getElem?_getD, List.getElem?_rotate hi, List.getD_eq_getElem?_getD]

/-- The neighbours of step 2 of R192 are the list one place on, with `first` after its last byte. -/
theorem getD_xorPass_zero (first carry : Byte) {l : List Byte} (h : l ≠ []) :
    (xorPass first carry l).getD 0 0 = l.getD 0 0 ^^^ (l ++ [first]).getD 1 0 ^^^ carry := by
  match l with
  | [_] => rfl
  | _ :: _ :: _ => rfl

theorem getD_xorPass_succ (first carry : Byte) {l : List Byte} {i : Nat} (hi : i + 1 < l.length) :
    (xorPass first carry l).getD (i + 1) 0 =
      l.getD (i + 1) 0 ^^^ (l ++ [first]).getD (i + 2) 0 ^^^ (xorPass first carry l).getD i 0 := by
  induction l generalizing carry i with
  | nil => simp at hi
  | cons x l ih =>
    cases l with
    | nil => simp at hi
    | cons y rest =>
      cases i with
      | zero => exact getD_xorPass_zero first _ (List.cons_ne_nil y rest)
      | succ i => exact ih _ (Nat.lt_of_succ_lt_succ hi)

section
variable {p : List Byte} (hp : p.length = 256)
include hp

theorem getD_stirPool_zero : (stirPool p).getD 0 0 = p.getD 1 0 ^^^ p.getD 2 0 := by
  have hr : (rotatePool p).length = 256 := (rotatePool_length p).trans hp
  rw [stirPool, getD_xorPass_zero _ _ (List.ne_nil_of_length_eq_add_one hr), List.getD_append _ _ _ _ (by omega),
    getD_rotatePool (by omega), getD_rotatePool (by omega), hp]
  exact BitVec.xor_zero

theorem stirPool_eq_xorPass : stirPool p = xorPass ((stirPool p).getD 0 0) 0 (rotatePool p) := by
  have hfirst : (stirPool p).getD 0 0 = (rotatePool p).getD 0 0 ^^^ (rotatePool p).getD 1 0 ^^^ 0 := by
    rw [getD_stirPool_zero hp, getD_rotatePool (by omega), getD_rotatePool (by omega), hp]
    exact BitVec.xor_zero.symm
  rw [hfirst]
  rfl

theorem getD_stirPool_succ {i : Nat} (hi : i + 1 < 255) : (stirPool p).getD (i + 1) 0 =
    p.getD ((i + 2) % 256) 0 ^^^ p.getD ((i + 3) % 256) 0 ^^^ (stirPool p).getD i 0 := by
  have hr : (rotatePool p).length = 256 := (rotatePool_length p).trans hp
  rw [stirPool, getD_xorPass_succ _ _ (by omega), List.getD_append _ _ _ _ (by omega),
    getD_rotatePool (by omega), getD_rotatePool (by omega), hp]

theorem getD_stirPool_last : (stirPool p).getD 255 0 =
    p.getD 0 0 ^^^ (stirPool p).getD 0 0 ^^^ (stirPool p).getD 254 0 := by
  have hr : (rotatePool p).length = 256 := (rotatePool_length p).trans hp
  have hlast : (rotatePool p).getD 255 0 = p.getD 0 0 := by rw [getD_rotatePool (by omega), hp]
  have hnext (first : Byte) : (rotatePool p ++ [first]).getD 256 0 = first := by
    rw [List.getD_append_right _ _ _ _ (by omega), hr]
    rfl
  calc (stirPool p).getD 255 0
    _ = (xorPass ((stirPool p).getD 0 0) 0 (rotatePool p)).getD (254 + 1) 0 := by rw [← stirPool_eq_xorPass hp]
    _ = _ := by rw [getD_xorPass_succ _ _ (by omega), hlast, hnext, ← stirPool_eq_xorPass hp]

end

/-- Steps 3 and 4 of R192 over the stirred pool, with the byte `e` drawn. -/
theorem State.mix_state (s : State) : s.mix = { s with
    pool := (stirPool s.pool).set s.cur.toNat ((stirPool s.pool).getD s.cur.toNat 0 ^^^ s.sourceByte 0)
    cur := s.cur + 1, entropy := s.entropy.drop 1, drawn := s.drawn + 1 } := by
  rw [State.mix_eq, State.entropyByte_eq]

theorem getD_set_of_lt {l : List Byte} {i k : Nat} (hi : i < l.length) (v : Byte) :
    (l.set k v).getD i 0 = if i = k then v else l.getD i 0 := by
  rw [List.getD_eq_getElem?_getD, List.getElem?_set]
  by_cases h : i = k
  · subst h
    simp [hi]
  · simp [h, Ne.symm h]

/-! ## NextByte -/

/-- `NextByte()` with INIT = 1: its two draws are the next two bytes of the source (R194). -/
theorem State.nextByte_of_init {s : State} (h : s.initFlag = true) : s.nextByte =
    (s.sourceByte 0 ^^^ s.pool.getD s.cur.toNat 0, { s with
      pool := (stirPool s.pool).set s.cur.toNat ((stirPool s.pool).getD s.cur.toNat 0 ^^^ s.sourceByte 1)
      cur := s.cur + 1, entropy := s.entropy.drop 2, drawn := s.drawn + 2 }) := by
  have he : s.ensureInit = s := if_pos h
  rw [State.nextByte_eq, he, State.mix_state, State.sourceByte_entropyByte, State.entropyByte_eq, List.drop_drop]

/-- `NextByte()` with INIT = 0 fills the pool with the first 256 bytes of the source and goes on with the next two
(R194). -/
theorem State.nextByte_of_not_init {s : State} (h : s.initFlag = false) : s.nextByte =
    (s.sourceByte 256 ^^^ s.freshPool.getD 0 0, { s with
      pool := (stirPool s.freshPool).set 0 ((stirPool s.freshPool).getD 0 0 ^^^ s.sourceByte 257)
      cur := 1, initFlag := true, entropy := s.entropy.drop 258, drawn := s.drawn + 258 }) := by
  have he : s.ensureInit = s.reseed := if_neg (by rw [h]; decide)
  have hinit : s.reseed.initFlag = true := by rw [State.reseed_state]
  have hr : s.reseed.ensureInit = s.reseed := if_pos hinit
  have hnext : s.nextByte = s.reseed.nextByte := by rw [State.nextByte_eq, he, State.nextByte_eq, hr]
  rw [hnext, State.nextByte_of_init hinit, State.sourceByte_reseed, State.sourceByte_reseed, State.reseed_state,
    List.drop_drop]
  rfl

/-- The bytes of 258 draws are those that fill the pool and two more. -/
theorem State.map_sourceByte_range_258 (s : State) :
    (List.range 258).map s.sourceByte = s.freshPool ++ [s.sourceByte 256, s.sourceByte 257] := by
  rw [List.range_succ, List.range_succ]
  simp [State.freshPool]

end Sys2Proof.Machine
end

section
/-! The obligations about the draws and the pool (44_csprng.md R190 to R194, R200, R206, R207), settled from the lemmas
above. -/

open Sys2Proof Sys2Proof.Machine

/-- Settles O44: `n` draws are the next `n` bytes of the source (`State.draws_eq`), and the primitives are counted by the
states they end in. -/
theorem drawsTakeTheSourceInOrder : Obligations.DrawsTakeTheSourceInOrder := by
  unfold Obligations.DrawsTakeTheSourceInOrder
  refine ⟨fun n s => ?_, fun s => ⟨?_, ?_, fun h => ?_, fun h => ?_⟩⟩
  · rw [State.draws_eq]
    exact ⟨rfl, by simp, fun j hj => by simp [hj, State.sourceByte]⟩
  · rw [State.reseed_state]
  · rw [State.mix_state]
  · rw [State.nextByte_of_init h]
  · rw [State.nextByte_of_not_init h]

/-- Settles O45: `q` is the stirred pool, whose bytes follow one from another (`getD_stirPool_succ`), the last one's
neighbour being the first (`getD_stirPool_last`). -/
theorem mixFollowsTheRule : Obligations.MixFollowsTheRule := by
  unfold Obligations.MixFollowsTheRule
  intro s hp p
  have hq : (stirPool s.pool).length = 256 := (stirPool_length s.pool).trans hp
  refine ⟨fun i => (stirPool s.pool).getD i 0, getD_stirPool_zero hp, fun i h0 h255 => ?_, getD_stirPool_last hp, ?_,
    fun i hi => ?_, ?_, ?_⟩
  · obtain ⟨i, rfl⟩ := Nat.exists_eq_add_one.mpr h0
    exact getD_stirPool_succ hp h255
  · rw [State.mix_state, List.length_set, hq]
  · rw [State.mix_state, State.entropyByte_eq, getD_set_of_lt (by omega)]
    exact ite_congr rfl (fun h => by rw [h]) fun _ => rfl
  · rw [State.mix_state]
  · rw [State.mix_state, State.entropyByte_eq]

/-- Settles O46: the draws are the next bytes of the source, in which `NextByte()` is written out for both values of
INIT. -/
theorem rndbDrawsOneByte : Obligations.RndbDrawsOneByte := by
  unfold Obligations.RndbDrawsOneByte
  intro rd s
  have hexec : exec (.rndb rd) s = .next (s.nextByte.2.writeG rd (zextByte s.nextByte.1)).complete := rfl
  refine ⟨decode_encode (i := .rndb rd) rfl, fun f e u h hd => ?_, fun bs f e u h hd => ?_⟩
  · rw [State.draws_eq] at hd
    obtain ⟨hbytes, rfl⟩ := Prod.mk.inj hd
    obtain ⟨rfl, rfl⟩ : s.sourceByte 0 = f ∧ s.sourceByte 1 = e := by simpa [List.range_succ] using hbytes
    rw [hexec, State.nextByte_of_init h]
    rfl
  · rw [State.draws_eq, State.map_sourceByte_range_258] at hd
    obtain ⟨hbytes, rfl⟩ := Prod.mk.inj hd
    obtain ⟨rfl, hlast⟩ := List.append_inj' hbytes rfl
    obtain ⟨rfl, rfl⟩ : s.sourceByte 256 = f ∧ s.sourceByte 257 = e := by simpa using hlast
    rw [hexec, State.nextByte_of_not_init h]
    rfl

/-- Settles O51: RNDCLR by definition, RNDSEED by the state that `Reseed()` ends in. -/
theorem rndclrAndRndseed : Obligations.RndclrAndRndseed := by
  unfold Obligations.RndclrAndRndseed
  refine fun s => ⟨decode_encode (i := .rndclr) rfl, decode_encode (i := .rndseed) rfl, rfl, fun bs u hd => ?_⟩
  have hexec : exec .rndseed s = .next s.reseed.complete := rfl
  rw [State.draws_eq] at hd
  obtain ⟨rfl, rfl⟩ := Prod.mk.inj hd
  rw [hexec, State.reseed_state]
  rfl

end

section
/-! SUPPORT. What a resampling command ends with (44_csprng.md R195, R196, R205; 70_reset_and_hazards.md R309): the values
its sampler accepts of the outputs drawn, in ascending order without repeats. -/

namespace Sys2Proof.Machine

/-! ## What a sampler accepts -/

theorem Sampler.accept_nonZero_eq_some {c v : Byte} : Sampler.nonZero.accept c = some v ↔ c ≠ 0 ∧ c = v := by
  simp [Sampler.accept]

theorem Sampler.accept_below_eq_some {max : Nat} (h0 : 0 < max) (h256 : max ≤ 256) {c v : Byte} :
    (Sampler.below max).accept c = some v ↔ c.toNat < rejectLimit max ∧ c.toNat % max = v.toNat := by
  have hlt : c.toNat % max < 256 := (Nat.mod_lt _ h0).trans_le h256
  simp [Sampler.accept, BitVec.toNat_eq, Nat.mod_eq_of_lt hlt]

theorem Sampler.exists_accept_below {max : Nat} (h0 : 0 < max) (h256 : max ≤ 256) {c : Byte}
    (hc : c.toNat < rejectLimit max) : ∃ v, (Sampler.below max).accept c = some v ∧ c.toNat % max = v.toNat :=
  have haccept : (Sampler.below max).accept c = some (BitVec.ofNat 8 (c.toNat % max)) := if_pos hc
  ⟨_, haccept, ((Sampler.accept_below_eq_some h0 h256).mp haccept).2⟩

theorem Sampler.accept_below_eq_none {max : Nat} {c : Byte} :
    (Sampler.below max).accept c = none ↔ rejectLimit max ≤ c.toNat := by
  simp [Sampler.accept]

/-! ## The set that is built -/

theorem ascending_iff_pairwise {l : List Byte} : ascending l = true ↔ l.Pairwise (· < ·) := by
  induction l with
  | nil => simp [ascending]
  | cons x l ih =>
    rw [List.pairwise_cons, ← ih]
    exact ⟨fun h => ⟨ascending_head_lt h, ascending_tail h⟩, fun h => ascending_cons h.2 h.1⟩

theorem nodup_of_ascending {l : List Byte} (h : ascending l = true) : l.Nodup :=
  (ascending_iff_pairwise.mp h).imp BitVec.ne_of_lt

/-- Two lists that rise strictly and have the same members are one list. -/
theorem eq_of_ascending_of_mem_iff {l l' : List Byte} (h : ascending l = true) (h' : ascending l' = true)
    (hmem : ∀ v, v ∈ l ↔ v ∈ l') : l = l' :=
  ((List.perm_ext_iff_of_nodup (nodup_of_ascending h) (nodup_of_ascending h')).mpr hmem).eq_of_pairwise
    (fun _ _ _ _ hlt hgt => absurd (BitVec.lt_trans hlt hgt) (BitVec.lt_irrefl _))
    (ascending_iff_pairwise.mp h) (ascending_iff_pairwise.mp h')

theorem Pending.ascending_offer {p : Pending} (h : ascending p.held = true) (b : Byte) :
    ascending (p.offer b).held = true := by
  unfold Pending.offer
  split
  · exact h
  · exact ascending_insertValue h

theorem Pending.mem_held_offer {p : Pending} {b v : Byte} :
    v ∈ (p.offer b).held ↔ v ∈ p.held ∨ p.sampler.accept b = some v := by
  unfold Pending.offer
  split
  · rename_i h
    simp [h]
  · rename_i w h
    simp [h, mem_insertValue, or_comm, eq_comm]

theorem Pending.ascending_after {p : Pending} (h : ascending p.held = true) (bs : List Byte) :
    ascending (p.after bs).held = true := by
  induction bs generalizing p with
  | nil => exact h
  | cons b bs ih => exact ih (Pending.ascending_offer h b)

theorem Pending.mem_held_after {p : Pending} {bs : List Byte} {v : Byte} :
    v ∈ (p.after bs).held ↔ v ∈ p.held ∨ ∃ c ∈ bs, p.sampler.accept c = some v := by
  induction bs generalizing p with
  | nil => simp
  | cons b bs ih =>
    obtain ⟨hs, -, -⟩ := Pending.offer_eq p b
    simp [ih, Pending.mem_held_offer, hs, or_assoc]

theorem Pending.after_eq_of_held {p : Pending} {bs L : List Byte} (h : (p.after bs).held = L) :
    p.after bs = { p with held := L } := by
  obtain ⟨hs, hg, hk⟩ := Pending.after_eq p bs
  subst h
  rw [← hs, ← hg, ← hk]

section
variable {p : Pending} {bs L : List Byte} {b v : Byte} (hheld : p.held = [])
  (hmem : ∀ w, w ∈ L ↔ ∃ c ∈ bs ++ [b], p.sampler.accept c = some w)
include hheld hmem

/-- What is held after all the candidates is the list of the values they give. -/
theorem Pending.after_of_mem_iff (hL : L.Pairwise (· < ·)) : p.after (bs ++ [b]) = { p with held := L } := by
  have h0 : ascending p.held = true := by rw [hheld]; rfl
  refine Pending.after_eq_of_held (eq_of_ascending_of_mem_iff (Pending.ascending_after h0 _)
    (ascending_iff_pairwise.mpr hL) fun w => ?_)
  rw [Pending.mem_held_after, hmem, hheld]
  simp

/-- The loop ends with the candidate `b` if its value `v` is one the candidates before it did not give and makes the values
as many as the command asks for: before it, what is held is a subset of the values that lacks `v`. -/
theorem Pending.endsAt_of_new (hL : L.Pairwise (· < ·)) (hgoal : L.length = p.goal)
    (hb : p.sampler.accept b = some v) (hnew : ∀ c ∈ bs, p.sampler.accept c ≠ some v) : p.endsAt (bs ++ [b]) := by
  have h0 : ascending p.held = true := by rw [hheld]; rfl
  constructor
  · rw [Pending.after_of_mem_iff hheld hmem hL]
    exact decide_eq_true hgoal.ge
  · intro j hj
    have hj : j ≤ bs.length := by simpa using hj
    obtain ⟨-, hg, -⟩ := Pending.after_eq p (bs.take j)
    rw [List.take_append_of_le_length hj, Pending.done_eq_false, hg, ← hgoal]
    have hheldj : ∀ {w}, w ∈ (p.after (bs.take j)).held → ∃ c ∈ bs, p.sampler.accept c = some w := by
      intro w hw
      rw [Pending.mem_held_after, hheld] at hw
      obtain ⟨c, hc, hw⟩ := hw.resolve_left List.not_mem_nil
      exact ⟨c, List.mem_of_mem_take hc, hw⟩
    have hv : v ∉ (p.after (bs.take j)).held := fun h => by
      obtain ⟨c, hc, hw⟩ := hheldj h
      exact hnew c hc hw
    have hsub : v :: (p.after (bs.take j)).held ⊆ L := by
      refine List.cons_subset.mpr ⟨(hmem v).mpr ⟨b, by simp, hb⟩, fun w hw => (hmem w).mpr ?_⟩
      obtain ⟨c, hc, hw⟩ := hheldj hw
      exact ⟨c, List.mem_append_left _ hc, hw⟩
    exact ((nodup_of_ascending (Pending.ascending_after h0 _)).cons hv |>.subperm hsub).length_le

end

/-! ## How the command ends -/

/-- `s` with the pool, the cursor and the entropy source that `u` has, and INIT 1: what outputs of `NextByte()` that end in
`u` make of `s` (R194). -/
def State.drawnTo (s u : State) : State :=
  { s with pool := u.pool, cur := u.cur, initFlag := true, entropy := u.entropy, drawn := u.drawn }

theorem State.eq_drawnTo_of_nextBytes {n : Nat} {s u : State} {bs : List Byte} (hn : 0 < n)
    (h : s.nextBytes n = (bs, u)) : u = s.drawnTo u := by
  have hu : (s.nextBytes n).2 = u := by rw [h]
  have hframe : s.SameButDraws u := hu ▸ State.nextBytes_frame n s
  have hinit : u.initFlag = true := hu ▸ (State.nextBytes_effect n s).2.2 hn
  rw [State.drawnTo, ← hinit]
  exact hframe

/-- The command `i`, accepted in `s`, ends in `t` with its candidate number `k`, counted from 0: in that very step if the
step draws so many, and in a later one else (R309; log entry 6). -/
def EndsWithCandidate (i : Instr) (s : State) (k : Nat) (t : State) : Prop :=
  (k < Config.candidatesPerStep → exec i s = .next t) ∧ ((∀ rest, s.bus ≠ .reset :: rest) → EndsIn i s t)

section
variable {i : Instr} {s u : State} {p : Pending} {bs L : List Byte} {b v : Byte}
  (hexec : exec i s = .next (resample Config.candidatesPerStep p s)) (hheld : p.held = [])
  (hdraws : s.nextBytes (bs.length + 1) = (bs ++ [b], u)) (hb : p.sampler.accept b = some v)
include hexec hheld hdraws hb

/-- A command ends with the candidate that gives the last of the values it asks for, and delivers the list of them. -/
theorem endsWithCandidate_of_new (hmem : ∀ w, w ∈ L ↔ ∃ c ∈ bs ++ [b], p.sampler.accept c = some w)
    (hL : L.Pairwise (· < ·)) (hgoal : L.length = p.goal) (hnew : ∀ c ∈ bs, p.sampler.accept c ≠ some v) :
    EndsWithCandidate i s bs.length
      (Pending.deliver { p with held := L } { s.drawnTo u with pending := none }).complete := by
  have hends := Pending.endsAt_of_new hheld hmem hL hgoal hb hnew
  have hlen : (bs ++ [b]).length = bs.length + 1 := List.length_append
  rw [← State.eq_drawnTo_of_nextBytes (Nat.succ_pos _) hdraws, ← Pending.after_of_mem_iff hheld hmem hL]
  rw [← hlen] at hdraws
  exact ⟨fun hk => hexec.trans (congrArg _ (resample_endsAt (hlen.trans_le hk) hdraws hends)),
    fun hr => endsIn_of_endsAt hexec hr hdraws hends⟩

/-- A command that asks for one value ends with the first candidate that its sampler accepts. -/
theorem endsWithCandidate_of_first (hgoal : p.goal = 1) (hrejected : ∀ c ∈ bs, p.sampler.accept c = none) :
    EndsWithCandidate i s bs.length
      (Pending.deliver { p with held := [v] } { s.drawnTo u with pending := none }).complete := by
  refine endsWithCandidate_of_new hexec hheld hdraws hb (fun w => ?_) (List.pairwise_singleton _ v) hgoal.symm
    (fun c hc => by simp [hrejected c hc])
  rw [List.mem_singleton]
  constructor
  · rintro rfl
    exact ⟨b, by simp, hb⟩
  · rintro ⟨c, hc, hw⟩
    rcases List.mem_append.mp hc with hc | hc
    · rw [hrejected c hc] at hw
      cases hw
    · rw [List.mem_singleton.mp hc, hb] at hw
      exact (Option.some.inj hw).symm

end

/-- Reading after a list of bytes is written, one a word. -/
theorem Spm.read_writeList_bytes {m : Spm} (h : m.wf = true) (base : Nat) (bs : List Byte) (a : Nat) :
    (m.writeList base (bs.map zextByte)).read a =
      if base ≤ a ∧ a < base + bs.length then (bs.getD (a - base) 0).setWidth 32 else m.read a := by
  rw [Spm.read_writeList h, List.length_map]
  exact if_congr Iff.rfl (List.getD_map bs 0 zextByte) rfl

end Sys2Proof.Machine
end

section
/-! SUPPORT. How RNDNZ, RNDINT, RNDFILL and RNDUNIQ begin, one equation for each way through their checks (44_csprng.md R201
to R205). -/

namespace Sys2Proof.Machine

section
variable {rd ra rb rc : RegNum} {s : State}

theorem exec_rndnz :
    exec (.rndnz rd) s = .next (resample Config.candidatesPerStep ⟨.nonZero, 1, [], .reg rd⟩ s) := rfl

theorem exec_rndint_invalidArgument (h : (s.readG ra).toInt ≤ 0 ∨ 256 < (s.readG ra).toInt) :
    exec (.rndint rd ra) s = .next (s.faultEntry (encode (.rndint rd ra)) (raise .invalidArgument 0)) :=
  congrArg (finishResample (.rndint rd ra) s) (if_pos h)

theorem exec_rndint_resample (h0 : 0 < (s.readG ra).toInt) (h256 : (s.readG ra).toInt ≤ 256) :
    exec (.rndint rd ra) s = .next (resample Config.candidatesPerStep
      ⟨.below (s.readG ra).toInt.toNat, 1, [], .reg rd⟩ s) :=
  congrArg (finishResample (.rndint rd ra) s) (if_neg (not_or.mpr ⟨not_le.mpr h0, not_lt.mpr h256⟩))

theorem exec_rndfill_invalidArgument (hn : (s.readG rb).toInt ≤ 0) :
    exec (.rndfill ra rb) s = .next (s.faultEntry (encode (.rndfill ra rb)) (raise .invalidArgument 0)) :=
  congrArg (finish (.rndfill ra rb) s) (if_pos hn)

theorem exec_rndfill_addressFault (hn : 0 < (s.readG rb).toInt)
    (hr : Config.spmWords < (s.readG ra).toNat + (s.readG rb).toInt.toNat) :
    exec (.rndfill ra rb) s = .next (s.faultEntry (encode (.rndfill ra rb)) (raise .addressFault 0)) :=
  congrArg (finish (.rndfill ra rb) s) ((if_neg (not_le.mpr hn)).trans (if_pos (rangeOk_false.mpr hr)))

theorem exec_rndfill_fill {out : List Byte} {u : State} (hn : 0 < (s.readG rb).toInt)
    (hr : (s.readG ra).toNat + (s.readG rb).toInt.toNat ≤ Config.spmWords)
    (hdraws : s.nextBytes (s.readG rb).toInt.toNat = (out, u)) :
    exec (.rndfill ra rb) s = .next (u.memWrite (s.readG ra).toNat (out.map zextByte)).complete := by
  simp only [exec, execRndfill, sint, if_neg (not_le.mpr hn), if_neg (ne_false_of_eq_true (rangeOk_iff.mpr hr)), hdraws,
    finish]

theorem exec_rnduniq_zero (hmax : (s.readG rb).toInt ≤ (s.readG rc).toInt) (h0 : (s.readG rb).toInt ≤ 0) :
    exec (.rnduniq ra rb rc) s = .next s.complete :=
  if_pos ⟨hmax, h0⟩

theorem exec_rnduniq_countAboveMax (hmax : (s.readG rc).toInt < (s.readG rb).toInt) :
    exec (.rnduniq ra rb rc) s = .next (s.faultEntry (encode (.rnduniq ra rb rc)) (raise .invalidArgument 0)) :=
  (if_neg fun h => not_le.mpr hmax h.1).trans (congrArg (finishResample (.rnduniq ra rb rc) s) (if_pos hmax))

section
variable (hmax : (s.readG rb).toInt ≤ (s.readG rc).toInt) (h0 : 0 < (s.readG rb).toInt)
include hmax h0

theorem exec_rnduniq_checks : exec (.rnduniq ra rb rc) s = finishResample (.rnduniq ra rb rc) s
    (if (s.readG rc).toInt > 256 then .error (raise .invalidArgument 1)
    else if rangeOk (s.readG ra) (s.readG rb).toInt.toNat = false then .error (raise .addressFault 0)
    else .ok (s, ⟨.below (s.readG rc).toInt.toNat, (s.readG rb).toInt.toNat, [],
      .mem (s.readG ra).toNat []⟩)) :=
  (if_neg fun h => not_le.mpr h0 h.2).trans
    (congrArg (finishResample (.rnduniq ra rb rc) s) (if_neg (not_lt.mpr hmax)))

theorem exec_rnduniq_maxAbove256 (h256 : 256 < (s.readG rc).toInt) :
    exec (.rnduniq ra rb rc) s = .next (s.faultEntry (encode (.rnduniq ra rb rc)) (raise .invalidArgument 1)) := by
  rw [exec_rnduniq_checks hmax h0, if_pos h256, finishResample]

variable (h256 : (s.readG rc).toInt ≤ 256)
include h256

theorem exec_rnduniq_addressFault (hr : Config.spmWords < (s.readG ra).toNat + (s.readG rb).toInt.toNat) :
    exec (.rnduniq ra rb rc) s = .next (s.faultEntry (encode (.rnduniq ra rb rc)) (raise .addressFault 0)) := by
  rw [exec_rnduniq_checks hmax h0, if_neg (not_lt.mpr h256), if_pos (rangeOk_false.mpr hr), finishResample]

theorem exec_rnduniq_resample (hr : (s.readG ra).toNat + (s.readG rb).toInt.toNat ≤ Config.spmWords) :
    exec (.rnduniq ra rb rc) s = .next (resample Config.candidatesPerStep
      ⟨.below (s.readG rc).toInt.toNat, (s.readG rb).toInt.toNat, [], .mem (s.readG ra).toNat []⟩ s) := by
  rw [exec_rnduniq_checks hmax h0, if_neg (not_lt.mpr h256), if_neg (ne_false_of_eq_true (rangeOk_iff.mpr hr)),
    finishResample]

end

end

end Sys2Proof.Machine
end

section
/-! The obligations about the commands that draw more than one output (44_csprng.md R201 to R205), settled from the lemmas
above. -/

open Sys2Proof Sys2Proof.Machine

/-- Settles O47: the first output that is not 0 is the first that the sampler accepts. -/
theorem rndnzDrawsUntilNonZero : Obligations.RndnzDrawsUntilNonZero := by
  unfold Obligations.RndnzDrawsUntilNonZero
  intro rd s u zeros b hzeros hb hdraws t
  have hends : EndsWithCandidate (.rndnz rd) s zeros.length t :=
    endsWithCandidate_of_first exec_rndnz rfl hdraws (Sampler.accept_nonZero_eq_some.mpr ⟨hb, rfl⟩) rfl
      fun z hz => if_pos (hzeros z hz)
  exact ⟨decode_encode (i := .rndnz rd) rfl, hends⟩

/-- Settles O48: the first output below the limit is the first that the sampler accepts, and gives its remainder. -/
theorem rndintDrawsBelowMaxOrFaults : Obligations.RndintDrawsBelowMaxOrFaults := by
  unfold Obligations.RndintDrawsBelowMaxOrFaults
  intro rd ra s max word limit
  refine ⟨decode_encode (i := .rndint rd ra) rfl, exec_rndint_invalidArgument, ?_⟩
  intro u rejected b h0 h256 hrejected hb hdraws t
  obtain ⟨v, haccept, hvalue⟩ := Sampler.exists_accept_below (max := max.toNat) (by omega) (by omega) hb
  have hword : BitVec.ofNat 32 (b.toNat % max.toNat) = zextByte v := by rw [hvalue, BitVec.ofNat_toNat, zextByte]
  have hends := endsWithCandidate_of_first (exec_rndint_resample (rd := rd) h0 h256) rfl hdraws haccept rfl
    (fun z hz => Sampler.accept_below_eq_none.mpr (hrejected z hz))
  have ht : t = (Pending.deliver ⟨.below max.toNat, 1, [v], .reg rd⟩ { s.drawnTo u with pending := none }).complete := by
    simp only [t, hword]
    rfl
  rw [ht]
  exact hends

/-- Settles O49: `n` outputs are drawn before they are written (`exec_rndfill_fill`). -/
theorem rndfillFillsTheRangeOrFaults : Obligations.RndfillFillsTheRangeOrFaults := by
  unfold Obligations.RndfillFillsTheRangeOrFaults
  intro ra rb s hwf base n word
  refine ⟨decode_encode (i := .rndfill ra rb) rfl, exec_rndfill_invalidArgument, fun hn hr => ?_,
    fun out u hn hr hdraws => ⟨s.spm.writeList base (out.map zextByte), ?_, fun a => ?_⟩⟩
  · exact exec_rndfill_addressFault hn (by omega)
  · rw [exec_rndfill_fill hn (by omega) hdraws, State.eq_drawnTo_of_nextBytes (by omega) hdraws]
    rfl
  · have hlen : out.length = n.toNat := by rw [← State.nextBytes_length n.toNat s, hdraws]
    exact (Spm.read_writeList_bytes hwf base out a).trans (if_congr (by omega) rfl rfl)

/-- Settles O50: the values of the outputs are those that the sampler accepts, and `b` gives the last of them. -/
theorem rnduniqDrawsDistinctValuesOrFaults : Obligations.RnduniqDrawsDistinctValuesOrFaults := by
  unfold Obligations.RnduniqDrawsDistinctValuesOrFaults
  intro ra rb rc s hwf base count max limit word
  refine ⟨decode_encode (i := .rnduniq ra rb rc) rfl, exec_rnduniq_countAboveMax, exec_rnduniq_zero,
    exec_rnduniq_maxAbove256, fun hmax h0 h256 hr => ?_,
    fun bs b u L hmax h0 h256 hr hdraws hb hnew hlen hL hmem =>
      ⟨s.spm.writeList base (L.map zextByte), ?_⟩⟩
  · exact exec_rnduniq_addressFault hmax h0 h256 (by omega)
  intro t
  have haccept (c w : Byte) : (Sampler.below max.toNat).accept c = some w ↔
      c.toNat < limit ∧ c.toNat % max.toNat = w.toNat :=
    Sampler.accept_below_eq_some (by omega) (by omega)
  obtain ⟨v, hlast, hvalue⟩ := Sampler.exists_accept_below (max := max.toNat) (by omega) (by omega) hb
  have hends : EndsWithCandidate (.rnduniq ra rb rc) s bs.length t := by
    refine endsWithCandidate_of_new (exec_rnduniq_resample hmax h0 h256 (by omega)) rfl hdraws hlast
      (fun w => (hmem w).trans (exists_congr fun c => and_congr_right' (haccept c w).symm)) hL (by simp only; omega)
      fun c hc hw => ?_
    obtain ⟨hlimit, hsame⟩ := (haccept c v).mp hw
    exact hnew c hc hlimit (hsame.trans hvalue.symm)
  exact ⟨hends.1, hends.2, fun a => (Spm.read_writeList_bytes hwf base L a).trans (if_congr (by omega) rfl rfl)⟩

end

section
/-! SUPPORT. How PVALID, GENPOLY and GENPTS go through their checks (45_generation.md R220 to R222): what the test of a
coefficient array says of its words, and one equation for each way a command ends or begins its loop. -/

namespace Sys2Proof.Machine

/-! ## The test of a coefficient array -/

theorem all_isElem_memRead {s : State} {a n : Nat} :
    (s.memRead a n).all isElem = true ↔ ∀ j < n, (s.readSpm (a + j)).toNat < 256 := by
  simp [State.memRead, isElem_iff]

theorem State.length_memRead (s : State) (a n : Nat) : (s.memRead a n).length = n := by
  simp [State.memRead]

theorem State.getLastD_memRead (s : State) (a : Nat) {n : Nat} (hn : 0 < n) :
    (s.memRead a n).getLastD 0 = s.readSpm (a + (n - 1)) := by
  obtain ⟨n, rfl⟩ := Nat.exists_eq_add_one.mpr hn
  simp [State.memRead, List.range_succ]

theorem validCoeffs_memRead {s : State} {a n : Nat} (hn : 0 < n) : validCoeffs (s.memRead a n) = true ↔
    (∀ j < n, (s.readSpm (a + j)).toNat < 256) ∧ (n = 1 ∨ s.readSpm (a + (n - 1)) ≠ 0) := by
  rw [validCoeffs, Bool.and_eq_true, all_isElem_memRead, s.length_memRead, s.getLastD_memRead a hn, Bool.or_eq_true,
    beq_iff_eq, bne_iff_ne]

/-! ## How PVALID ends -/

section
variable {rd ra rb : RegNum} {s : State}

theorem exec_pvalid_checks {f : Raise} (hc : coeffChecks (s.readG ra) (s.readG rb).toInt = some f) :
    exec (.pvalid rd ra rb) s = .next (s.faultEntry (encode (.pvalid rd ra rb)) f) := by
  simp only [exec, execPvalid, sint, hc, finish]

theorem exec_pvalid_test (hc : coeffChecks (s.readG ra) (s.readG rb).toInt = none) :
    exec (.pvalid rd ra rb) s = .next (s.writeG rd
      (truthWord (validCoeffs (s.memRead (s.readG ra).toNat (s.readG rb).toInt.toNat)))).complete := by
  simp only [exec, execPvalid, sint, hc, finish]

end

/-! ## How GENPOLY begins -/

section
variable {ra rb rc : RegNum} {s : State}

theorem exec_genpoly_invalidThreshold (h2 : (s.readG rc).toInt < 2) :
    exec (.genpoly ra rb rc) s = .next (s.faultEntry (encode (.genpoly ra rb rc)) (raise .invalidThreshold 0)) :=
  congrArg (finishResample (.genpoly ra rb rc) s) (if_pos h2)

theorem exec_genpoly_thresholdExceedsField (h256 : 256 < (s.readG rc).toInt) :
    exec (.genpoly ra rb rc) s = .next (s.faultEntry (encode (.genpoly ra rb rc)) (raise .thresholdExceedsField 0)) :=
  congrArg (finishResample (.genpoly ra rb rc) s)
    ((if_neg (not_lt.mpr (le_trans (by decide) h256.le))).trans (if_pos h256))

variable (h2 : 2 ≤ (s.readG rc).toInt) (h256 : (s.readG rc).toInt ≤ 256)
include h2 h256

theorem exec_genpoly_invalidSecret (hs : 256 ≤ (s.readG rb).toNat) :
    exec (.genpoly ra rb rc) s = .next (s.faultEntry (encode (.genpoly ra rb rc)) (raise .invalidSecret 0)) := by
  simp only [exec, execGenpoly, sint, if_neg (not_lt.mpr h2), if_neg (not_lt.mpr h256),
    if_pos (isElem_false_iff.mpr hs), finishResample]

variable (hs : (s.readG rb).toNat < 256)
include hs

theorem exec_genpoly_addressFault (hr : Config.spmWords < (s.readG ra).toNat + (s.readG rc).toInt.toNat) :
    exec (.genpoly ra rb rc) s = .next (s.faultEntry (encode (.genpoly ra rb rc)) (raise .addressFault 0)) := by
  simp only [exec, execGenpoly, sint, if_neg (not_lt.mpr h2), if_neg (not_lt.mpr h256),
    if_neg (ne_false_of_eq_true (isElem_iff.mpr hs)), if_pos (rangeOk_false.mpr hr), finishResample]

/-- The outputs between the secret and the last coefficient are drawn before the loop begins. -/
theorem exec_genpoly_resample {middle : List Byte} {u : State}
    (hr : (s.readG ra).toNat + (s.readG rc).toInt.toNat ≤ Config.spmWords)
    (hdraws : s.nextBytes ((s.readG rc).toInt.toNat - 2) = (middle, u)) :
    exec (.genpoly ra rb rc) s = .next (resample Config.candidatesPerStep
      ⟨.nonZero, 1, [], .mem (s.readG ra).toNat (lowByte (s.readG rb) :: middle)⟩ u) := by
  simp only [exec, execGenpoly, sint, if_neg (not_lt.mpr h2), if_neg (not_lt.mpr h256),
    if_neg (ne_false_of_eq_true (isElem_iff.mpr hs)), if_neg (ne_false_of_eq_true (rangeOk_iff.mpr hr)), hdraws,
    finishResample]

end

/-! ## How GENPTS begins -/

section
variable {ra rb : RegNum} {s : State}

theorem exec_genpts_invalidArgument (hn : (s.readG rb).toInt < 1 ∨ 255 < (s.readG rb).toInt) :
    exec (.genpts ra rb) s = .next (s.faultEntry (encode (.genpts ra rb)) (raise .invalidArgument 0)) :=
  congrArg (finishResample (.genpts ra rb) s) (if_pos hn)

variable (h1 : 1 ≤ (s.readG rb).toInt) (h255 : (s.readG rb).toInt ≤ 255)
include h1 h255

theorem exec_genpts_addressFault (hr : Config.spmWords < (s.readG ra).toNat + (s.readG rb).toInt.toNat) :
    exec (.genpts ra rb) s = .next (s.faultEntry (encode (.genpts ra rb)) (raise .addressFault 0)) :=
  congrArg (finishResample (.genpts ra rb) s)
    ((if_neg (not_or.mpr ⟨not_lt.mpr h1, not_lt.mpr h255⟩)).trans (if_pos (rangeOk_false.mpr hr)))

theorem exec_genpts_resample (hr : (s.readG ra).toNat + (s.readG rb).toInt.toNat ≤ Config.spmWords) :
    exec (.genpts ra rb) s = .next (resample Config.candidatesPerStep
      ⟨.nonZero, (s.readG rb).toInt.toNat, [], .mem (s.readG ra).toNat []⟩ s) :=
  congrArg (finishResample (.genpts ra rb) s)
    ((if_neg (not_or.mpr ⟨not_lt.mpr h1, not_lt.mpr h255⟩)).trans
      (if_neg (ne_false_of_eq_true (rangeOk_iff.mpr hr))))

end

end Sys2Proof.Machine
end

section
/-! SUPPORT. A resampling command that draws before its loop, as GENPOLY does (45_generation.md R220): the loop begins in a
state `r` that is not the one the command was accepted in. -/

namespace Sys2Proof.Machine

theorem State.SameButDraws.bus {s u : State} (hu : s.SameButDraws u) : u.bus = s.bus := by
  rw [show u = _ from hu]

theorem Pending.after_of_rejected {p : Pending} {bs : List Byte} (h : ∀ c ∈ bs, p.sampler.accept c = none) :
    p.after bs = p := by
  induction bs with
  | nil => rfl
  | cons c bs ih =>
    obtain ⟨hc, hbs⟩ := List.forall_mem_cons.mp h
    have hoffer : p.offer c = p := by rw [Pending.offer, hc]
    rw [Pending.after_cons, hoffer, ih hbs]

section
variable {p : Pending} {bs : List Byte} {b v : Byte} (hheld : p.held = [])
  (hrejected : ∀ c ∈ bs, p.sampler.accept c = none) (hb : p.sampler.accept b = some v)
include hheld hrejected hb

theorem Pending.after_of_first : p.after (bs ++ [b]) = { p with held := [v] } := by
  rw [Pending.after_append, Pending.after_of_rejected hrejected, Pending.after_cons, Pending.after_nil, Pending.offer, hb,
    hheld]
  rfl

/-- Until the first candidate that is accepted the command holds nothing. -/
theorem Pending.endsAt_of_first (hgoal : p.goal = 1) : p.endsAt (bs ++ [b]) := by
  constructor
  · rw [Pending.after_of_first hheld hrejected hb]
    exact decide_eq_true hgoal.le
  · intro j hj
    have hj : j ≤ bs.length := by simpa using hj
    rw [List.take_append_of_le_length hj, Pending.after_of_rejected fun c hc => hrejected c (List.mem_of_mem_take hc),
      Pending.done_eq_false, hheld, hgoal]
    exact Nat.zero_lt_one

end

/-- A command accepted in `s` whose loop begins in `r` ends with the candidate that makes the exit test true. -/
theorem endsWithCandidate_of_endsAt {i : Instr} {s r u : State} {p : Pending} {bs : List Byte} {b : Byte}
    (hexec : exec i s = .next (resample Config.candidatesPerStep p r)) (hbus : r.bus = s.bus)
    (hdraws : r.nextBytes (bs.length + 1) = (bs ++ [b], u)) (hends : p.endsAt (bs ++ [b])) :
    EndsWithCandidate i s bs.length ((p.after (bs ++ [b])).deliver { u with pending := none }).complete := by
  have hlen : (bs ++ [b]).length = bs.length + 1 := List.length_append
  rw [← hlen] at hdraws
  exact ⟨fun hk => hexec.trans (congrArg _ (resample_endsAt (hlen.trans_le hk) hdraws hends)),
    fun hr => endsIn_of_endsAt hexec (hbus ▸ hr) hdraws hends⟩

/-- Draws in two parts change of `s` what draws at once do (R194). -/
theorem State.eq_drawnTo_of_nextBytes_of_nextBytes {m n : Nat} {s u v : State} {bs cs : List Byte} (hn : 0 < n)
    (hu : s.nextBytes m = (bs, u)) (hv : u.nextBytes n = (cs, v)) : v = s.drawnTo v := by
  refine State.eq_drawnTo_of_nextBytes (bs := bs ++ cs) (Nat.add_pos_right m hn) ?_
  rw [State.nextBytes_add, hu, hv]

end Sys2Proof.Machine
end

section
/-! The obligations about generation (45_generation.md), settled from the lemmas above. -/

open Sys2Proof Sys2Proof.Machine

/-- Settles O52: the outputs between the secret and the last coefficient are drawn first, and the loop ends with the first
further output that its sampler accepts. -/
theorem genpolyDrawsAPolynomialOrFaults : Obligations.GenpolyDrawsAPolynomialOrFaults := by
  unfold Obligations.GenpolyDrawsAPolynomialOrFaults
  intro ra rb rc s hwf base secret K word
  refine ⟨decode_encode (i := .genpoly ra rb rc) rfl, exec_genpoly_invalidThreshold, exec_genpoly_thresholdExceedsField,
    exec_genpoly_invalidSecret, fun h2 h256 hs hr => ?_,
    fun middle zeros b u v h2 h256 hs hr hmiddle hzeros hb hlast =>
      ⟨s.spm.writeList base ((lowByte secret :: middle ++ [b]).map zextByte), ?_⟩⟩
  · exact exec_genpoly_addressFault h2 h256 hs (by omega)
  intro t
  have hbus : u.bus = s.bus := by simpa only [hmiddle] using (State.nextBytes_frame (K.toNat - 2) s).bus
  have hlen : middle.length = K.toNat - 2 := by rw [← State.nextBytes_length (K.toNat - 2) s, hmiddle]
  have hrejected : ∀ z ∈ zeros, Sampler.nonZero.accept z = none := fun z hz => if_pos (hzeros z hz)
  have haccept : Sampler.nonZero.accept b = some b := Sampler.accept_nonZero_eq_some.mpr ⟨hb, rfl⟩
  have hends : EndsWithCandidate (.genpoly ra rb rc) s zeros.length t := by
    have hloop := endsWithCandidate_of_endsAt (exec_genpoly_resample (ra := ra) h2 h256 hs (by omega) hmiddle) hbus hlast
      (Pending.endsAt_of_first rfl hrejected haccept rfl)
    rw [Pending.after_of_first rfl hrejected haccept,
      State.eq_drawnTo_of_nextBytes_of_nextBytes (Nat.succ_pos _) hmiddle hlast] at hloop
    exact hloop
  refine ⟨hends.1, hends.2, fun a => (Spm.read_writeList_bytes hwf base _ a).trans (if_congr ?_ rfl rfl)⟩
  simp only [List.length_append, List.length_cons, List.length_nil, hlen]
  omega

/-- Settles O53: the members of the set are the outputs that are not 0, and `b` is the last of them to be drawn. -/
theorem genptsDrawsDistinctPointsOrFaults : Obligations.GenptsDrawsDistinctPointsOrFaults := by
  unfold Obligations.GenptsDrawsDistinctPointsOrFaults
  intro ra rb s hwf base n word
  refine ⟨decode_encode (i := .genpts ra rb) rfl, exec_genpts_invalidArgument, fun h1 h255 hr => ?_,
    fun bs b u L h1 h255 hr hdraws hb hnew hlen hL hmem => ⟨s.spm.writeList base (L.map zextByte), ?_⟩⟩
  · exact exec_genpts_addressFault h1 h255 (by omega)
  intro t
  have hends : EndsWithCandidate (.genpts ra rb) s bs.length t := by
    refine endsWithCandidate_of_new (exec_genpts_resample h1 h255 (by omega)) rfl hdraws
      (Sampler.accept_nonZero_eq_some.mpr ⟨hb, rfl⟩) (fun w => ?_) hL (by simp only; omega) fun c hc hw => ?_
    · rw [hmem]
      simp only [Sampler.accept_nonZero_eq_some, ← and_assoc, exists_eq_right]
    · obtain ⟨-, rfl⟩ := Sampler.accept_nonZero_eq_some.mp hw
      exact hnew hc
  exact ⟨hends.1, hends.2, fun a => (Spm.read_writeList_bytes hwf base L a).trans (if_congr (by omega) rfl rfl)⟩

/-- Settles O39: once the count and the range are right, the result is the test of R222 on the words of the array
(`validCoeffs_memRead`). -/
theorem pvalidTestsTheArrayOrFaults : Obligations.PvalidTestsTheArrayOrFaults := by
  unfold Obligations.PvalidTestsTheArrayOrFaults
  intro rd ra rb s base n c word
  refine ⟨decode_encode (i := .pvalid rd ra rb) rfl, fun hn => exec_pvalid_checks (coeffChecks_invalidArgument hn),
    fun h0 h256 => ⟨fun hr => exec_pvalid_checks (coeffChecks_addressFault h0 h256 hr), fun hr => ?_⟩⟩
  have hend := exec_pvalid_test (rd := rd) (coeffChecks_none h0 h256 hr)
  have htest : validCoeffs (s.memRead base n.toNat) = true ↔
      (∀ j : Nat, j < n → (c j).toNat < 256) ∧ (n = 1 ∨ c (n.toNat - 1) ≠ 0) :=
    (validCoeffs_memRead (by omega)).trans
      (and_congr (forall_congr' fun j => imp_congr_left (by omega)) (or_congr_left (by omega)))
  refine ⟨fun h => ?_, fun h => ?_⟩
  · rw [htest.mpr h] at hend
    exact hend
  · rw [Bool.eq_false_iff.mpr (mt htest.mp h)] at hend
    exact hend

end

section
/-! SUPPORT. How `Recon` ends (46_reconstruction.md R230): what its two searches say of the words of a share array, and one
equation for each way through its checks. -/

namespace Sys2Proof.Machine

/-! ## The searches -/

theorem zip_shareXs_shareYs (s : State) (b n : Nat) : (s.shareXs b n).zip (s.shareYs b n) =
    (List.range n).map fun j => (s.readSpm (b + 2 * j), s.readSpm (b + 2 * j + 1)) :=
  List.zip_map'

theorem pointBytes_shares (s : State) (b n : Nat) : pointBytes (s.shareXs b n) (s.shareYs b n) =
    (List.range n).map fun j => ((s.readSpm (b + 2 * j)).setWidth 8, (s.readSpm (b + 2 * j + 1)).setWidth 8) := by
  rw [pointBytes, List.zip_map, zip_shareXs_shareYs, List.map_map]
  rfl

theorem firstInvalidShare_shares_eq_some {s : State} {b n j : Nat} :
    firstInvalidShare ((s.shareXs b n).zip (s.shareYs b n)) = some j ↔
      j < n ∧ (256 ≤ (s.readSpm (b + 2 * j)).toNat ∨ 256 ≤ (s.readSpm (b + 2 * j + 1)).toNat ∨
          s.readSpm (b + 2 * j) = 0) ∧
        ∀ k < j, (s.readSpm (b + 2 * k)).toNat < 256 ∧ (s.readSpm (b + 2 * k + 1)).toNat < 256 ∧
          s.readSpm (b + 2 * k) ≠ 0 := by
  simp [firstInvalidShare, zip_shareXs_shareYs, List.findIdx?_eq_some_iff_getElem, isElem_false_iff,
    or_assoc, and_left_comm (b := _ < n)]

theorem firstInvalidShare_shares_eq_none {s : State} {b n : Nat} :
    firstInvalidShare ((s.shareXs b n).zip (s.shareYs b n)) = none ↔
      ∀ j < n, (s.readSpm (b + 2 * j)).toNat < 256 ∧ (s.readSpm (b + 2 * j + 1)).toNat < 256 ∧
        s.readSpm (b + 2 * j) ≠ 0 := by
  simp [firstInvalidShare, zip_shareXs_shareYs, isElem_iff, and_assoc]

/-! ## What is left once the counts and the range are right -/

/-- The last two checks of R230 and the result, over the words of a share array. -/
def reconShares (grp : Nat) (xs ys : List Word) : Except Raise Byte :=
  match firstInvalidShare (xs.zip ys) with
  | some i => .error ⟨.invalidShare, indexWord i, indexWord grp⟩
  | none =>
    match firstDuplicate [] 0 xs with
    | some j => .error ⟨.duplicateXCoordinate, indexWord j, indexWord grp⟩
    | none => .ok (lagrange0 (pointBytes xs ys))

section
variable {grp : Nat} {xs ys : List Word}

theorem reconShares_invalidShare {i : Nat} (hi : firstInvalidShare (xs.zip ys) = some i) :
    reconShares grp xs ys = .error ⟨.invalidShare, indexWord i, indexWord grp⟩ := by
  rw [reconShares, hi]

variable (hi : firstInvalidShare (xs.zip ys) = none)
include hi

theorem reconShares_duplicate {j : Nat} (hj : firstDuplicate [] 0 xs = some j) :
    reconShares grp xs ys = .error ⟨.duplicateXCoordinate, indexWord j, indexWord grp⟩ := by
  rw [reconShares, hi, hj]

theorem reconShares_value (hj : firstDuplicate [] 0 xs = none) :
    reconShares grp xs ys = .ok (lagrange0 (pointBytes xs ys)) := by
  rw [reconShares, hi, hj]

end

/-! ## The ways through the checks -/

section
variable {s : State} {base : Word} {n K : Int} {grp : Nat}

theorem recon_invalidArgument (hn : n < 0) :
    s.recon base n K grp = .error ⟨.invalidArgument, 0, indexWord grp⟩ :=
  if_pos hn

theorem recon_emptyShares (hn : n = 0) : s.recon base n K grp = .error ⟨.emptyShares, 0, indexWord grp⟩ :=
  (if_neg (not_lt.mpr hn.ge)).trans (if_pos hn)

variable (h0 : 0 < n)
include h0

theorem recon_insufficientShares (hK : n < K) :
    s.recon base n K grp = .error ⟨.insufficientShares, 0, indexWord grp⟩ :=
  (if_neg (not_lt.mpr h0.le)).trans ((if_neg h0.ne').trans (if_pos hK))

variable (hK : K ≤ n)
include hK

theorem recon_range : s.recon base n K grp =
    if rangeOk base (2 * n.toNat) = false then .error ⟨.addressFault, 0, indexWord grp⟩
    else reconShares grp (s.shareXs base.toNat n.toNat) (s.shareYs base.toNat n.toNat) :=
  (if_neg (not_lt.mpr h0.le)).trans ((if_neg h0.ne').trans (if_neg (not_lt.mpr hK)))

theorem recon_addressFault (hr : Config.spmWords < base.toNat + 2 * n.toNat) :
    s.recon base n K grp = .error ⟨.addressFault, 0, indexWord grp⟩ := by
  rw [recon_range h0 hK, if_pos (rangeOk_false.mpr hr)]

theorem recon_shares (hr : base.toNat + 2 * n.toNat ≤ Config.spmWords) : s.recon base n K grp =
    reconShares grp (s.shareXs base.toNat n.toNat) (s.shareYs base.toNat n.toNat) := by
  rw [recon_range h0 hK, if_neg (ne_false_of_eq_true (rangeOk_iff.mpr hr))]

end

end Sys2Proof.Machine
end

section
/-! SUPPORT. `Recon` over a share array that holds given points (46_reconstruction.md R233): it passes every check and
interpolates over those points. -/

namespace Sys2Proof.Machine

theorem toNat_zextByte_lt (b : Byte) : (zextByte b).toNat < 256 := by
  unfold zextByte
  bv_omega

theorem lowByte_zextByte (b : Byte) : lowByte (zextByte b) = b := by
  unfold lowByte zextByte
  bv_omega

theorem zextByte_injective : Function.Injective zextByte :=
  Function.LeftInverse.injective lowByte_zextByte

theorem map_fst_sharesOf (cs xs : List Byte) : (sharesOf cs xs).map Prod.fst = xs := by
  rw [sharesOf, List.map_map]
  exact List.map_id xs

theorem readSpm_of_holdsShares {s : State} {a : Nat} {points : List (Byte × Byte)} (h : s.holdsShares a points) {j : Nat}
    (hj : j < points.length) :
    s.readSpm (a + 2 * j) = zextByte points[j].1 ∧ s.readSpm (a + 2 * j + 1) = zextByte points[j].2 := by
  induction points generalizing a j with
  | nil => cases hj
  | cons p points ih =>
    obtain ⟨hx, hy, hrest⟩ := h
    cases j with
    | zero => exact ⟨hx, hy⟩
    | succ j =>
      rw [Nat.mul_succ, Nat.add_comm (2 * j), ← Nat.add_assoc a]
      exact ih hrest (Nat.lt_of_succ_lt_succ hj)

section
variable {s : State} {b : Nat} {points : List (Byte × Byte)} (h : s.holdsShares b points)
include h

theorem pointBytes_of_holdsShares :
    pointBytes (s.shareXs b points.length) (s.shareYs b points.length) = points := by
  rw [pointBytes_shares]
  refine List.ext_getElem (by simp) fun j _ hj => ?_
  obtain ⟨hx, hy⟩ := readSpm_of_holdsShares h hj
  rw [List.getElem_map, List.getElem_range, hx, hy]
  exact Prod.ext (lowByte_zextByte _) (lowByte_zextByte _)

theorem firstInvalidShare_of_holdsShares (hzero : 0 ∉ points.map Prod.fst) :
    firstInvalidShare ((s.shareXs b points.length).zip (s.shareYs b points.length)) = none := by
  refine firstInvalidShare_shares_eq_none.mpr fun j hj => ?_
  obtain ⟨hx, hy⟩ := readSpm_of_holdsShares h hj
  rw [hx, hy]
  refine ⟨toNat_zextByte_lt _, toNat_zextByte_lt _, fun h0 => hzero ?_⟩
  have hx0 : points[j].1 = 0 := zextByte_injective h0
  exact hx0 ▸ List.mem_map_of_mem (List.getElem_mem hj)

theorem firstDuplicate_of_holdsShares (hdistinct : (points.map Prod.fst).Nodup) :
    firstDuplicate [] 0 (s.shareXs b points.length) = none := by
  refine firstDuplicate_map_range_eq_none.mpr fun j hj i hi hsame => ?_
  rw [(readSpm_of_holdsShares h hj).1, (readSpm_of_holdsShares h (hi.trans hj)).1] at hsame
  exact List.pairwise_iff_getElem.mp (List.pairwise_map.mp hdistinct) i j _ hj hi (zextByte_injective hsame).symm

end

theorem recon_of_holdsShares {s : State} {base : Word} {points : List (Byte × Byte)} {K : Int} (grp : Nat)
    (h0 : 0 < points.length) (hK : K ≤ points.length) (hr : base.toNat + 2 * points.length ≤ Config.spmWords)
    (h : s.holdsShares base.toNat points) (hzero : 0 ∉ points.map Prod.fst) (hdistinct : (points.map Prod.fst).Nodup) :
    s.recon base points.length K grp = .ok (lagrange0 points) := by
  rw [recon_shares (Int.natCast_pos.mpr h0) hK hr, Int.toNat_natCast,
    reconShares_value (firstInvalidShare_of_holdsShares h hzero) (firstDuplicate_of_holdsShares h hdistinct),
    pointBytes_of_holdsShares h]

end Sys2Proof.Machine
end

section
/-! SUPPORT. How RECON and BRECON end (46_reconstruction.md R231, R232): the groups of BRECON one after another, and one
equation for each way a command ends. -/

namespace Sys2Proof.Machine

/-! ## How RECON ends -/

section
variable {rd ra rb rc : RegNum} {s : State}

theorem exec_recon_fault {f : Raise}
    (hf : s.recon (s.readG ra) (s.readG rb).toInt (s.readG rc).toInt 0 = .error f) :
    exec (.recon rd ra rb rc) s = .next (s.faultEntry (encode (.recon rd ra rb rc)) f) := by
  simp only [exec, execRecon, sint, hf, finish]

theorem exec_recon_value {v : Byte}
    (hv : s.recon (s.readG ra) (s.readG rb).toInt (s.readG rc).toInt 0 = .ok v) :
    exec (.recon rd ra rb rc) s = .next (s.writeG rd (zextByte v)).complete := by
  simp only [exec, execRecon, sint, hv, finish]

end

/-! ## The groups of BRECON -/

/-- `Recon` of group `grp`, over the shares that its descriptor names (R70, R232). -/
def State.reconGroup (s : State) (db : Nat) (K : Int) (grp : Nat) : Except Raise Byte :=
  s.recon (s.readSpm (db + 2 * grp)) (s.readSpm (db + 2 * grp + 1)).toInt K grp

section
variable {s : State} {db : Nat} {K : Int}

theorem reconGroups_cons (grp : Nat) (rest : List Nat) : s.reconGroups db K (grp :: rest) =
    (s.reconGroup db K grp).bind fun v => (s.reconGroups db K rest).map (v :: ·) := by
  rw [State.reconGroups, State.reconGroup]
  cases s.recon (s.readSpm (db + 2 * grp)) (s.readSpm (db + 2 * grp + 1)).toInt K grp with
  | error f => rfl
  | ok v => cases s.reconGroups db K rest <;> rfl

theorem reconGroups_eq_ok {out : Nat → Byte} {gs : List Nat} (h : ∀ grp ∈ gs, s.reconGroup db K grp = .ok (out grp)) :
    s.reconGroups db K gs = .ok (gs.map out) := by
  induction gs with
  | nil => rfl
  | cons grp gs ih =>
    obtain ⟨hgrp, hgs⟩ := List.forall_mem_cons.mp h
    rw [reconGroups_cons, hgrp, ih hgs]
    rfl

theorem reconGroups_eq_error {before after : List Nat} {grp : Nat} {f : Raise}
    (hbefore : ∀ k ∈ before, ∃ v, s.reconGroup db K k = .ok v) (hf : s.reconGroup db K grp = .error f) :
    s.reconGroups db K (before ++ grp :: after) = .error f := by
  induction before with
  | nil =>
    rw [List.nil_append, reconGroups_cons, hf]
    rfl
  | cons k before ih =>
    obtain ⟨⟨v, hv⟩, hrest⟩ := List.forall_mem_cons.mp hbefore
    rw [List.cons_append, reconGroups_cons, hv, ih hrest]
    rfl

theorem reconGroups_range_eq_error {n grp : Nat} {f : Raise} (hgrp : grp < n) (hf : s.reconGroup db K grp = .error f)
    (hbefore : ∀ k < grp, ∃ v, s.reconGroup db K k = .ok v) : s.reconGroups db K (List.range n) = .error f := by
  obtain ⟨k, rfl⟩ := Nat.exists_eq_add_of_lt hgrp
  rw [Nat.add_assoc, List.range_add, List.range_succ_eq_map, List.map_cons]
  exact reconGroups_eq_error (fun k hk => hbefore k (List.mem_range.mp hk)) hf

end

/-! ## How BRECON ends -/

section
variable {ra rb rc re : RegNum} {s : State}

theorem exec_brecon_invalidArgument (hG : (s.readG rb).toInt ≤ 0) :
    exec (.brecon ra rb rc re) s =
      .next (s.faultEntry (encode (.brecon ra rb rc re)) (raise .invalidArgument 0)) :=
  congrArg (finish (.brecon ra rb rc re) s) (if_pos hG)

variable (hG : 0 < (s.readG rb).toInt)
include hG

theorem exec_brecon_addressFault (hr : Config.spmWords < (s.readG ra).toNat + 2 * (s.readG rb).toInt.toNat ∨
      Config.spmWords < (s.readG re).toNat + (s.readG rb).toInt.toNat) :
    exec (.brecon ra rb rc re) s = .next (s.faultEntry (encode (.brecon ra rb rc re)) (raise .addressFault 0)) := by
  rcases hr with hr | hr
  · simp only [exec, execBrecon, sint, if_neg (not_le.mpr hG), if_pos (rangeOk_false.mpr hr), finish]
  · simp only [exec, execBrecon, sint, if_neg (not_le.mpr hG), if_pos (rangeOk_false.mpr hr), ite_self, finish]

variable (hdb : (s.readG ra).toNat + 2 * (s.readG rb).toInt.toNat ≤ Config.spmWords)
  (hob : (s.readG re).toNat + (s.readG rb).toInt.toNat ≤ Config.spmWords)
include hdb hob

theorem exec_brecon_fault {f : Raise} (hf : s.reconGroups (s.readG ra).toNat (s.readG rc).toInt
      (List.range (s.readG rb).toInt.toNat) = .error f) :
    exec (.brecon ra rb rc re) s = .next (s.faultEntry (encode (.brecon ra rb rc re)) f) := by
  simp only [exec, execBrecon, sint, if_neg (not_le.mpr hG), if_neg (ne_false_of_eq_true (rangeOk_iff.mpr hdb)),
    if_neg (ne_false_of_eq_true (rangeOk_iff.mpr hob)), hf, finish]

theorem exec_brecon_results {out : List Byte} (hout : s.reconGroups (s.readG ra).toNat (s.readG rc).toInt
      (List.range (s.readG rb).toInt.toNat) = .ok out) :
    exec (.brecon ra rb rc re) s = .next (s.memWrite (s.readG re).toNat (out.map zextByte)).complete := by
  simp only [exec, execBrecon, sint, if_neg (not_le.mpr hG), if_neg (ne_false_of_eq_true (rangeOk_iff.mpr hdb)),
    if_neg (ne_false_of_eq_true (rangeOk_iff.mpr hob)), hout, finish]

end

/-- Reading after the results of `n` groups are written, one a word. -/
theorem Spm.read_writeList_results {m : Spm} (h : m.wf = true) (ob n : Nat) (out : Nat → Byte) (a : Nat) :
    (m.writeList ob (((List.range n).map out).map zextByte)).read a =
      if ob ≤ a ∧ a < ob + n then (out (a - ob)).setWidth 32 else m.read a := by
  rw [Spm.read_writeList_bytes h, List.length_map, List.length_range]
  refine ite_congr rfl (fun ha => ?_) fun _ => rfl
  rw [List.getD_eq_getElem _ _ (by simp; omega), List.getElem_map, List.getElem_range]

end Sys2Proof.Machine
end

section
/-! The obligations about reconstruction (46_reconstruction.md), settled from the lemmas above. -/

open Sys2Proof Sys2Proof.Machine

/-- Settles O41: once the counts and the range are right, what is left turns on the lowest invalid share, then on the lowest
x that stands before. -/
theorem reconFollowsItsChecks : Obligations.ReconFollowsItsChecks := by
  unfold Obligations.ReconFollowsItsChecks
  intro s base n K grp b g x y
  refine ⟨recon_invalidArgument, recon_emptyShares, recon_insufficientShares,
    fun h0 hK hr => recon_addressFault h0 hK (by omega), fun h0 hK hrange => ?_⟩
  have hrecon : s.recon base n K grp = reconShares grp (s.shareXs b n.toNat) (s.shareYs b n.toNat) :=
    recon_shares h0 hK (by omega)
  refine ⟨fun j hj hbad hlow => ?_, fun hall => ?_⟩
  · rw [hrecon, reconShares_invalidShare (firstInvalidShare_shares_eq_some.mpr ⟨by omega, hbad, hlow⟩)]
    rfl
  have hvalid : firstInvalidShare ((s.shareXs b n.toNat).zip (s.shareYs b n.toNat)) = none :=
    firstInvalidShare_shares_eq_none.mpr fun j hj => hall j (by omega)
  refine ⟨fun j hj hdup hlow => ?_, fun hdistinct => ?_⟩
  · rw [hrecon, reconShares_duplicate hvalid (firstDuplicate_map_range_eq_some.mpr ⟨by omega, hdup, hlow⟩)]
    rfl
  · rw [hrecon, reconShares_value hvalid (firstDuplicate_map_range_eq_none.mpr fun j hj => hdistinct j (by omega)),
      pointBytes_shares]

/-- Settles O43: the results are those of `reconGroups`, which ends with the first group that raises a fault, and the
scratchpad after them is read with `Spm.read_writeList_results`. -/
theorem breconReconstructsEveryGroupOrFaults : Obligations.BreconReconstructsEveryGroupOrFaults := by
  unfold Obligations.BreconReconstructsEveryGroupOrFaults
  intro ra rb rc re s hwf db G K ob r word
  refine ⟨decode_encode (i := .brecon ra rb rc re) rfl, exec_brecon_invalidArgument, fun hG hr => ?_,
    fun hG hdb hob => ⟨fun grp f hgrp hf hlow => ?_, fun out hout => ?_⟩⟩
  · exact exec_brecon_addressFault hG (by omega)
  · exact exec_brecon_fault hG (by omega) (by omega) (reconGroups_range_eq_error (by omega) hf hlow)
  · have hgroups : s.reconGroups db K (List.range G.toNat) = .ok ((List.range G.toNat).map out) :=
      reconGroups_eq_ok fun grp hgrp => hout grp (by have := List.mem_range.mp hgrp; omega)
    refine ⟨_, exec_brecon_results hG (by omega) (by omega) hgroups, fun a => ?_⟩
    exact (Spm.read_writeList_results hwf ob G.toNat out a).trans (if_congr (by omega) rfl rfl)

/-- Settles O60: the shares pass every check (`recon_of_holdsShares`), and Lagrange0 over them is the constant term
(`lagrange0_sharesOf`). -/
theorem reconReturnsTheSecret : Obligations.ReconReturnsTheSecret := by
  unfold Obligations.ReconReturnsTheSecret
  intro rd ra rb rc s
  refine ⟨fun cs xs hcs hx hzero hlen hn hK hr hholds => ?_, fun h0 hK => ?_⟩
  · obtain ⟨c, cs, rfl⟩ := List.exists_cons_of_ne_nil hcs
    have hcount : (sharesOf (c :: cs) xs).length = xs.length := List.length_map _
    have hpos : 0 < xs.length := (Nat.succ_pos _).trans_le hlen
    have hrecon : s.recon (s.readG ra) (s.readG rb).toInt (s.readG rc).toInt 0 = .ok c := by
      have h := recon_of_holdsShares (K := (s.readG rc).toInt) 0 (by omega) (by omega) (by omega) hholds
        (by rwa [map_fst_sharesOf]) (by rwa [map_fst_sharesOf])
      rwa [hcount, ← hn, lagrange0_sharesOf hx hlen, horner_cons_zero] at h
    exact exec_recon_value hrecon
  · exact exec_recon_fault (recon_insufficientShares h0 hK)

/-- Settles O42: the result of RECON is that of `Recon`, whose faults carry the group it was given (`recon_error`). -/
theorem reconCommandReturnsRecon : Obligations.ReconCommandReturnsRecon := by
  unfold Obligations.ReconCommandReturnsRecon
  intro rd ra rb rc s word r
  exact ⟨decode_encode (i := .recon rd ra rb rc) rfl,
    fun f hf => ⟨exec_recon_fault hf, (recon_error hf).2.2⟩, fun v hv => exec_recon_value hv⟩

end

section
/-! SUPPORT. How a command, a word and a step come to set FAULT (60_exceptions.md R262, R266, R267). -/

namespace Sys2Proof.Machine

/-- A command that sets FAULT raises one of its own causes, and its next state is the fault entry. -/
theorem exec_faults {i : Instr} {s t : State} (h : exec i s = .next t) (hs : s.faultFlag = false)
    (ht : t.faultFlag = true) : ∃ f, Raise.fits i f ∧ t = s.faultEntry (encode i) f := by
  rcases exec_frame h with hfault | ⟨hkept, -⟩
  · exact hfault
  · simp [hs, ht] at hkept

/-- A word that sets FAULT is illegal, or of a command that raises one of its own causes; FCMD is the word itself. -/
theorem issue_faults {w : Word} {s t : State} (h : issue w s = .next t) (hs : s.faultFlag = false)
    (ht : t.faultFlag = true) :
    ∃ f, t = s.faultEntry w f ∧
      ((f = raise .illegalCommand 0 ∧ ∃ e, decode w = .error e) ∨ ∃ i, decode w = .ok i ∧ Raise.fits i f) := by
  rcases issue_cases h with ⟨hlocked, -⟩ | ⟨-, e, he, ht⟩ | ⟨-, i, hd, he⟩
  · simp [hs] at hlocked
  · exact ⟨_, ht, .inl ⟨rfl, e, he⟩⟩
  · obtain ⟨f, hfit, hf⟩ := exec_faults he hs ht
    rw [encode_of_decode hd] at hf
    exact ⟨f, hf, .inr ⟨i, hd, hfit⟩⟩

/-- Only issuing a word sets FAULT. -/
theorem step_faults {s t : State} (h : step s = .next t) (hs : s.faultFlag = false) (ht : t.faultFlag = true) :
    ∃ w rest, issue w { s with bus := rest, readData := none } = .next t := by
  have hsets : t.faultFlag ≠ s.faultFlag := by simp [hs, ht]
  rcases step_cases h with ⟨rest, -, rfl⟩ | ⟨p, -, -, rfl⟩ | ⟨-, -, rfl⟩ | ⟨offset, rest, -, -, -, rfl⟩ |
    ⟨offset, v, rest, -, -, -, -, rfl⟩ | ⟨w, rest, -, -, hi⟩
  · cases ht
  · exact absurd (resample_frame Config.candidatesPerStep p s).1 hsets
  · exact absurd rfl hsets
  · exact absurd rfl hsets
  · obtain ⟨-, -, -, -, -, -, -, -, hw⟩ := busWrite_frame { s with bus := rest, readData := none } offset v
    rcases hw with ⟨hkept, -⟩ | ⟨-, -, hclear⟩
    · exact absurd hkept hsets
    · rw [hclear] at ht
      cases ht
  · exact ⟨w, rest, hi⟩

/-- The seven commands without a row in the table of causes (R262). -/
theorem raisedBy_eq_nil {i : Instr}
    (h : i.opcode ∈ ([.li, .mov, .gfvalid, .rndb, .rndnz, .rndclr, .rndseed] : List Opcode)) : raisedBy i = [] := by
  cases i with
  | li | mov | gfvalid | rndb | rndnz | rndclr | rndseed => rfl
  | _ => simp [Instr.opcode] at h

end Sys2Proof.Machine
end

section
/-! The obligations about exceptions (60_exceptions.md), settled from the lemmas above. -/

open Sys2Proof Sys2Proof.Machine

/-- Settles O16: the fault entry of a word writes the record, the count and FAULT, and no other field. -/
theorem faultChangesOnlyTheRecord : Obligations.FaultChangesOnlyTheRecord := by
  unfold Obligations.FaultChangesOnlyTheRecord
  intro w s t hs h ht
  obtain ⟨f, hf, -⟩ := issue_faults h hs ht
  exact ⟨f, hf⟩

/-- Settles O17: what a command raises fits its row of the table (`Raise.fits`), and an illegal word raises
IllegalCommand. -/
theorem causesFollowTheTable : Obligations.CausesFollowTheTable := by
  unfold Obligations.CausesFollowTheTable
  refine ⟨by decide, fun w i s t hd hs h ht => ?_, fun i s t hi hs h => ?_, fun s t h hs ht => ?_⟩
  · rw [issue_legal hs hd] at h
    obtain ⟨f, ⟨hcause, hidx, hgrp⟩, hf⟩ := exec_faults h hs ht
    rw [encode_of_decode hd] at hf
    exact ⟨f, hf, hcause, hidx, hgrp⟩
  · refine Bool.eq_false_iff.mpr fun ht => ?_
    obtain ⟨f, ⟨hcause, -⟩, -⟩ := exec_faults h hs ht
    simp [raisedBy_eq_nil hi] at hcause
  · obtain ⟨w, rest, hi⟩ := step_faults h hs ht
    obtain ⟨f, rfl, ⟨rfl, -⟩ | ⟨i, -, hcause, -⟩⟩ := issue_faults hi hs ht
    · rfl
    · exact raisedCode_of_raisedBy hcause

/-- Settles O18: a command that ends in the step that accepted it by `exec_frame`, one that ends in a later step by
`resample_frame`. -/
theorem completionKeepsTheRecord : Obligations.CompletionKeepsTheRecord := by
  unfold Obligations.CompletionKeepsTheRecord
  refine ⟨fun i s t _ _ h ht hq => ?_, fun s t p hp hr h hq => ?_⟩
  · rcases exec_frame h with ⟨f, -, rfl⟩ | ⟨-, hdrop, -, hcause, hcmd, hidx, hgrp, hseq, -, -, hend⟩
    · cases ht
    · rcases hend with ⟨hcount, -⟩ | ⟨-, hwaits, -⟩
      · exact ⟨hcount, hdrop, hcause, hcmd, hidx, hgrp, hseq⟩
      · exact absurd hq hwaits
  · cases h.symm.trans (step_goOn hp hr)
    obtain ⟨hfault, hdrop, -, hcause, hcmd, hidx, hgrp, hseq, -, -⟩ := resample_frame Config.candidatesPerStep p s
    rcases resample_ends_or_waits Config.candidatesPerStep p s with ⟨-, hcount⟩ | ⟨hwaits, -⟩
    · exact ⟨hcount, hfault, hdrop, hcause, hcmd, hidx, hgrp, hseq⟩
    · exact absurd hq hwaits

/-- Settles O20: of all that a command can do (`exec_frame`), only a resampling loop that waits leaves it in progress; a
later step goes on with that loop. -/
theorem inProgressChangesOnlyTheDraws : Obligations.InProgressChangesOnlyTheDraws := by
  unfold Obligations.InProgressChangesOnlyTheDraws
  refine ⟨fun i s t hp h hq => ?_, fun s t p hp hr h hq => ?_⟩
  · rcases exec_frame h with ⟨f, -, rfl⟩ | ⟨-, -, -, -, -, -, -, -, -, -, ⟨-, hends⟩ | ⟨hresamples, -, hdraws⟩⟩
    · exact absurd hp hq
    · exact absurd (hends.elim (fun e => e.trans hp) id) hq
    · exact ⟨hresamples, hdraws⟩
  · cases h.symm.trans (step_goOn hp hr)
    rcases resample_ends_or_waits Config.candidatesPerStep p s with ⟨hends, -⟩ | ⟨-, hdraws⟩
    · exact absurd hends hq
    · exact hdraws

/-- Settles O7: a locked word by `issue_locked`; the other accesses do not look at FAULT. -/
theorem lockDropsCommands : Obligations.LockDropsCommands := by
  unfold Obligations.LockDropsCommands
  refine ⟨fun s w rest hp hf hb => ?_, fun s offset v rest hp _ h0 ho hb => step_write hp ho h0 hb,
    fun s offset rest hp _ ho hb => step_read hp ho hb⟩
  rw [step_issue hp hb]
  exact issue_locked (s := { s with bus := rest, readData := none }) hf w

end

section
/-! SUPPORT. A resampling loop that pauses and goes on (70_reset_and_hazards.md R309), and the byte that the source
delivers next, whatever happens to the block (20_memory.md R81). -/

namespace Sys2Proof.Machine

/-! ## The pause -/

/-- A draw does not look at the command in progress. -/
theorem State.nextByte_setPending (s : State) (x : Option Pending) :
    State.nextByte { s with pending := x } = (s.nextByte.1, { s.nextByte.2 with pending := x }) := by
  obtain ⟨hbytes, hstate⟩ := Prod.mk.inj (State.nextBytes_pending 1 s x)
  exact Prod.ext (List.head_eq_of_cons_eq hbytes) hstate

/-- The loop is given its command and overwrites the one the state holds. -/
theorem resample_setPending (n : Nat) (p : Pending) (s : State) (x : Option Pending) :
    resample n p { s with pending := x } = resample n p s := by
  induction n generalizing p s with
  | zero => rfl
  | succ n ih =>
    rw [resample_succ, resample_succ, State.nextByte_setPending, ih]

@[simp] theorem Pending.deliver_pending (p : Pending) (s : State) : (p.deliver s).pending = s.pending := by
  rcases deliver_cases p s with ⟨rd, -, h⟩ | ⟨base, lead, -, h⟩
  · rw [h, State.writeG_pending]
  · rw [h, State.memWrite_pending]

/-- A loop of `a + b` candidates has ended after `a`, or goes on for `b` from where the pause left it. -/
theorem resample_add (a b : Nat) (p : Pending) (s : State) :
    ((resample a p s).pending = none ∧ resample (a + b) p s = resample a p s) ∨
      ∃ q, (resample a p s).pending = some q ∧ resample (a + b) p s = resample b q (resample a p s) := by
  induction a generalizing p s with
  | zero =>
    rw [Nat.zero_add]
    cases hd : p.done with
    | true =>
      rw [resample_done hd, resample_done hd]
      exact .inl ⟨Pending.deliver_pending p _, rfl⟩
    | false =>
      have hpause : resample 0 p s = { s with pending := some p } := by simp [resample, hd]
      exact .inr ⟨p, by rw [hpause], by rw [hpause]; exact (resample_setPending b p s _).symm⟩
  | succ a ih =>
    rw [Nat.succ_add, resample_succ, resample_succ]
    cases hd : p.done with
    | true => exact .inl ⟨Pending.deliver_pending p _, rfl⟩
    | false => exact ih (p.offer s.nextByte.1) s.nextByte.2

/-! ## The source -/

/-- The byte the source delivers next depends on its list and its count alone (R190). -/
theorem State.entropyByte_of_source {s t : State} (he : t.entropy = s.entropy) (hd : t.drawn = s.drawn) :
    t.entropyByte.1 = s.entropyByte.1 := by
  rw [State.entropyByte_eq, State.entropyByte_eq]
  exact State.sourceByte_of_drawn (n := 0) he hd 0

end Sys2Proof.Machine
end

section
/-! The obligations about the reset and the pause of a command in progress (70_reset_and_hazards.md), settled from the lemmas
above. -/

open Sys2Proof Sys2Proof.Machine

/-- Settles O21: the two cases of `resample_add`. -/
theorem resamplingMayPauseAnywhere : Obligations.ResamplingMayPauseAnywhere := by
  unfold Obligations.ResamplingMayPauseAnywhere
  intro a b p s
  rcases resample_add a b p s with ⟨hends, h⟩ | ⟨q, hwaits, h⟩
  · rw [hends]
    exact h
  · rw [hwaits]
    exact h

/-- Settles O9: the step is `State.applyReset` (`step_reset`), whose registers are those of `resetValues` and whose other
fields are the reset's or the environment's as they stand. -/
theorem resetEvent : Obligations.ResetEvent := by
  unfold Obligations.ResetEvent
  intro s rest hb
  obtain ⟨hreg, -⟩ := resetValues
  exact ⟨_, step_reset hb, hreg, fun _ => rfl, rfl, rfl, rfl, rfl, rfl, rfl, rfl, rfl, rfl, rfl, rfl, rfl, rfl,
    rfl, rfl, State.entropyByte_of_source rfl rfl⟩

end
